-- ==== Sys2Proof/Word.lean ====
section
/-! DEFINITION. The word types of the EFXG audio core (spec 00_scope.md R10, R11). -/

namespace Sys2Proof

/-- One byte of a byte-level view of the PCM memory (R63), and the width of `OPC` and `IMM8` (R91). -/
abbrev Byte := BitVec 8

/-- A 32-bit word: a command word, an output word, a register, a `uint32` state word (R10). -/
abbrev Word := BitVec 32

/-- One audio sample, an `int16` held as its two's-complement pattern (R10, R120). -/
abbrev Sample := BitVec 16

end Sys2Proof
end

