-- ==== Sys2Proof/Config.lean ====
section
/-! DEFINITION. The implementation parameters of R8 and the model's one free value, the schedule.
The parameters are fixed before reset and never change; the state carries them (`State.cfg`) so that
every statement about every state holds for every configuration (R8, 92_eei_decisions.md section 6,
log entry 1). -/

namespace Sys2Proof

/-- The constants of R8, each with the spec's name beside it. `SCAP = MAX_SLICE` (R9) has no field. -/
structure Config where
  /-- `FS`, nominal frames per second; enters no rule but as the default of `CAP` -/
  fs : Nat
  /-- `CAP`, ring capacity in frames -/
  cap : Nat
  /-- `NBUF`, words in each DMA buffer -/
  nbuf : Nat
  /-- `START_THRESHOLD`, the fill level at which `PCM.BLOCK` starts the driver -/
  startThreshold : Nat
  /-- `MIN_SLICE` -/
  minSlice : Nat
  /-- `MAX_SLICE`, which is also `SCAP` (R9) -/
  maxSlice : Nat
  /-- `SCRATCH_INC`, phase increment per repeating frame -/
  scratchInc : Nat
  /-- `LCG_A` -/
  lcgA : Nat
  /-- `LCG_C` -/
  lcgC : Nat
  /-- `LCG_SEED` -/
  lcgSeed : Nat
deriving DecidableEq, Repr

/-- The default column of R8. -/
def Config.default : Config where
  fs := 44100
  cap := 44100
  nbuf := 256
  startThreshold := 5512
  minSlice := 1
  maxSlice := 32768
  scratchInc := 8
  lcgA := 1664525
  lcgC := 1013904223
  lcgSeed := 1

/-- FREE VALUE (log entry 2). Which of the enabled agents steps next, at the `n`-th contested turn for
which the state lists no turn: R75 and U14 allow every interleaving, so nothing constrains it. -/
opaque Config.schedule : Nat → Nat

end Sys2Proof
end

