-- ==== Sys2Proof/Machine/State.lean ====
section
/-! DEFINITION. The state of the EFXG audio core (10_state.md), the reasons a step can stop, and reset. -/

namespace Sys2Proof.Machine

/-- A stereo frame, a pair `(l, r)` of `int16` (R11, R120). -/
structure Frame where
  l : Sample
  r : Sample
deriving DecidableEq, Repr

/-- The frame `(0, 0)` (R16). -/
def Frame.silence : Frame := ⟨0, 0⟩

/-- Sparse storage: (index, element) pairs, indices strictly rising, no pair holding the element that an
unlisted index reads as. `Cells.wf` (Machine/Ops.lean) says so. -/
abbrev Cells (α : Type) := List (Nat × α)

/-- The PCM memory laid over bytes: sample `a` is bytes `2a` (least significant) and `2a + 1` (R61, R63). -/
abbrev Memory := List Host.Cell

/-- The fifteen parameter registers `REG[0x00 .. 0x0E]`, in index order (R41). -/
structure Params where
  enabled : Word
  sliceLength : Word
  repeatCount : Word
  wetMix : Word
  pitchShift : Word
  reverse : Word
  stutterEnabled : Word
  stutterLength : Word
  windowShape : Word
  loopStart : Word
  loopSizeDecay : Word
  probability : Word
  clockDivider : Word
  pitchMode : Word
  freeze : Word
deriving DecidableEq, Repr

/-- The effect engine's state words (R26). -/
structure Effect where
  /-- `cap[0 .. SCAP−1]`; an unlisted slot holds silence -/
  cap : Cells Frame
  /-- `wp`, write position -/
  wp : Word
  /-- `rp`, Q16.16 read position from the start of the loop window (R27) -/
  rp : Word
  /-- `rc`, completed passes -/
  rc : Word
  /-- `rep`, repeating -/
  rep : Bool
  /-- `phase`, the scratch modulation's angle -/
  phase : Word
  /-- `prng`, the gate's generator (R28) -/
  prng : Word
deriving DecidableEq, Repr

/-- The ring buffer's state words (R29). -/
structure Ring where
  /-- `ring[0 .. CAP−1]`; an unlisted slot holds silence -/
  slots : Cells Frame
  /-- `wi` -/
  wi : Word
  /-- `ri` -/
  ri : Word
  /-- `fc` -/
  fc : Word
  /-- `underrun_count` -/
  underrun : Word
  /-- `overrun_count` -/
  overrun : Word
deriving DecidableEq, Repr

/-- The output driver's state words (R30, R31). -/
structure Driver where
  /-- `dbuf[0][0 .. NBUF−1]` -/
  dbuf0 : List Word
  /-- `dbuf[1][0 .. NBUF−1]` -/
  dbuf1 : List Word
  /-- `active_index`, 0 or 1 -/
  active : Fin 2
  /-- `running`: Running when true, Stopped when false (R250) -/
  running : Bool
  /-- `dma_pos`, words of the active buffer already emitted -/
  dmaPos : Word
  /-- `irq_pending`, the latched transfer-complete event -/
  irqPending : Bool
deriving DecidableEq, Repr

/-- The four agents of R20. -/
inductive Agent where
  | host | fg | isr | dma
deriving DecidableEq, Repr

/-- Which command owns the write phase in progress (R25). -/
inductive WriteOwner where
  | rbWrite | pcmBlock
deriving DecidableEq, Repr

/-- FG's sequencing state (R25): between commands, or inside one of the two commands that other agents
may step into (R75). -/
inductive FgState where
  /-- between two commands -/
  | idle
  /-- the next atomic step offers frame `i` of the block to the ring; `n` frames are written so far -/
  | writing (owner : WriteOwner) (addr count : Word) (i n : Nat)
  /-- the next atomic step is the accounting step (R221) -/
  | accounting (owner : WriteOwner) (count : Word) (n : Nat)
  /-- the next atomic step is the auto-start test of `PCM.BLOCK` (R280 phase 3) -/
  | autoStart
deriving DecidableEq, Repr

/-- What HOST does next (R20, R22): it is outside the block, so its actions are input. -/
inductive HostAct where
  /-- present one word on the command port (R90) -/
  | word (w : Word)
  /-- write one sample of its PCM memory (R22, R46, R62) -/
  | pcmWrite (addr : Word) (v : Sample)
  /-- pulse the reset input (R340) -/
  | reset
deriving DecidableEq, Repr

/-- The four error event classes of R300. They transfer no control; `raise` (Machine/Ops.lean) records
what the table's "recorded" column says. -/
inductive ErrorEvent where
  /-- code 1: `n` frames dropped -/
  | overrun (n : Nat)
  /-- code 2: `n` silent slots -/
  | underrun (n : Nat)
  /-- code 3 -/
  | invalidParameter
  /-- code 4 -/
  | channelMismatch
deriving DecidableEq, Repr

/-- The machine. `cfg` holds the constants of R8; `host`, `sched` and `tick` are the model's own inputs
(log entries 2 and 4); every other field is the spec's. -/
structure State where
  /-- the implementation parameters (R8) -/
  cfg : Config
  /-- the parameter registers (R41) -/
  params : Params
  /-- the effect engine (R26) -/
  effect : Effect
  /-- the ring buffer (R29) -/
  ring : Ring
  /-- the output driver (R30) -/
  driver : Driver
  /-- `RES` (R45) -/
  res : Word
  /-- the PCM memory, HOST's (R46, R61) -/
  pcm : Memory
  /-- the words emitted on the output port, oldest first (R23, R265) -/
  out : List Word
  /-- the words presented on the command port and not yet accepted (R90) -/
  port : List Word
  /-- FG's sequencing state (R25) -/
  fg : FgState
  /-- HOST's coming actions -/
  host : List HostAct
  /-- listed turns: which agent steps at the next contested turns -/
  sched : List Agent
  /-- contested turns so far, the argument of the free schedule -/
  tick : Nat
deriving DecidableEq, Repr

/-- No rule of the spec stops the machine: "The model never halts, never becomes stuck and has no
undefined outcome" (R305), "Nothing in the block is `stuck` or `fault`" (93_implementation_defined.md).
So there is no fault to name. -/
inductive Fault where
deriving DecidableEq, Repr

/-- The inputs that have no meaning. -/
inductive Refusal where
  /-- raised by an arm of `exec` that has no meaning yet; none is left. Safe: the model stops. -/
  | notModelled (mnemonic : String)
  /-- raised by `BR.PROC`, `RB.WRITE`, `RB.CONS` and `PCM.BLOCK` when the block runs past the top of the
  PCM space; the spec refuses it (R66, U10). Safe. -/
  | spanPastTop
  /-- raised by `step` when the configuration breaks a constraint of R8; the spec refuses it (U6). Safe. -/
  | badConfiguration
deriving DecidableEq, Repr

/-- The reset column of R41. -/
def Params.reset (c : Config) : Params where
  enabled := 0
  sliceLength := BitVec.ofNat 32 c.maxSlice
  repeatCount := 1
  wetMix := 100
  pitchShift := 0x10000
  reverse := 0
  stutterEnabled := 0
  stutterLength := BitVec.ofNat 32 c.maxSlice
  windowShape := 0
  loopStart := 0
  loopSizeDecay := 0
  probability := 65536
  clockDivider := 1
  pitchMode := 0
  freeze := 0

/-- The reset column of R26. -/
def Effect.reset (c : Config) : Effect where
  cap := []
  wp := 0
  rp := 0
  rc := 0
  rep := false
  phase := 0
  prng := BitVec.ofNat 32 c.lcgSeed

/-- The reset column of R29. -/
def Ring.reset : Ring where
  slots := []
  wi := 0
  ri := 0
  fc := 0
  underrun := 0
  overrun := 0

/-- The reset column of R30. -/
def Driver.reset (c : Config) : Driver where
  dbuf0 := List.replicate c.nbuf 0
  dbuf1 := List.replicate c.nbuf 0
  active := 0
  running := false
  dmaPos := 0
  irqPending := false

/-- The block configured by `c`, right after hardware reset (R52, R341), with the PCM memory, HOST's
actions and the turns given from outside (R22). -/
def State.resetWith (c : Config) (pcm : Memory) (host : List HostAct) (sched : List Agent)
    (tick : Nat) : State where
  cfg := c
  params := Params.reset c
  effect := Effect.reset c
  ring := Ring.reset
  driver := Driver.reset c
  res := 0
  pcm := pcm
  out := []
  port := []
  fg := .idle
  host := host
  sched := sched
  tick := tick

/-- The machine right after reset, in the default configuration of R8, with nothing from outside:
no PCM byte listed, no HOST action, no turn listed (log entries 1, 2, 4, 5). -/
def State.reset : State := State.resetWith Config.default [] [] [] 0

end Sys2Proof.Machine
end

