-- ==== Sys2Proof/Machine/Flags.lean ====
section
/-! DEFINITION. The block's one-bit state (10_state.md R33). There are no arithmetic condition codes: no
operation leaves a carry, zero, sign or overflow flag, and saturation is silent. What is one bit wide is
`rep`, `running`, `active_index`, `irq_pending` and the four boolean parameter registers. -/

namespace Sys2Proof.Machine

/-- A boolean parameter register holds 0 or 1 (R41); it is on when it is not 0. -/
def isOn (reg : Word) : Bool := reg != 0

/-- `enabled` (R195). -/
def Params.enabledOn (p : Params) : Bool := isOn p.enabled

/-- `reverse` (R188). -/
def Params.reverseOn (p : Params) : Bool := isOn p.reverse

/-- `stutter_enabled` (R182). -/
def Params.stutterOn (p : Params) : Bool := isOn p.stutterEnabled

/-- `freeze` (R184, R193). -/
def Params.freezeOn (p : Params) : Bool := isOn p.freeze

/-- The driver Running from word 0 of buffer 0, no completion pending (R252, after the pre-fill). -/
def Driver.begin (d : Driver) : Driver :=
  { d with active := 0, dmaPos := 0, irqPending := false, running := true }

/-- The driver halted, a pending completion cancelled; the rest keeps its value (R255, R256). -/
def Driver.halt (d : Driver) : Driver :=
  { d with running := false, irqPending := false }

/-- The handler's step (a): the other buffer becomes active, from its first word (R257, R258). -/
def Driver.swap (d : Driver) : Driver :=
  { d with irqPending := false, active := 1 - d.active, dmaPos := 0 }

/-- One more word of the active buffer is emitted; the last one latches the completion (R262, R263). -/
def Driver.advance (nbuf : Nat) (d : Driver) : Driver :=
  { d with
    dmaPos := BitVec.ofNat 32 (d.dmaPos.toNat + 1)
    irqPending := if d.dmaPos.toNat + 1 = nbuf then true else d.irqPending }

/-- DMA has an enabled step exactly when Running with a word left (R262). -/
def Driver.canEmit (nbuf : Nat) (d : Driver) : Bool :=
  d.running && decide (d.dmaPos.toNat < nbuf)

end Sys2Proof.Machine
end

