-- ==== Sys2Proof/Machine/Operands.lean ====
section
/-! DEFINITION. What the operands of a command and the constants of a configuration are held against:
the PCM span (20_memory.md R66), the clamp functions of the parameter registers (10_state.md R41) and
the constraints of R8. None of them looks at the state. -/

namespace Sys2Proof.Machine

/-- R66: the block of `count` frames at sample address `addr` ends at or below `2^32`. -/
def spanFits (addr count : Word) : Bool :=
  decide (addr.toNat + 2 * count.toNat ≤ 2 ^ 32)

/-- The constraint column of R8, with the 32-bit bounds it gives `CAP`, `NBUF` and the generator. A
configuration outside it is refused (93_implementation_defined.md U6). -/
def configOk (c : Config) : Bool :=
  decide (1 ≤ c.fs ∧ 1 ≤ c.cap ∧ c.cap < 2 ^ 32 ∧ 1 ≤ c.nbuf ∧ c.nbuf < 2 ^ 32 ∧
    1 ≤ c.startThreshold ∧ c.startThreshold ≤ c.cap ∧
    1 ≤ c.minSlice ∧ c.minSlice ≤ c.maxSlice ∧ c.maxSlice ≤ 32768 ∧ c.scratchInc < 65536 ∧
    c.lcgA < 2 ^ 32 ∧ c.lcgC < 2 ^ 32 ∧ c.lcgSeed < 2 ^ 32)

/-- `clamp(v, lo, hi)` of R12. -/
def clampInt (v lo hi : Int) : Int :=
  if v < lo then lo else if hi < v then hi else v

/-- The clamp of a numeric parameter: the word is read as `int32` (R41, R152). -/
def legalNumber (lo hi : Nat) (data : Word) : Word :=
  BitVec.ofInt 32 (clampInt data.toInt lo hi)

/-- The clamp of a boolean parameter: any nonzero `uint32` stores 1 (R41). -/
def legalBool (data : Word) : Word :=
  if data = 0 then 0 else 1

/-- `clock_divider`: invalid values reset to 1 (R41, R151). -/
def legalDivider (data : Word) : Word :=
  if data = 1 ∨ data = 2 ∨ data = 4 ∨ data = 8 then data else 1

/-- `legal_k(data)` of R41, for the register index `k`; of no meaning at other indices. -/
def legalValue (c : Config) (k : Nat) (data : Word) : Word :=
  match k with
  | 0x00 => legalBool data
  | 0x01 => legalNumber c.minSlice c.maxSlice data
  | 0x02 => legalNumber 1 16 data
  | 0x03 => legalNumber 0 100 data
  | 0x04 => legalNumber 0x4000 0x40000 data
  | 0x05 => legalBool data
  | 0x06 => legalBool data
  | 0x07 => legalNumber c.minSlice c.maxSlice data
  | 0x08 => legalNumber 0 65536 data
  | 0x09 => legalNumber 0 65536 data
  | 0x0A => legalNumber 0 65536 data
  | 0x0B => legalNumber 0 65536 data
  | 0x0C => legalDivider data
  | 0x0D => legalNumber 0 3 data
  | 0x0E => legalBool data
  | _ => data

end Sys2Proof.Machine
end

