-- ==== Sys2Proof/Machine/Ops.lean ====
section
/-! DEFINITION. The named operations over memories and registers: sparse cells, the PCM memory
(20_memory.md), the register file (10_state.md R40), the error events and the interrupt
(60_exceptions.md), the ring (43_ring_buffer.md) and the output driver (44_dma_output.md). -/

namespace Sys2Proof.Machine

/-! ### Sparse cells -/

/-- The element at index `a`; `d` where none is listed. -/
def Cells.read {α : Type} (d : α) : Cells α → Nat → α
  | [], _ => d
  | (k, v) :: m, a => if k = a then v else Cells.read d m a

/-- Store `v` at index `a`, keeping the canonical form: storing `d` takes the entry out. -/
def Cells.write {α : Type} [DecidableEq α] (d : α) : Cells α → Nat → α → Cells α
  | [], a, v => if v = d then [] else [(a, v)]
  | (k, w) :: m, a, v =>
    if a < k then (if v = d then (k, w) :: m else (a, v) :: (k, w) :: m)
    else if a = k then (if v = d then m else (a, v) :: m)
    else (k, w) :: Cells.write d m a v

/-- The canonical form of cells with indices in `lo .. hi − 1`: indices strictly rising, no entry `d`. -/
def Cells.wf {α : Type} [DecidableEq α] (d : α) (hi : Nat) : Nat → Cells α → Bool
  | _, [] => true
  | lo, (k, v) :: m => decide (lo ≤ k ∧ k < hi ∧ v ≠ d) && Cells.wf d hi (k + 1) m

/-! ### The PCM memory -/

/-- What an unlisted PCM byte reads as (log entry 5, DESIGN CHOICE, unsafe). -/
def unlistedByte : Byte := 0

/-- The canonical form of the PCM memory: byte addresses below `2^33` strictly rising, no unlisted value. -/
def Memory.wf (m : Memory) : Bool := Cells.wf unlistedByte (2 ^ 33) 0 m

/-- One byte of the byte-level view (R63). -/
def Memory.readByte (m : Memory) (b : Nat) : Byte := Cells.read unlistedByte m b

/-- Store one byte. -/
def Memory.writeByte (m : Memory) (b : Nat) (v : Byte) : Memory := Cells.write unlistedByte m b v

/-- `PCM[a]`: bytes `2a` (least significant) and `2a + 1` (R61, R63). -/
def Memory.readSample (m : Memory) (a : Nat) : Sample :=
  m.readByte (2 * a + 1) ++ m.readByte (2 * a)

/-- `PCM[a] <- v` (R62, R63). -/
def Memory.writeSample (m : Memory) (a : Nat) (v : Sample) : Memory :=
  (m.writeByte (2 * a) (v.extractLsb' 0 8)).writeByte (2 * a + 1) (v.extractLsb' 8 8)

/-- `MemRead(addr, n)` (R62). -/
def memRead (m : Memory) (addr : Nat) : Nat → List Sample
  | 0 => []
  | n + 1 => m.readSample addr :: memRead m (addr + 1) n

/-- `MemWrite(addr, n, v)`, `n` the length of the list (R62). -/
def memWrite (m : Memory) (addr : Nat) : List Sample → Memory
  | [] => m
  | v :: vs => memWrite (m.writeSample addr v) (addr + 1) vs

/-- `PcmFrame(addr, i)`: left first (R62, R64). -/
def readFrame (m : Memory) (addr i : Nat) : Frame :=
  ⟨m.readSample (addr + 2 * i), m.readSample (addr + 2 * i + 1)⟩

/-- `PcmFrameWrite(addr, i, (l, r))` (R62). -/
def writeFrame (m : Memory) (addr i : Nat) (f : Frame) : Memory :=
  memWrite m (addr + 2 * i) [f.l, f.r]

/-- `PcmFrameWrite` of frames `i`, `i + 1`, … in order (R224). -/
def writeFrames (m : Memory) (addr : Nat) : Nat → List Frame → Memory
  | _, [] => m
  | i, f :: fs => writeFrames (writeFrame m addr i f) addr (i + 1) fs

/-! ### The register file -/

/-- The parameter register at index `k`; 0 at an index that holds none (R40, R41). -/
def Params.get (p : Params) (k : Nat) : Word :=
  match k with
  | 0x00 => p.enabled
  | 0x01 => p.sliceLength
  | 0x02 => p.repeatCount
  | 0x03 => p.wetMix
  | 0x04 => p.pitchShift
  | 0x05 => p.reverse
  | 0x06 => p.stutterEnabled
  | 0x07 => p.stutterLength
  | 0x08 => p.windowShape
  | 0x09 => p.loopStart
  | 0x0A => p.loopSizeDecay
  | 0x0B => p.probability
  | 0x0C => p.clockDivider
  | 0x0D => p.pitchMode
  | 0x0E => p.freeze
  | _ => 0

/-- The registers with `v` at index `k`; unchanged at an index that holds no parameter (R40, R152). -/
def Params.set (p : Params) (k : Nat) (v : Word) : Params :=
  match k with
  | 0x00 => { p with enabled := v }
  | 0x01 => { p with sliceLength := v }
  | 0x02 => { p with repeatCount := v }
  | 0x03 => { p with wetMix := v }
  | 0x04 => { p with pitchShift := v }
  | 0x05 => { p with reverse := v }
  | 0x06 => { p with stutterEnabled := v }
  | 0x07 => { p with stutterLength := v }
  | 0x08 => { p with windowShape := v }
  | 0x09 => { p with loopStart := v }
  | 0x0A => { p with loopSizeDecay := v }
  | 0x0B => { p with probability := v }
  | 0x0C => { p with clockDivider := v }
  | 0x0D => { p with pitchMode := v }
  | 0x0E => { p with freeze := v }
  | _ => p

/-- What a read of `REG[k]` answers: a stored parameter, a status view of the ring (R43), or 0 at a
reserved index (R40, R153). -/
def regRead (c : Config) (p : Params) (r : Ring) (k : Nat) : Word :=
  match k with
  | 0x10 => r.fc
  | 0x11 => BitVec.ofNat 32 (c.cap - r.fc.toNat)
  | 0x12 => r.underrun
  | 0x13 => r.overrun
  | k => p.get k

/-! ### Error events -/

/-- The trace label of R300; stored nowhere in the block. -/
def ErrorEvent.code : ErrorEvent → Nat
  | .overrun _ => 1
  | .underrun _ => 2
  | .invalidParameter => 3
  | .channelMismatch => 4

/-- A `uint32` counter that saturates at `2^32 − 1` (R229). -/
def satAdd (counter : Word) (n : Nat) : Word :=
  BitVec.ofNat 32 (min (counter.toNat + n) (2 ^ 32 - 1))

/-- `raise <Event>(info)`: exactly the "recorded" column of R300. No event transfers control (R305). -/
def Ring.raise (r : Ring) : ErrorEvent → Ring
  | .overrun n => { r with overrun := satAdd r.overrun n }
  | .underrun n => { r with underrun := satAdd r.underrun n }
  | .invalidParameter => r
  | .channelMismatch => r

/-- `raise` on the machine: the two counters are the ring's. -/
def State.raise (s : State) (e : ErrorEvent) : State :=
  { s with ring := s.ring.raise e }

/-! ### The ring -/

/-- The slot after `k`, modulo `CAP` (R222, R226). -/
def nextSlot (cap : Nat) (k : Word) : Word :=
  BitVec.ofNat 32 ((k.toNat + 1) % cap)

/-- The enqueue step (R222); `none` when the ring is full, and then nothing changes. -/
def Ring.enqueue (cap : Nat) (r : Ring) (fr : Frame) : Option Ring :=
  if r.fc.toNat = cap then none
  else some { r with
    slots := Cells.write Frame.silence r.slots r.wi.toNat fr
    wi := nextSlot cap r.wi
    fc := BitVec.ofNat 32 (r.fc.toNat + 1) }

/-- The dequeue-or-silence step (R226, R227). -/
def Ring.dequeue (cap : Nat) (r : Ring) : Ring × Frame :=
  if 0 < r.fc.toNat then
    ({ r with ri := nextSlot cap r.ri, fc := BitVec.ofNat 32 (r.fc.toNat - 1) },
      Cells.read Frame.silence r.slots r.ri.toNat)
  else (r.raise (.underrun 1), Frame.silence)

/-- `consume_into(n)` (R225): exactly `n` frames. -/
def Ring.consume (cap : Nat) : Nat → Ring → Ring × List Frame
  | 0, r => (r, [])
  | n + 1, r =>
    let (r1, f) := r.dequeue cap
    let (r2, fs) := Ring.consume cap n r1
    (r2, f :: fs)

/-- `clear()` (R230): the counters stay (R229). -/
def Ring.clear (r : Ring) : Ring :=
  { r with slots := [], wi := 0, ri := 0, fc := 0 }

/-! ### The output driver -/

/-- `pack((l, r))`: left in bits 31:16, right in bits 15:0 (R65, R123). -/
def pack (f : Frame) : Word := f.l ++ f.r

/-- `unpack(w)`, the inverse, for the reader of the output stream (R124). -/
def unpack (w : Word) : Frame := ⟨w.extractLsb' 16 16, w.extractLsb' 0 16⟩

/-- `dbuf[b]` (R30). -/
def Driver.buf (d : Driver) (b : Fin 2) : List Word :=
  if b = 0 then d.dbuf0 else d.dbuf1

/-- The driver with all words of `dbuf[b]` written. -/
def Driver.setBuf (d : Driver) (b : Fin 2) (ws : List Word) : Driver :=
  if b = 0 then { d with dbuf0 := ws } else { d with dbuf1 := ws }

/-- `fill(b)` (R251): `NBUF` slots of the ring, packed, replace the whole of `dbuf[b]`. -/
def State.fill (s : State) (b : Fin 2) : State :=
  { s with
    ring := (s.ring.consume s.cfg.cap s.cfg.nbuf).1
    driver := s.driver.setBuf b ((s.ring.consume s.cfg.cap s.cfg.nbuf).2.map pack) }

/-- `start()` (R252, R253, R254): a no-op while Running. -/
def State.startDriver (s : State) : State :=
  if s.driver.running then s
  else
    let filled := (s.fill 0).fill 1
    { filled with driver := filled.driver.begin }

/-- `stop()` (R255): a no-op while Stopped. -/
def State.stopDriver (s : State) : State :=
  if s.driver.running then { s with driver := s.driver.halt } else s

/-- `on_transfer_complete()` (R257, R258): hand over the other buffer, then refill the one that finished.
While Stopped it changes nothing (R259). -/
def State.transferComplete (s : State) : State :=
  if s.driver.running then
    ({ s with driver := s.driver.swap }).fill s.driver.active
  else s

/-- The DMA step (R262): emit the next word of the active buffer (R265). -/
def State.dmaStep (s : State) : State :=
  { s with
    out := s.out ++ [(s.driver.buf s.driver.active).getD s.driver.dmaPos.toNat 0]
    driver := s.driver.advance s.cfg.nbuf }

/-! ### The interrupt -/

/-- Return from the handler: FG goes on from where it was; nothing is restored (R316). -/
def State.interruptReturn (s : State) : State := s

/-- The interrupt is taken: the one handler runs as one atomic step and returns. Nothing is saved: FG's
sequencing state stays as it is (R312, R315). -/
def State.takeInterrupt (s : State) : State := s.transferComplete.interruptReturn

/-! ### Reset and HOST -/

/-- Hardware reset (R341): every state word of the block takes its reset value, the context is FG with no
command in progress, the output stream is empty. The configuration, the PCM memory and what is to come
from outside are not the block's. -/
def State.hardwareReset (s : State) : State :=
  State.resetWith s.cfg s.pcm s.host s.sched s.tick

/-- HOST's next action (log entry 4). -/
def State.hostStep (s : State) : State :=
  match s.host with
  | [] => s
  | .word w :: rest => { s with host := rest, port := s.port ++ [w] }
  | .pcmWrite addr v :: rest => { s with host := rest, pcm := s.pcm.writeSample addr.toNat v }
  | .reset :: rest => State.hardwareReset { s with host := rest }

end Sys2Proof.Machine
end

