-- ==== Sys2Proof/Machine/SampleMath.lean ====
section
/-! DEFINITION. The sample types and mixing primitives (40_sample_math.md). Arithmetic is exact on
integers (R12, R131); a result that becomes a sample is in range by its rule or is clipped. -/

namespace Sys2Proof.Machine

/-- `clip16(v)` (R121). -/
def clip16 (v : Int) : Sample :=
  BitVec.ofInt 16 (if v < -32768 then -32768 else if 32767 < v then 32767 else v)

/-- `sadd16(a, b)` (R122); no command calls it. -/
def sadd16 (a b : Sample) : Sample := clip16 (a.toInt + b.toInt)

/-- `lerp16(a, b, f)` (R125): the shift is a floor; the result lies between `a` and `b`. -/
def lerp16 (a b : Sample) (f : Nat) : Sample :=
  BitVec.ofInt 16 (a.toInt + (b.toInt - a.toInt) * (f : Int) / 65536)

/-- `gain16(w, g)` (R126): the shift is a floor; the result is no larger than `w`. -/
def gain16 (w : Sample) (g : Nat) : Sample :=
  BitVec.ofInt 16 (w.toInt * (g : Int) / 65536)

/-- `divT(x, y)`, truncated toward zero (R12, R133). -/
def divT (x y : Int) : Int := x.tdiv y

/-- `mixpct(d, w, m)` (R127). -/
def mixpct (d w : Sample) (m : Nat) : Sample :=
  clip16 (divT (d.toInt * (100 - (m : Int)) + w.toInt * (m : Int)) 100)

/-- `lerp16` lane by lane (R120, R125). -/
def lerpFrame (a b : Frame) (f : Nat) : Frame := ⟨lerp16 a.l b.l f, lerp16 a.r b.r f⟩

/-- `gain16` lane by lane (R120, R191). -/
def gainFrame (w : Frame) (g : Nat) : Frame := ⟨gain16 w.l g, gain16 w.r g⟩

/-- `mixpct` lane by lane (R120, R192). -/
def mixFrame (d w : Frame) (m : Nat) : Frame := ⟨mixpct d.l w.l m, mixpct d.r w.r m⟩

/-- `env_gain(rp, loop_len, shape)` (R128). -/
def envGain (rp loopLen shape : Nat) : Nat :=
  let fade := loopLen * shape / 2 ^ 17
  let span := loopLen * 65536
  if fade = 0 then 65536
  else if rp < fade * 65536 then rp / fade
  else if span - fade * 65536 ≤ rp then (span - rp) / fade
  else 65536

/-- The quarter-wave table `QS` (R129). -/
def quarterSine : List Nat :=
  [0, 804, 1608, 2410, 3212, 4011, 4808, 5602] ++
  [6393, 7179, 7962, 8739, 9512, 10278, 11039, 11793] ++
  [12539, 13279, 14010, 14732, 15446, 16151, 16846, 17530] ++
  [18204, 18868, 19519, 20159, 20787, 21403, 22005, 22594] ++
  [23170, 23731, 24279, 24811, 25329, 25832, 26319, 26790] ++
  [27245, 27683, 28105, 28510, 28898, 29268, 29621, 29956] ++
  [30273, 30571, 30852, 31113, 31356, 31580, 31785, 31971] ++
  [32137, 32285, 32412, 32521, 32609, 32678, 32728, 32757] ++
  [32767]

/-- `QS[k]`. -/
def quarterSineAt (k : Nat) : Int := ((quarterSine.getD k 0 : Nat) : Int)

/-- `sinq15(ph)` (R129): the quadrant and the place in it are bits 15:14 and 13:8 of the phase. -/
def sinq15 (ph : Nat) : Int :=
  let idx := ph / 256
  let q := idx / 64
  let j := idx % 64
  if q = 0 then quarterSineAt j
  else if q = 1 then quarterSineAt (64 - j)
  else if q = 2 then - quarterSineAt j
  else - quarterSineAt (64 - j)

/-- `lcg_next(s)` (R130). -/
def lcgNext (c : Config) (s : Word) : Word :=
  BitVec.ofNat 32 ((s.toNat * c.lcgA + c.lcgC) % 2 ^ 32)

end Sys2Proof.Machine
end

