-- ==== Sys2Proof/Machine/EffectEngine.lean ====
section
/-! DEFINITION. The beat-repeat effect engine, frame by frame (42_effect_process.md R181 to R194), and the
loop over a block that `BR.PROC` and phase 1 of `PCM.BLOCK` share (R180, R280). -/

namespace Sys2Proof.Machine

/-- `active_slice_length()` (R182). -/
def activeSliceLength (p : Params) : Nat :=
  max 1 ((if p.stutterOn then p.stutterLength.toNat else p.sliceLength.toNat) / p.clockDivider.toNat)

/-- The loop window: first slice position and length in frames. -/
structure Window where
  off : Nat
  len : Nat
deriving DecidableEq, Repr

/-- `loop_window(asl)` (R186), at the pass count `rc`. -/
def loopWindow (p : Params) (rc asl : Nat) : Window :=
  let off := min (asl * p.loopStart.toNat / 65536) (asl - 1)
  let baseLen := asl - off
  let dec := min (rc * p.loopSizeDecay.toNat) 65536
  let lin := baseLen - baseLen * dec / 65536
  ⟨off, max lin (max 1 (baseLen / 10))⟩

/-- Where a frame reads the window: two positions and the fraction between them. -/
structure ReadPos where
  i0 : Nat
  i1 : Nat
  f : Nat
deriving DecidableEq, Repr

/-- `read_indices(rp, loop_len)` (R188). -/
def readIndices (p : Params) (rp len : Nat) : ReadPos :=
  let span := len * 65536
  let pos := if p.reverseOn then (2 * span - 65536 - rp) % span else rp
  ⟨pos / 65536, (pos / 65536 + 1) % len, pos % 65536⟩

/-- `pitch_step(rp, loop_len)` (R189), with the phase it reads in SCRATCH mode. Modes 0 FIXED, 1 RAMP_UP,
2 RAMP_DOWN, 3 SCRATCH (R41). -/
def pitchStep (p : Params) (phase rp len : Nat) : Int :=
  let t16 : Int := ((rp / len : Nat) : Int)
  let shift : Int := (p.pitchShift.toNat : Int)
  match p.pitchMode.toNat with
  | 0 => shift
  | 1 => 65536 + (shift - 65536) * t16 / 65536
  | 2 => shift + (65536 - shift) * t16 / 65536
  | _ => shift + shift * sinq15 phase / 65536

/-- The wet frame (R190): the engine's only reads of `cap`. -/
def wetFrame (cap : Cells Frame) (w : Window) (at_ : ReadPos) : Frame :=
  lerpFrame (Cells.read Frame.silence cap (w.off + at_.i0))
    (Cells.read Frame.silence cap (w.off + at_.i1)) at_.f

/-- Advance and loop end (R193): `rp1` is the position after the advance. -/
def Effect.advance (p : Params) (e : Effect) (span rp1 : Nat) : Effect :=
  if rp1 < span then { e with rp := BitVec.ofNat 32 rp1 }
  else if p.freezeOn then { e with rp := 0 }
  else if p.repeatCount.toNat ≤ e.rc.toNat + 1 then
    { e with rc := BitVec.ofNat 32 (e.rc.toNat + 1), rep := false, rp := BitVec.ofNat 32 rp1 }
  else { e with rc := BitVec.ofNat 32 (e.rc.toNat + 1), rp := 0 }

/-- `rp` as a frame uses it: a position outside the window restarts it, without counting a pass (R187). -/
def revalidated (rp span : Nat) : Nat := if span ≤ rp then 0 else rp

/-- `playback(dry, asl)`, the frame of a repeat (R186 to R193). -/
def Effect.playback (c : Config) (p : Params) (e : Effect) (asl : Nat) (dry : Frame) : Effect × Frame :=
  let w := loopWindow p e.rc.toNat asl
  let span := w.len * 65536
  let rp := revalidated e.rp.toNat span
  let step := pitchStep p e.phase.toNat rp w.len
  let wet := wetFrame e.cap w (readIndices p rp w.len)
  let g := envGain rp w.len p.windowShape.toNat
  let e1 := { e with phase := BitVec.ofNat 32 ((e.phase.toNat + c.scratchInc) % 65536) }
  (e1.advance p span ((rp : Int) + step).toNat,
    mixFrame dry (gainFrame wet g) p.wetMix.toNat)

/-- The gate succeeds on the number just drawn (R184). -/
def gateOpens (p : Params) (prng : Word) : Bool :=
  decide (prng.toNat / 65536 < p.probability.toNat)

/-- The gate (R184) and, on success, the trigger (R185). One draw, whatever the outcome. -/
def Effect.gate (c : Config) (p : Params) (e : Effect) : Effect :=
  let drawn := lcgNext c e.prng
  if gateOpens p drawn then
    { e with prng := drawn, rep := true, rp := 0, rc := 0, phase := 0 }
  else { e with prng := drawn }

/-- Capture and slice clock (R181, R183): the store is made only in a frame that began not repeating, the
clock runs in every frame, and the gate is evaluated at a slice boundary if the frame began not repeating
and the effect is not frozen. -/
def Effect.clock (c : Config) (p : Params) (e : Effect) (asl : Nat) (dry : Frame) : Effect :=
  let e1 := if e.rep then e
    else { e with cap := Cells.write Frame.silence e.cap e.wp.toNat dry }
  let wp1 := e.wp.toNat + 1
  if asl ≤ wp1 then
    let e2 := { e1 with wp := 0 }
    if !e.rep && !p.freezeOn then e2.gate c p else e2
  else { e1 with wp := BitVec.ofNat 32 wp1 }

/-- `frame_step(dry)` (R181): the output is chosen by the value `rep` had when the frame began. -/
def frameStep (c : Config) (p : Params) (e : Effect) (dry : Frame) : Effect × Frame :=
  let asl := activeSliceLength p
  let e1 := e.clock c p asl dry
  if e.rep then e1.playback c p asl dry else (e1, dry)

/-- Frames `i .. i + n − 1` of the block at `addr`, each read, stepped and written back in place (R180). -/
def processFrames (c : Config) (p : Params) (addr : Nat) : Nat → Nat → Effect → Memory → Effect × Memory
  | 0, _, e, m => (e, m)
  | n + 1, i, e, m =>
    let (e1, out) := frameStep c p e (readFrame m addr i)
    processFrames c p addr n (i + 1) e1 (writeFrame m addr i out)

/-- `process(block, frame_count, channel_count)` (R180): bypassed when disabled or not stereo (R195); a
channel mismatch is an event that records nothing (R304). -/
def State.process (s : State) (ch : Byte) (addr count : Word) : State :=
  if ch ≠ 2 then s.raise .channelMismatch
  else if s.params.enabledOn then
    let (e, m) := processFrames s.cfg s.params addr.toNat count.toNat 0 s.effect s.pcm
    { s with effect := e, pcm := m }
  else s

end Sys2Proof.Machine
end

