-- ==== Sys2Proof/Machine/Effect.lean ====
section
/-! DEFINITION. `BR.RESET` (41_effect_params.md R156) and `BR.PROC` (42_effect_process.md R180). -/

namespace Sys2Proof.Machine

/-- `BR.RESET` (R156): the effect state at its reset values, the parameters kept. -/
def execBrReset (s : State) : Host.Outcome State Fault Refusal :=
  .next { s with effect := Effect.reset s.cfg }

/-- `BR.PROC ch, addr, count` (R180): one atomic step; a span past the top is refused (R66). -/
def execBrProc (ch : Byte) (addr count : Word) (s : State) : Host.Outcome State Fault Refusal :=
  if spanFits addr count then .next (s.process ch addr count) else .refused .spanPastTop

end Sys2Proof.Machine
end

