-- ==== Sys2Proof/Machine/Output.lean ====
section
/-! DEFINITION. `OUT.START`, `OUT.STOP` and `OUT.XFER` (44_dma_output.md R252, R255, R257). -/

namespace Sys2Proof.Machine

/-- `OUT.START` (R252, R253). -/
def execOutStart (s : State) : Host.Outcome State Fault Refusal := .next s.startDriver

/-- `OUT.STOP` (R255). -/
def execOutStop (s : State) : Host.Outcome State Fault Refusal := .next s.stopDriver

/-- `OUT.XFER` issued by HOST (R257, R259, R359); ISR performs the same operation (R315). -/
def execOutXfer (s : State) : Host.Outcome State Fault Refusal := .next s.transferComplete

end Sys2Proof.Machine
end

