-- ==== Sys2Proof/Syntax.lean ====
section
/-! DEFINITION. The twelve commands of the command port (30_encoding.md R92, R93, R94). -/

namespace Sys2Proof

/-- One command, one constructor per row of the opcode map (R94). Operands are taken whole (R93). -/
inductive Instr where
  /-- `NOP`, format Z (R285); every reserved opcode is this command too (R95) -/
  | nop
  /-- `BR.RESET`, format Z (R156) -/
  | brReset
  /-- `REG.WR idx, data`, format W (R152) -/
  | regWr (idx : Byte) (data : Word)
  /-- `REG.RD idx`, format R (R153) -/
  | regRd (idx : Byte)
  /-- `BR.PROC ch, addr, count`, format P (R180) -/
  | brProc (ch : Byte) (addr count : Word)
  /-- `RB.WRITE addr, count`, format B (R221) -/
  | rbWrite (addr count : Word)
  /-- `RB.CONS addr, count`, format B (R224) -/
  | rbCons (addr count : Word)
  /-- `RB.CLEAR`, format Z (R230) -/
  | rbClear
  /-- `OUT.START`, format Z (R252) -/
  | outStart
  /-- `OUT.STOP`, format Z (R255) -/
  | outStop
  /-- `OUT.XFER`, format Z (R257) -/
  | outXfer
  /-- `PCM.BLOCK ch, addr, count, rate`, format Q (R280) -/
  | pcmBlock (ch : Byte) (addr count rate : Word)
deriving DecidableEq, Repr

/-- The mnemonics of R94. -/
def Instr.mnemonic : Instr → String
  | .nop => "NOP"
  | .brReset => "BR.RESET"
  | .regWr _ _ => "REG.WR"
  | .regRd _ => "REG.RD"
  | .brProc _ _ _ => "BR.PROC"
  | .rbWrite _ _ => "RB.WRITE"
  | .rbCons _ _ => "RB.CONS"
  | .rbClear => "RB.CLEAR"
  | .outStart => "OUT.START"
  | .outStop => "OUT.STOP"
  | .outXfer => "OUT.XFER"
  | .pcmBlock _ _ _ _ => "PCM.BLOCK"

/-- Operand words after the header, by the command's format (R92). -/
def Instr.operandWords : Instr → Nat
  | .nop | .brReset | .regRd _ | .rbClear | .outStart | .outStop | .outXfer => 0
  | .regWr _ _ => 1
  | .brProc _ _ _ | .rbWrite _ _ | .rbCons _ _ => 2
  | .pcmBlock _ _ _ _ => 3

end Sys2Proof
end

