-- ==== Sys2Proof/WellFormed.lean ====
section
/-! DEFINITION. Well-formed commands. No operand value makes a command illegal but one: a PCM span that
passes the top of the address space (30_encoding.md R96, 20_memory.md R66, U10). -/

namespace Sys2Proof

/-- R66, R96: the four commands with a PCM span need `addr + 2·count ≤ 2^32`. -/
def Instr.wellFormed : Instr → Bool
  | .nop => true
  | .brReset => true
  | .regWr _ _ => true
  | .regRd _ => true
  | .brProc _ addr count => Machine.spanFits addr count
  | .rbWrite addr count => Machine.spanFits addr count
  | .rbCons addr count => Machine.spanFits addr count
  | .rbClear => true
  | .outStart => true
  | .outStop => true
  | .outXfer => true
  | .pcmBlock _ addr count _ => Machine.spanFits addr count

end Sys2Proof
end

