-- ==== Sys2Proof/Decode.lean ====
section
/-! DEFINITION. Decoding and encoding of command words (30_encoding.md R90 to R97). The port moves whole
32-bit words, so no byte order enters (R63). -/

namespace Sys2Proof

/-- Why the words on the port are not yet a command (R90). Neither is an error of HOST's: FG waits. -/
inductive DecodeError where
  /-- there is no header word -/
  | noHeader
  /-- the header's format takes more operand words than have been presented -/
  | missingOperands (opc : Byte)
deriving DecidableEq, Repr

/-- The decoder's answer: a command and the words after it, or a rejection by name. -/
inductive Decoded where
  | command (i : Instr) (rest : List Word)
  | rejected (why : DecodeError)
deriving DecidableEq, Repr

/-- `OPC`, header bits 31:24 (R91). -/
def opcodeOf (header : Word) : Byte := header.extractLsb' 24 8

/-- `IMM8`, header bits 7:0 (R91). `RSV`, bits 23:8, is read by nothing (R96). -/
def immOf (header : Word) : Byte := header.extractLsb' 0 8

/-- The opcode map (R94) with the operands of each format (R92, R93). Every opcode that is not in the map
is a one-word command that behaves as `NOP` (R95), and is decoded as `nop` (log entry 3). -/
def decode : List Word → Decoded
  | [] => .rejected .noHeader
  | h :: ws =>
    match (opcodeOf h).toNat with
    | 0x00 => .command .nop ws
    | 0x01 => .command .brReset ws
    | 0x02 =>
      match ws with
      | data :: rest => .command (.regWr (immOf h) data) rest
      | _ => .rejected (.missingOperands (opcodeOf h))
    | 0x03 => .command (.regRd (immOf h)) ws
    | 0x04 =>
      match ws with
      | addr :: count :: rest => .command (.brProc (immOf h) addr count) rest
      | _ => .rejected (.missingOperands (opcodeOf h))
    | 0x10 =>
      match ws with
      | addr :: count :: rest => .command (.rbWrite addr count) rest
      | _ => .rejected (.missingOperands (opcodeOf h))
    | 0x11 =>
      match ws with
      | addr :: count :: rest => .command (.rbCons addr count) rest
      | _ => .rejected (.missingOperands (opcodeOf h))
    | 0x12 => .command .rbClear ws
    | 0x20 => .command .outStart ws
    | 0x21 => .command .outStop ws
    | 0x22 => .command .outXfer ws
    | 0x30 =>
      match ws with
      | addr :: count :: rate :: rest => .command (.pcmBlock (immOf h) addr count rate) rest
      | _ => .rejected (.missingOperands (opcodeOf h))
    | _ => .command .nop ws

/-- A header word as an assembler writes it: `RSV` is 0 (R91). -/
def headerWord (opc imm : Byte) : Word := opc ++ (0 : BitVec 16) ++ imm

/-- The words of a command (R91 to R94, R98); an ignored `IMM8` is written 0. -/
def encode : Instr → List Word
  | .nop => [headerWord 0x00 0]
  | .brReset => [headerWord 0x01 0]
  | .regWr idx data => [headerWord 0x02 idx, data]
  | .regRd idx => [headerWord 0x03 idx]
  | .brProc ch addr count => [headerWord 0x04 ch, addr, count]
  | .rbWrite addr count => [headerWord 0x10 0, addr, count]
  | .rbCons addr count => [headerWord 0x11 0, addr, count]
  | .rbClear => [headerWord 0x12 0]
  | .outStart => [headerWord 0x20 0]
  | .outStop => [headerWord 0x21 0]
  | .outXfer => [headerWord 0x22 0]
  | .pcmBlock ch addr count rate => [headerWord 0x30 ch, addr, count, rate]

/-- The words of a table row's bits `w`, the first word being bits 31:0; bits at and above `nbits` are 0. -/
def tableWords (nbits w : Nat) : List Word :=
  [0, 1, 2, 3].map fun k => BitVec.ofNat 32 ((w % 2 ^ nbits) / 2 ^ (32 * k))

/-- The command the decoder reads from a table row's bits. -/
def decodeTableWord (nbits w : Nat) : Option Instr :=
  match decode (tableWords nbits w) with
  | .command i _ => some i
  | .rejected _ => none

/-- The words of a table row that the decoder takes: the header and its format's operands (R90). -/
def commandWords (nbits w : Nat) : List Word :=
  match decodeTableWord nbits w with
  | some i => (tableWords nbits w).take (1 + i.operandWords)
  | none => tableWords nbits w

end Sys2Proof
end

