-- ==== Sys2Proof/Machine/Foreground.lean ====
section
/-! DEFINITION. Who steps next (20_memory.md R75, 60_exceptions.md R313 to R317) and FG's sequencing inside
the two commands that other agents may step into (10_state.md R25, 43_ring_buffer.md R221). -/

namespace Sys2Proof.Machine

/-! ### Turns -/

/-- FG has an enabled step: a command is in progress, or a whole command is on the port (R90). -/
def State.fgReady (s : State) : Bool :=
  match s.fg with
  | .idle =>
    match decode s.port with
    | .command _ _ => true
    | .rejected _ => false
  | _ => true

/-- HOST acts while FG has nothing to do: its calls run to completion (R20, R81, log entry 4). -/
def State.hostReady (s : State) : Bool :=
  !s.fgReady && !s.host.isEmpty

/-- `agent` has an enabled step: ISR when the completion is pending (R315), DMA as R262 says. -/
def State.ready (s : State) : Agent → Bool
  | .host => s.hostReady
  | .fg => s.fgReady
  | .isr => s.driver.irqPending
  | .dma => s.driver.canEmit s.cfg.nbuf

/-- The agents with an enabled step. -/
def State.readyAgents (s : State) : List Agent :=
  [Agent.host, Agent.fg, Agent.isr, Agent.dma].filter s.ready

/-- More than one agent could step: the turn is contested. -/
def State.contested (s : State) : Bool :=
  decide (2 ≤ s.readyAgents.length)

/-- The free schedule's choice among the enabled agents (R75, U14, log entry 2). -/
def State.freeTurn (s : State) : Option Agent :=
  s.readyAgents[Config.schedule s.tick % s.readyAgents.length]?

/-- Which agent steps: the only enabled one; at a contested turn the listed one if it is enabled, else the
free schedule's; none when no agent has an enabled step (R327). -/
def State.turn (s : State) : Option Agent :=
  if s.contested then
    match s.sched with
    | a :: _ => if s.ready a then some a else s.freeTurn
    | [] => s.freeTurn
  else s.readyAgents.head?

/-- A contested turn uses up one listed turn and one tick of the free schedule. -/
def State.spendTurn (s : State) : State :=
  { s with
    sched := if s.contested then s.sched.tail else s.sched
    tick := if s.contested then s.tick + 1 else s.tick }

/-! ### The write phase -/

/-- The sequencing state before frame `i`: another enqueue step, or the accounting step when the block has
been offered whole. -/
def writeAt (owner : WriteOwner) (addr count : Word) (i n : Nat) : FgState :=
  if i < count.toNat then .writing owner addr count i n else .accounting owner count n

/-- The command at the start of its write phase. -/
def State.beginWrite (s : State) (owner : WriteOwner) (addr count : Word) : State :=
  { s with fg := writeAt owner addr count 0 0 }

/-- One enqueue step (R222): at the first refused frame the loop ends (R221). -/
def State.enqueueStep (s : State) (owner : WriteOwner) (addr count : Word) (i n : Nat) : State :=
  match s.ring.enqueue s.cfg.cap (readFrame s.pcm addr.toNat i) with
  | some r => { s with ring := r, fg := writeAt owner addr count (i + 1) (n + 1) }
  | none => { s with fg := .accounting owner count n }

/-- The accounting step (R221, R223): the dropped frames are an overrun event; `RES` is the number kept. -/
def State.accountStep (s : State) (owner : WriteOwner) (count : Word) (n : Nat) : State :=
  let s1 := s.raise (.overrun (count.toNat - n))
  { s1 with
    res := BitVec.ofNat 32 n
    fg := match owner with
      | .rbWrite => .idle
      | .pcmBlock => .autoStart }

/-- The auto-start test (R280 phase 3, R282): test and start are one step. -/
def State.autoStartStep (s : State) : State :=
  let s1 := if !s.driver.running && decide (s.cfg.startThreshold ≤ s.ring.fc.toNat)
    then s.startDriver else s
  { s1 with fg := .idle }

/-- FG's next atomic step inside a command in progress. -/
def State.fgStep (s : State) : State :=
  match s.fg with
  | .idle => s
  | .writing owner addr count i n => s.enqueueStep owner addr count i n
  | .accounting owner count n => s.accountStep owner count n
  | .autoStart => s.autoStartStep

/-- A bound on the atomic steps the command in progress still takes. -/
def FgState.stepsLeft : FgState → Nat
  | .idle => 0
  | .writing _ _ count i _ => (count.toNat - i) + 3
  | .accounting _ _ _ => 2
  | .autoStart => 1

/-- FG goes on inside its command, atomic step by atomic step, until the command completes or another agent
takes the turn between two of them (R75, R315); then the command waits in `fg` as it is (R25). -/
def State.fgContinue : Nat → State → State
  | 0, s => s
  | k + 1, s =>
    if s.fg = .idle then s
    else if s.turn = some .fg then State.fgContinue k s.spendTurn.fgStep
    else s

/-- FG, holding the turn, performs one atomic step and goes on. -/
def State.fgRun (s : State) : State :=
  State.fgContinue s.fg.stepsLeft s.fgStep

end Sys2Proof.Machine
end

