-- ==== Sys2Proof/Machine/PcmPath.lean ====
section
/-! DEFINITION. `NOP` and `PCM.BLOCK` (45_pcm_path.md R285, R280). -/

namespace Sys2Proof.Machine

/-- `NOP` (R285), and every reserved opcode (R95): nothing changes. -/
def execNop (s : State) : Host.Outcome State Fault Refusal := .next s

/-- `PCM.BLOCK ch, addr, count, rate` (R280): the effect in place, then the ring write and the auto-start
test as atomic steps that other agents may step between (R75); `rate` is ignored (R283); a span past the
top is refused (R66). -/
def execPcmBlock (ch : Byte) (addr count _rate : Word) (s : State) : Host.Outcome State Fault Refusal :=
  if spanFits addr count then
    let s1 := (s.process ch addr count).beginWrite .pcmBlock addr count
    .next (State.fgContinue s1.fg.stepsLeft s1)
  else .refused .spanPastTop

end Sys2Proof.Machine
end

