-- ==== Sys2Proof/Machine/Registers.lean ====
section
/-! DEFINITION. `REG.WR` and `REG.RD` (41_effect_params.md R152, R153). -/

namespace Sys2Proof.Machine

/-- `REG.WR idx, data` (R152): a parameter register takes the legal value (R41), an altered value being an
event that records nothing (R303); status and reserved indices ignore the write (R40, R43). -/
def execRegWr (idx : Byte) (data : Word) (s : State) : Host.Outcome State Fault Refusal :=
  if idx.toNat ≤ 0x0E then
    let v := legalValue s.cfg idx.toNat data
    let s1 := if v = data then s else s.raise .invalidParameter
    .next { s1 with params := s1.params.set idx.toNat v }
  else .next s

/-- `REG.RD idx` (R153): `RES` takes the value read; nothing else changes. -/
def execRegRd (idx : Byte) (s : State) : Host.Outcome State Fault Refusal :=
  .next { s with res := regRead s.cfg s.params s.ring idx.toNat }

end Sys2Proof.Machine
end

