-- ==== Sys2Proof/Machine/RingBuffer.lean ====
section
/-! DEFINITION. `RB.WRITE`, `RB.CONS` and `RB.CLEAR` (43_ring_buffer.md R221, R224, R230). -/

namespace Sys2Proof.Machine

/-- `RB.WRITE addr, count` (R221): enqueue steps and an accounting step, with other agents free to step
between them (R75); a span past the top is refused (R66). -/
def execRbWrite (addr count : Word) (s : State) : Host.Outcome State Fault Refusal :=
  if spanFits addr count then .next (s.beginWrite .rbWrite addr count).fgRun
  else .refused .spanPastTop

/-- `RB.CONS addr, count` (R224): one atomic step; the destination always receives `count` frames. -/
def execRbCons (addr count : Word) (s : State) : Host.Outcome State Fault Refusal :=
  if spanFits addr count then
    .next { s with
      ring := (s.ring.consume s.cfg.cap count.toNat).1
      pcm := writeFrames s.pcm addr.toNat 0 (s.ring.consume s.cfg.cap count.toNat).2 }
  else .refused .spanPastTop

/-- `RB.CLEAR` (R230). -/
def execRbClear (s : State) : Host.Outcome State Fault Refusal :=
  .next { s with ring := s.ring.clear }

end Sys2Proof.Machine
end

