-- ==== Sys2Proof/Machine/Dispatch.lean ====
section
/-! DEFINITION. The meaning of every command, one arm per constructor. -/

namespace Sys2Proof.Machine

def exec (i : Instr) (s : State) : Host.Outcome State Fault Refusal :=
  match i with
  | .nop => Sys2Proof.Machine.execNop s
  | .brReset => Sys2Proof.Machine.execBrReset s
  | .regWr idx data => Sys2Proof.Machine.execRegWr idx data s
  | .regRd idx => Sys2Proof.Machine.execRegRd idx s
  | .brProc ch addr count => Sys2Proof.Machine.execBrProc ch addr count s
  | .rbWrite addr count => Sys2Proof.Machine.execRbWrite addr count s
  | .rbCons addr count => Sys2Proof.Machine.execRbCons addr count s
  | .rbClear => Sys2Proof.Machine.execRbClear s
  | .outStart => Sys2Proof.Machine.execOutStart s
  | .outStop => Sys2Proof.Machine.execOutStop s
  | .outXfer => Sys2Proof.Machine.execOutXfer s
  | .pcmBlock ch addr count rate => Sys2Proof.Machine.execPcmBlock ch addr count rate s

end Sys2Proof.Machine
end

