-- ==== Sys2Proof/Machine/Fetch.lean ====
section
/-! DEFINITION. How FG accepts a command from the port (30_encoding.md R90), and what each agent's turn is
(10_state.md R20). -/

namespace Sys2Proof.Machine

/-- `s` with `ws` on the command port. -/
def State.withPort (s : State) (ws : List Word) : State := { s with port := ws }

/-- FG's turn: go on inside the command in progress, or take the next command off the port and perform it.
A port that does not hold a whole command leaves FG waiting (R90, R341). -/
def State.fgTurn (s : State) : Host.Outcome State Fault Refusal :=
  match s.fg with
  | .idle =>
    match decode s.port with
    | .command i rest => exec i (s.withPort rest)
    | .rejected _ => .next s
  | _ => .next s.fgRun

/-- One step of `agent` (R20): FG performs commands, ISR the one handler, DMA emits one word, HOST acts. -/
def State.agentStep (s : State) : Agent → Host.Outcome State Fault Refusal
  | .host => .next s.hostStep
  | .fg => s.fgTurn
  | .isr => .next s.takeInterrupt
  | .dma => .next s.dmaStep

/-- The step of whichever agent has the turn; with no enabled step nothing happens (R327, log entry 7). -/
def State.anyStep (s : State) : Host.Outcome State Fault Refusal :=
  match s.turn with
  | none => .next s
  | some a => s.spendTurn.agentStep a

/-- FG gets the next turn: listed first where another agent could take it. -/
def State.giveTurnToFg (s : State) : State :=
  { s with
    fg := .idle
    sched := if s.driver.irqPending || s.driver.canEmit s.cfg.nbuf then .fg :: s.sched else s.sched }

end Sys2Proof.Machine
end

