-- ==== Sys2Proof/Machine/Step.lean ====
section
/-! DEFINITION. One step of the machine: one agent's step, by the schedule (20_memory.md R75). -/

namespace Sys2Proof.Machine

/-- One step: one atomic step of one agent, or FG's run of atomic steps up to the next turn of another.
A configuration outside the constraints of R8 is refused (U6). -/
def step (s : State) : Host.Outcome State Fault Refusal :=
  if configOk s.cfg then s.anyStep else .refused .badConfiguration

/-- `s` with the command of a table row's bits next on the port and FG's turn next (log entry 4). -/
def State.withFetchWord (s : State) (nbits w : Nat) : State :=
  s.giveTurnToFg.withPort (commandWords nbits w ++ s.port)

end Sys2Proof.Machine
end

