-- ==== Sys2Proof/Machine/Pseudo.lean ====
section
/-! DEFINITION. The assembler forms and register names of 30_encoding.md R98, and the pseudo-commands of R99:
names for sequences of core commands. -/

namespace Sys2Proof.Machine

/-- The operands of a command in the order R98 writes them: the `IMM8` field first, then the operand words. -/
def operandsOf : Instr → List Nat
  | .nop => []
  | .brReset => []
  | .regWr idx data => [idx.toNat, data.toNat]
  | .regRd idx => [idx.toNat]
  | .brProc ch addr count => [ch.toNat, addr.toNat, count.toNat]
  | .rbWrite addr count => [addr.toNat, count.toNat]
  | .rbCons addr count => [addr.toNat, count.toNat]
  | .rbClear => []
  | .outStart => []
  | .outStop => []
  | .outXfer => []
  | .pcmBlock ch addr count rate => [ch.toNat, addr.toNat, count.toNat, rate.toNat]

/-- The assembler line of a command (R98), operands in decimal. -/
def assembly (i : Instr) : String :=
  match operandsOf i with
  | [] => i.mnemonic
  | ops => i.mnemonic ++ " " ++ String.intercalate ", " (ops.map toString)

/-- The name an assembler line may use for a register index (R98; the names of R41 and R43). -/
def registerName : Nat → Option String
  | 0x00 => some "enabled"
  | 0x01 => some "slice_length"
  | 0x02 => some "repeat_count"
  | 0x03 => some "wet_mix"
  | 0x04 => some "pitch_shift"
  | 0x05 => some "reverse"
  | 0x06 => some "stutter_enabled"
  | 0x07 => some "stutter_length"
  | 0x08 => some "window_shape"
  | 0x09 => some "loop_start"
  | 0x0A => some "loop_size_decay"
  | 0x0B => some "probability"
  | 0x0C => some "clock_divider"
  | 0x0D => some "pitch_mode"
  | 0x0E => some "freeze"
  | 0x10 => some "FILLED"
  | 0x11 => some "FREE"
  | 0x12 => some "UNDERRUN"
  | 0x13 => some "OVERRUN"
  | _ => none

/-- The pseudo-commands; the fifteen values of `SETPARAMS` are given as a register snapshot. -/
inductive Pseudo where
  /-- `SETPARAMS v0, …, v14`, `set_params(params)` (R154) -/
  | setParams (v : Params)
  /-- `GETPARAMS`, `get_params()` (R155) -/
  | getParams
  /-- `FILLED`, `filled_count()`, `buffered_frame_count()` (R228) -/
  | filled
  /-- `FREE`, `free_space()` (R228) -/
  | free
  /-- `COUNTS`, `(underrun_count, overrun_count)` -/
  | counts
deriving DecidableEq, Repr

/-- The fifteen parameter indices, in index order. -/
def paramIndices : List Nat := [0, 1, 2, 3, 4, 5, 6, 7, 8, 9, 10, 11, 12, 13, 14]

/-- The expansion column of R99. -/
def Pseudo.expand : Pseudo → List Instr
  | .setParams v => paramIndices.map fun k => .regWr (BitVec.ofNat 8 k) (v.get k)
  | .getParams => paramIndices.map fun k => .regRd (BitVec.ofNat 8 k)
  | .filled => [.regRd 0x10]
  | .free => [.regRd 0x11]
  | .counts => [.regRd 0x12, .regRd 0x13]

/-- The commands one after another, with no step of another agent between them; each state after a command
is listed, for HOST to collect `RES` (R99). A refusal ends the list. -/
def runCommands : List Instr → State → List State
  | [], _ => []
  | i :: is, s =>
    match exec i s with
    | .next t => t :: runCommands is t
    | _ => []

end Sys2Proof.Machine
end

