-- ==== Sys2Proof/Safety.lean ====
section
/-! DEFINITION. What counts as a good state (10_state.md R49, R50, R51, and the legal sets of R41), and the
terms the claims are written in: the unread frames of the ring, the frames of a block, a run of the effect
engine over a list of frames. -/

namespace Sys2Proof.Machine

/-! ### Terms of the claims -/

/-- The unread frames, oldest first (R49). -/
def Ring.unread (cap : Nat) (r : Ring) : List Frame :=
  (List.range r.fc.toNat).map fun k => Cells.read Frame.silence r.slots ((r.ri.toNat + k) % cap)

/-- What `n` slots asked of the consumer are given: the oldest unread frames, then silence (R225). -/
def Ring.served (cap n : Nat) (r : Ring) : List Frame :=
  (r.unread cap).take n ++ List.replicate (n - r.fc.toNat) Frame.silence

/-- The `n` frames of the block at `addr` (R64). -/
def blockFrames (m : Memory) (addr n : Nat) : List Frame :=
  (List.range n).map fun i => readFrame m addr i

/-- The effect engine over a stream of dry frames: its last state and the frames it puts out (R181). -/
def runFrames (c : Config) (p : Params) : Effect → List Frame → Effect × List Frame
  | e, [] => (e, [])
  | e, f :: fs =>
    ((runFrames c p (frameStep c p e f).1 fs).1,
      (frameStep c p e f).2 :: (runFrames c p (frameStep c p e f).1 fs).2)

/-- Byte `b` lies in the block of `n` frames at sample address `addr` (R61, R63). -/
def inBlock (addr n b : Nat) : Prop := 2 * addr ≤ b ∧ b < 2 * (addr + 2 * n)

/-- No agent but FG (and HOST, which waits for FG) has an enabled step, so a command runs undisturbed. -/
def State.quiet (s : State) : Prop :=
  s.driver.irqPending = false ∧ s.driver.canEmit s.cfg.nbuf = false

/-- FG gets the next `k` turns: no other agent has a step, or the listed turns are FG's. -/
def State.fgTurns (s : State) (k : Nat) : Prop :=
  s.quiet ∨ s.sched.take k = List.replicate k .fg

/-! ### What each command may write

The columns of R21, R46 and R100 as functions of the command, for the frame of every command. -/

/-- Commands that may write the parameter registers (R152). -/
def writesParams : Instr → Bool
  | .regWr _ _ => true
  | _ => false

/-- Commands that may write the effect state (R26). -/
def writesEffect : Instr → Bool
  | .brReset | .brProc _ _ _ | .pcmBlock _ _ _ _ => true
  | _ => false

/-- Commands that may write the ring's state (R29, R46, R300). -/
def writesRing : Instr → Bool
  | .rbWrite _ _ | .rbCons _ _ | .rbClear | .outStart | .outXfer | .pcmBlock _ _ _ _ => true
  | _ => false

/-- Commands that may write the driver's state (R30). -/
def writesDriver : Instr → Bool
  | .outStart | .outStop | .outXfer | .pcmBlock _ _ _ _ => true
  | _ => false

/-- Commands that write `RES` (R45, R100). -/
def writesRes : Instr → Bool
  | .regRd _ | .rbWrite _ _ | .pcmBlock _ _ _ _ => true
  | _ => false

/-- Commands that may write the PCM memory (R46). -/
def writesPcm : Instr → Bool
  | .brProc _ _ _ | .rbCons _ _ | .pcmBlock _ _ _ _ => true
  | _ => false

/-- Commands that are more than one atomic step (R75), and so may leave a sequencing state and use up
turns. -/
def preemptible : Instr → Bool
  | .rbWrite _ _ | .pcmBlock _ _ _ _ => true
  | _ => false

/-- The PCM bytes a command may write: those of its block (R46, R81). -/
def mayStore : Instr → Nat → Prop
  | .brProc _ addr count, b => inBlock addr.toNat count.toNat b
  | .rbCons addr count, b => inBlock addr.toNat count.toNat b
  | .pcmBlock _ addr count _, b => inBlock addr.toNat count.toNat b
  | _, _ => False

/-! ### Good states -/

/-- Every parameter register holds a legal value (R41, R151). -/
structure ParamsOk (c : Config) (p : Params) : Prop where
  enabled : p.enabled = 0 ∨ p.enabled = 1
  sliceLength : c.minSlice ≤ p.sliceLength.toNat ∧ p.sliceLength.toNat ≤ c.maxSlice
  repeatCount : 1 ≤ p.repeatCount.toNat ∧ p.repeatCount.toNat ≤ 16
  wetMix : p.wetMix.toNat ≤ 100
  pitchShift : 0x4000 ≤ p.pitchShift.toNat ∧ p.pitchShift.toNat ≤ 0x40000
  reverse : p.reverse = 0 ∨ p.reverse = 1
  stutterEnabled : p.stutterEnabled = 0 ∨ p.stutterEnabled = 1
  stutterLength : c.minSlice ≤ p.stutterLength.toNat ∧ p.stutterLength.toNat ≤ c.maxSlice
  windowShape : p.windowShape.toNat ≤ 65536
  loopStart : p.loopStart.toNat ≤ 65536
  loopSizeDecay : p.loopSizeDecay.toNat ≤ 65536
  probability : p.probability.toNat ≤ 65536
  clockDivider : p.clockDivider = 1 ∨ p.clockDivider = 2 ∨ p.clockDivider = 4 ∨ p.clockDivider = 8
  pitchMode : p.pitchMode.toNat ≤ 3
  freeze : p.freeze = 0 ∨ p.freeze = 1

/-- The effect invariants that hold between any two atomic steps, whatever was written to the parameters
(R26, R50). -/
structure EffectOk (c : Config) (e : Effect) : Prop where
  cap : Cells.wf Frame.silence c.maxSlice 0 e.cap = true
  wp : e.wp.toNat < c.maxSlice
  rp : e.rp.toNat ≤ 2 ^ 31 + 0x5FFFF
  rc : e.rc.toNat ≤ 16
  rcWhileRepeating : e.rep = true → e.rc.toNat < 16
  phase : e.phase.toNat < 65536

/-- The ring invariants (R49). -/
structure RingOk (c : Config) (r : Ring) : Prop where
  slots : Cells.wf Frame.silence c.cap 0 r.slots = true
  fc : r.fc.toNat ≤ c.cap
  wi : r.wi.toNat < c.cap
  ri : r.ri.toNat < c.cap
  indices : r.wi.toNat = (r.ri.toNat + r.fc.toNat) % c.cap

/-- The driver's ranges (R30), and when a completion is pending (R263). -/
structure DriverOk (c : Config) (d : Driver) : Prop where
  dbuf0 : d.dbuf0.length = c.nbuf
  dbuf1 : d.dbuf1.length = c.nbuf
  dmaPos : d.dmaPos.toNat ≤ c.nbuf
  irqPending : d.irqPending = true ↔ d.running = true ∧ d.dmaPos.toNat = c.nbuf

/-- The sequencing state of a command in progress (R25, R221): every frame offered so far was enqueued. -/
def FgOk : FgState → Prop
  | .idle => True
  | .writing _ addr count i n => spanFits addr count = true ∧ i < count.toNat ∧ n = i
  | .accounting _ count n => n ≤ count.toNat
  | .autoStart => True

/-! ### Where a write phase can stand -/

/-- What FG's steps inside `RB.WRITE` and the write phase of `PCM.BLOCK` never change (R21). -/
def SameOutsideWrite (s t : State) : Prop :=
  t.cfg = s.cfg ∧ t.params = s.params ∧ t.effect = s.effect ∧ t.pcm = s.pcm ∧ t.out = s.out ∧
  t.port = s.port ∧ t.host = s.host

/-- FG made `k` atomic steps inside its command, from `s` to `t`, and had the turn for each: where another
agent has a step every one of them spends a listed turn and a tick, and the schedule gave each of those turns
to FG; where none has, no turn is spent (log entries 2 and 9). Every sequencing state of a command in progress
asks for the turn alike; `autoStart` stands for them. -/
def TurnsSpent (s t : State) (k : Nat) : Prop :=
  ∃ m, (s.quiet → m = 0) ∧ (¬ s.quiet → m = k) ∧ t.sched = s.sched.drop m ∧ t.tick = s.tick + m ∧
    ∀ j, j < m →
      ({ s with fg := .autoStart, sched := s.sched.drop j, tick := s.tick + j } : State).turn = some .fg

/-- The command that began its auto-start test with the ring `r` and the driver of `s` has completed as `t`:
the full `OUT.START` if the driver was Stopped and the ring at the threshold, nothing otherwise (R282). -/
def AutoStarted (s : State) (r : Ring) (t : State) : Prop :=
  t.fg = .idle ∧
  if s.driver.running = false ∧ s.cfg.startThreshold ≤ r.fc.toNat
  then exec .outStart { t with ring := r, driver := s.driver } = .next t
  else t.ring = r ∧ t.driver = s.driver

/-- The accounting step of a write of `n` of `count` frames, which left the ring `r`, is done: the dropped
frames are counted and `RES` is the number kept (R221, R223). `RB.WRITE` has completed; `PCM.BLOCK` waits for
its auto-start test, another agent having the turn (log entry 10), or has made it. `k` counts the atomic steps
from the accounting step on. -/
def Accounted (s : State) (owner : WriteOwner) (count : Word) (n : Nat) (r : Ring) (k : Nat) (t : State) :
    Prop :=
  t.res = BitVec.ofNat 32 n ∧
  ∃ w : Word, w.toNat = min (r.overrun.toNat + (count.toNat - n)) (2 ^ 32 - 1) ∧
    match owner with
    | .rbWrite => k = 1 ∧ t.fg = .idle ∧ t.ring = { r with overrun := w } ∧ t.driver = s.driver
    | .pcmBlock =>
      (k = 1 ∧ t.fg = .autoStart ∧ t.turn ≠ some .fg ∧ t.ring = { r with overrun := w } ∧
        t.driver = s.driver) ∨
      (k = 2 ∧ AutoStarted s { r with overrun := w } t)

/-- Where FG's run from frame `i` of a block can lead: `n` frames are in, in order, and the command waits
before frame `n` (at least `lo`) or before its accounting step, another agent having the turn, or has made
that step. Fewer than `count` frames are in only if the ring was full, which took one more step (R25, R75,
R221). FG had the turn for every atomic step but the first `free`. -/
def WroteOn (s : State) (owner : WriteOwner) (addr count : Word) (i lo free : Nat) (t : State) : Prop :=
  SameOutsideWrite s t ∧ ∃ (n : Nat) (r : Ring) (k : Nat), i ≤ n ∧ n ≤ count.toNat ∧ RingOk s.cfg r ∧
    r.unread s.cfg.cap = s.ring.unread s.cfg.cap ++ (blockFrames s.pcm addr.toNat n).drop i ∧
    r.ri = s.ring.ri ∧ r.underrun = s.ring.underrun ∧ r.overrun = s.ring.overrun ∧
    TurnsSpent s t k ∧
    ((t.fg = .writing owner addr count n n ∧ lo ≤ n ∧ n < count.toNat ∧ t.turn ≠ some .fg ∧
        k + free = n - i ∧ t.ring = r ∧ t.res = s.res ∧ t.driver = s.driver) ∨
     ((n < count.toNat → r.fc.toNat = s.cfg.cap) ∧ ∃ tried, tried = (n - i) + (if n < count.toNat then 1 else 0) ∧
        ((t.fg = .accounting owner count n ∧ t.turn ≠ some .fg ∧ k + free = tried ∧
            t.ring = r ∧ t.res = s.res ∧ t.driver = s.driver) ∨
         ∃ more, k + free = tried + more ∧ Accounted s owner count n r more t)))

/-- The invariant of the machine, between any two steps of any agent. -/
structure Inv (s : State) : Prop where
  cfg : configOk s.cfg = true
  params : ParamsOk s.cfg s.params
  effect : EffectOk s.cfg s.effect
  ring : RingOk s.cfg s.ring
  driver : DriverOk s.cfg s.driver
  pcm : s.pcm.wf = true
  fg : FgOk s.fg

/-- A run is safe while every step answers a next state and the invariant holds (R305). -/
def SafeFor : Nat → State → Prop
  | 0, s => Inv s
  | n + 1, s => Inv s ∧ ∃ t, step s = .next t ∧ SafeFor n t

end Sys2Proof.Machine
end

