-- ==== Sys2Proof/Certificates/Slice0/Obligations.lean ====
section
/-! DEFINITION. The statements for the provers, one `def Obligations.<Name> : Prop` each. OBLIGATIONS.json
lists them with the rules of spec/ they rest on. The terms they use are defined in Safety.lean. -/

open Sys2Proof Sys2Proof.Machine

/-! ### Encoding -/

/-- Decoding the words of a command gives the command back, with every operand at every value, and leaves
the words after it (R90 to R94). -/
def Obligations.DecodeOfEncodeIsTheCommand : Prop :=
  ∀ (i : Instr) (rest : List Word), decode (encode i ++ rest) = .command i rest

/-- `RSV` is read in no header, and `IMM8` in none of the headers of formats Z and B (R96). -/
def Obligations.DecodeIgnoresReservedBits : Prop :=
  ∀ (h h' : Word) (ws : List Word), opcodeOf h = opcodeOf h' →
    (immOf h = immOf h' ∨
      opcodeOf h ∈ ([0x00, 0x01, 0x10, 0x11, 0x12, 0x20, 0x21, 0x22] : List Byte)) →
    decode (h :: ws) = decode (h' :: ws)

/-- A command is its header and as many operand words as its format has; the decoder asks for more words
only while fewer than four are there (R90, R92). -/
def Obligations.DecodeTakesTheWordsOfTheFormat : Prop :=
  (∀ (ws : List Word) (i : Instr) (rest : List Word), decode ws = .command i rest →
    ∃ (header : Word) (operands : List Word),
      ws = header :: (operands ++ rest) ∧ operands.length = i.operandWords) ∧
  (∀ (ws : List Word) (why : DecodeError), decode ws = .rejected why → ws.length < 4)

/-- One sequence of words for each command, written out from the header layout and the opcode map (R91 to R94),
most of them as R98 and the programs P1 to P5 write them, decodes to that command; so do headers with `RSV`
or `IMM8` set and one with a reserved opcode. -/
def Obligations.SpecWordsDecode : Prop :=
  decode [0x02000001, 0x00000004] = .command (.regWr 0x01 4) [] ∧
  decode [0x03ABCD04] = .command (.regRd 0x04) [] ∧
  decode [0x30000002, 0x00000100, 0x00000008, 0x0000AC44] =
    .command (.pcmBlock 2 0x100 8 44100) [] ∧
  decode [0x10000000, 0x00001000, 0x0000001E] = .command (.rbWrite 0x1000 30) [] ∧
  decode [0x11000000, 0x00002000, 0x00000032] = .command (.rbCons 0x2000 50) [] ∧
  decode [0x04000002, 0x00000100, 0x0000000C] = .command (.brProc 2 0x100 12) [] ∧
  decode [0x12000000] = .command .rbClear [] ∧
  decode [0x01000000] = .command .brReset [] ∧
  decode [0x20000000] = .command .outStart [] ∧
  decode [0x21000000] = .command .outStop [] ∧
  decode [0x22000000] = .command .outXfer [] ∧
  decode [0x00FFFFFF] = .command .nop [] ∧
  decode [0x7FABCDEF] = .command .nop []

/-! ### The step -/

/-- When FG has the turn with no command in progress and the port holds a whole command, the step is the
meaning of that command, its words taken off the port and the turn spent (R90). -/
def Obligations.StepRunsTheDecodedCommand : Prop :=
  ∀ (s : State) (i : Instr) (rest : List Word), configOk s.cfg = true → s.fg = .idle →
    decode s.port = .command i rest → s.turn = some .fg →
    step s = exec i (s.spendTurn.withPort rest)

/-- Every command completes but one whose PCM span passes the top of the address space, which is refused
(R66, R305). -/
def Obligations.ExecCompletesExactlyOnWellFormed : Prop :=
  ∀ (i : Instr) (s : State),
    (i.wellFormed = true → ∃ t, exec i s = .next t) ∧
    (i.wellFormed = false → exec i s = .refused .spanPastTop)

/-- No step halts: a step answers a next state, unless FG takes a command off the port whose span passes
the top; a configuration outside R8's constraints is refused (R305, R66, U6). -/
def Obligations.StepRefusesOnlyBadSpans : Prop :=
  (∀ s : State, configOk s.cfg = true →
    (∃ t, step s = .next t) ∨
    (s.turn = some .fg ∧ s.fg = .idle ∧ ∃ i rest, decode s.port = .command i rest ∧
      i.wellFormed = false ∧ step s = .refused .spanPastTop)) ∧
  (∀ s : State, configOk s.cfg = false → step s = .refused .badConfiguration)

/-- Only an agent with an enabled step gets the turn, some agent gets it whenever one has an enabled step,
and every enabled agent gets it under some listing of turns: no interleaving is left out (R75, R327, U14;
how turns are listed is the model's choice, log entry 2). FG has a step exactly when a command is in progress
or the port holds a whole command (R90), ISR exactly when the completion is pending (R315). -/
def Obligations.AnyEnabledAgentCanStepAndNoOther : Prop :=
  ∀ s : State, (∀ a, s.turn = some a → s.ready a = true) ∧
    (s.turn = none ↔ ∀ a, s.ready a = false) ∧
    (∀ a, s.ready a = true → ({ s with sched := a :: s.sched } : State).turn = some a) ∧
    (s.ready .fg = true ↔ s.fg ≠ .idle ∨ ∃ i rest, decode s.port = .command i rest) ∧
    (s.ready .isr = true ↔ s.driver.irqPending = true)

/-- HOST has a step exactly when it has something to do, no command is in progress and the port does not hold
a whole command, and an action of its does what it says: a word joins the port, a sample is stored, the reset
input resets the block. This is the model's choice (log entry 4), from R81, R90 and R340. -/
def Obligations.HostActsOnlyBetweenCommands : Prop :=
  ∀ s : State, (s.ready .host = true ↔
      s.host ≠ [] ∧ s.fg = .idle ∧ ∃ why, decode s.port = .rejected why) ∧
    (configOk s.cfg = true → s.turn = some .host →
    s.fg = .idle ∧ (∃ why, decode s.port = .rejected why) ∧
    ∃ act rest t, s.host = act :: rest ∧ step s = .next t ∧ t.host = rest ∧
    (∀ w, act = .word w → t = { s.spendTurn with host := rest, port := s.port ++ [w] }) ∧
    (∀ a v, act = .pcmWrite a v →
      t = { s.spendTurn with host := rest, pcm := t.pcm } ∧
      (s.pcm.wf = true → ∀ b, t.pcm.readSample b = if b = a.toNat then v else s.pcm.readSample b)) ∧
    (act = .reset → t = State.resetWith s.cfg s.pcm rest s.spendTurn.sched s.spendTurn.tick))

/-- Each command writes only what its rule names (R21, R46, R100): the other parts of the state, and every
PCM byte outside the command's block, are as before. `OUT.STOP`'s and the other commands' own effects are
stated one by one below. -/
def Obligations.CommandsWriteOnlyTheirOwnState : Prop :=
  ∀ (i : Instr) (s t : State), exec i s = .next t →
    t.cfg = s.cfg ∧ t.out = s.out ∧ t.port = s.port ∧ t.host = s.host ∧
    (writesParams i = false → t.params = s.params) ∧
    (writesEffect i = false → t.effect = s.effect) ∧
    (writesRing i = false → t.ring = s.ring) ∧
    (writesDriver i = false → t.driver = s.driver) ∧
    (writesRes i = false → t.res = s.res) ∧
    (writesPcm i = false → t.pcm = s.pcm) ∧
    (preemptible i = false → t.fg = s.fg ∧ t.sched = s.sched ∧ t.tick = s.tick) ∧
    (∀ b, ¬ mayStore i b → t.pcm.readByte b = s.pcm.readByte b)

/-! ### Invariants and reset -/

/-- Every step of every agent keeps the invariant: the ring's indices and fill count agree, the memories
keep their canonical form, every register holds a legal value, a completion is pending exactly when the
active buffer of a running driver is emitted whole, and a command in progress has enqueued every frame it
offered (R49, R50, R51, R41, R263). -/
def Obligations.StepKeepsTheInvariant : Prop :=
  ∀ s t : State, Inv s → step s = .next t → Inv t

/-- The state after reset meets the invariant, in every configuration within R8's constraints and with any
PCM memory, HOST actions and turns. -/
def Obligations.ResetMeetsTheInvariant : Prop :=
  Inv State.reset ∧
  ∀ (c : Config) (pcm : Memory) (host : List HostAct) (sched : List Agent) (tick : Nat),
    configOk c = true → pcm.wf = true → Inv (State.resetWith c pcm host sched tick)

/-- Hardware reset puts every state word at its reset value: the reset columns of R26, R29, R30, R41, R43
and R45. -/
def Obligations.HardwareResetValues : Prop :=
  ∀ s : State,
    (∀ k, Cells.read Frame.silence s.hardwareReset.effect.cap k = ⟨0, 0⟩) ∧
    s.hardwareReset.effect.wp = 0 ∧ s.hardwareReset.effect.rp = 0 ∧ s.hardwareReset.effect.rc = 0 ∧
    s.hardwareReset.effect.rep = false ∧ s.hardwareReset.effect.phase = 0 ∧
    s.hardwareReset.effect.prng = BitVec.ofNat 32 s.cfg.lcgSeed ∧
    (∀ k, Cells.read Frame.silence s.hardwareReset.ring.slots k = ⟨0, 0⟩) ∧
    s.hardwareReset.ring.wi = 0 ∧ s.hardwareReset.ring.ri = 0 ∧ s.hardwareReset.ring.fc = 0 ∧
    s.hardwareReset.ring.underrun = 0 ∧ s.hardwareReset.ring.overrun = 0 ∧
    (∀ b, s.hardwareReset.driver.buf b = List.replicate s.cfg.nbuf 0) ∧
    s.hardwareReset.driver.active = 0 ∧ s.hardwareReset.driver.running = false ∧
    s.hardwareReset.driver.dmaPos = 0 ∧ s.hardwareReset.driver.irqPending = false ∧
    s.hardwareReset.res = 0 ∧
    paramIndices.map s.hardwareReset.params.get =
      [0, BitVec.ofNat 32 s.cfg.maxSlice, 1, 100, 0x10000, 0, 0, BitVec.ofNat 32 s.cfg.maxSlice,
        0, 0, 0, 65536, 1, 0, 0] ∧
    [0x10, 0x11, 0x12, 0x13].map
        (regRead s.cfg s.hardwareReset.params s.hardwareReset.ring) =
      [0, BitVec.ofNat 32 s.cfg.cap, 0, 0] ∧
    s.hardwareReset.fg = .idle ∧ s.hardwareReset.out = [] ∧
    s.hardwareReset.cfg = s.cfg ∧ s.hardwareReset.pcm = s.pcm

/-- The configuration never changes (R8). -/
def Obligations.ConfigurationIsFixed : Prop :=
  ∀ s t : State, step s = .next t → t.cfg = s.cfg

/-- The two error counters never decrease, but by hardware reset (R229). -/
def Obligations.CountersNeverDecrease : Prop :=
  ∀ s t : State, step s = .next t →
    (s.turn = some .host → s.host.head? ≠ some .reset) →
    s.ring.underrun.toNat ≤ t.ring.underrun.toNat ∧ s.ring.overrun.toNat ≤ t.ring.overrun.toNat

/-! ### Error events and counters -/

/-- Raising an event records what R300's table says and nothing else: an overrun adds the dropped frames
to `overrun_count`, an underrun the silent slots to `underrun_count`, both saturating at `2^32 − 1`; the
other two record nothing. -/
def Obligations.RaiseRecordsOnlyItsCounter : Prop :=
  ∀ (s : State) (n : Nat),
    (∃ w : Word, s.raise (.overrun n) = { s with ring := { s.ring with overrun := w } } ∧
      w.toNat = min (s.ring.overrun.toNat + n) (2 ^ 32 - 1)) ∧
    (∃ w : Word, s.raise (.underrun n) = { s with ring := { s.ring with underrun := w } } ∧
      w.toNat = min (s.ring.underrun.toNat + n) (2 ^ 32 - 1)) ∧
    s.raise .invalidParameter = s ∧ s.raise .channelMismatch = s

/-! ### `NOP` and the registers -/

/-- `NOP` completes and changes nothing; its header is opcode `0x00`, an all-zero word among them, and
every reserved opcode is the same one-word command (R285, R95). -/
def Obligations.NopChangesNothing : Prop :=
  (∀ s : State, exec .nop s = .next s) ∧
  (∀ (ws : List Word), decode (0 :: ws) = .command .nop ws) ∧
  ∀ (h : Word) (ws : List Word),
    opcodeOf h ∉ ([0x01, 0x02, 0x03, 0x04, 0x10, 0x11, 0x12, 0x20, 0x21, 0x22, 0x30] : List Byte) →
    decode (h :: ws) = .command .nop ws

/-- `REG.WR` completes for every index and data: it stores the legal value in the parameter register it
names and touches no other register and no other state; other indices ignore the write. Its words are
opcode `0x02` with the index in `IMM8`, then the data (R152). -/
def Obligations.RegWrStoresTheLegalValue : Prop :=
  ∀ (idx : Byte) (data : Word) (s : State),
    (∃ p, exec (.regWr idx data) s = .next { s with params := p } ∧
      ∀ k, p.get k =
        if k = idx.toNat ∧ k ≤ 0x0E then legalValue s.cfg k data else s.params.get k) ∧
    ∀ (h : Word) (ws : List Word), opcodeOf h = 0x02 → immOf h = idx →
      decode (h :: data :: ws) = .command (.regWr idx data) ws

/-- The stored value is the `legal_k` column of R41: numbers are read as `int32` and clamped, booleans as
`uint32`, and a `clock_divider` outside the set becomes 1. -/
def Obligations.LegalValuesAreTheTable : Prop :=
  ∀ (c : Config) (data : Word), configOk c = true →
    (∀ k ∈ [0x00, 0x05, 0x06, 0x0E], legalValue c k data = if data.toNat = 0 then 0 else 1) ∧
    (∀ k ∈ [0x01, 0x07], (legalValue c k data).toInt = max (c.minSlice : Int) (min (c.maxSlice : Int) data.toInt)) ∧
    (legalValue c 0x02 data).toInt = max 1 (min 16 data.toInt) ∧
    (legalValue c 0x03 data).toInt = max 0 (min 100 data.toInt) ∧
    (legalValue c 0x04 data).toInt = max 0x4000 (min 0x40000 data.toInt) ∧
    (∀ k ∈ [0x08, 0x09, 0x0A, 0x0B], (legalValue c k data).toInt = max 0 (min 65536 data.toInt)) ∧
    (legalValue c 0x0C data).toInt =
      (if data.toInt ∈ ([1, 2, 4, 8] : List Int) then data.toInt else 1) ∧
    (legalValue c 0x0D data).toInt = max 0 (min 3 data.toInt)

/-- `REG.RD` completes for every index and changes `RES` alone: a parameter's stored value, the four status
views (`FREE` is what `FILLED` leaves of `CAP`), or 0 at a reserved index. Its word is opcode `0x03` with
the index in `IMM8` (R153, R43). -/
def Obligations.RegRdReadsTheRegister : Prop :=
  ∀ (idx : Byte) (s : State),
    (∃ v : Word,
      exec (.regRd idx) s = .next { s with res := v } ∧
      (idx.toNat ≤ 0x0E → v = s.params.get idx.toNat) ∧
      (idx.toNat = 0x10 → v = s.ring.fc) ∧
      (idx.toNat = 0x11 → configOk s.cfg = true → s.ring.fc.toNat ≤ s.cfg.cap →
        v.toNat + s.ring.fc.toNat = s.cfg.cap) ∧
      (idx.toNat = 0x12 → v = s.ring.underrun) ∧
      (idx.toNat = 0x13 → v = s.ring.overrun) ∧
      (idx.toNat = 0x0F ∨ 0x14 ≤ idx.toNat → v = 0)) ∧
    ∀ (h : Word) (ws : List Word), opcodeOf h = 0x03 → immOf h = idx →
      decode (h :: ws) = .command (.regRd idx) ws

/-- The order of two writes to different registers does not matter (R154). -/
def Obligations.RegisterWritesCommute : Prop :=
  ∀ (j k : Byte) (d e : Word) (s : State), j ≠ k → ∃ a b t,
    exec (.regWr j d) s = .next a ∧ exec (.regWr k e) a = .next t ∧
    exec (.regWr k e) s = .next b ∧ exec (.regWr j d) b = .next t

/-- `SETPARAMS` leaves every parameter at the legal value of what was given and changes nothing else, and
`GETPARAMS` then returns those values, which are legal: writing them again changes nothing (R154, R155). -/
def Obligations.SetParamsThenGetParams : Prop :=
  ∀ (v : Params) (s : State), configOk s.cfg = true → ∃ p,
    (runCommands (Pseudo.setParams v).expand s).getLast? = some { s with params := p } ∧
    (∀ k ∈ paramIndices, p.get k = legalValue s.cfg k (v.get k)) ∧
    (runCommands Pseudo.getParams.expand { s with params := p }).map State.res =
      paramIndices.map (fun k => legalValue s.cfg k (v.get k)) ∧
    (∀ k ∈ paramIndices, legalValue s.cfg k (p.get k) = p.get k) ∧
    ParamsOk s.cfg p

/-! ### Sample primitives -/

/-- `clip16` clamps to the signed 16-bit range (R121), and `sadd16` is the exact sum, clipped (R122). -/
def Obligations.ClipAndSaturatingAdd : Prop :=
  (∀ v : Int, (clip16 v).toInt = max (-32768) (min 32767 v)) ∧
  (∀ a b : Sample, (sadd16 a b).toInt = max (-32768) (min 32767 (a.toInt + b.toInt)))

/-- `pack` puts the left pattern in bits 31:16 and the right in bits 15:0, and `unpack` is its inverse in
both directions (R123, R124). -/
def Obligations.UnpackInvertsPack : Prop :=
  (∀ f : Frame, (pack f).toNat = f.l.toNat * 65536 + f.r.toNat) ∧
  (∀ f : Frame, unpack (pack f) = f) ∧ (∀ w : Word, pack (unpack w) = w)

/-- `lerp16` is the exact floor formula of R125, lies between its two samples, and works lane by lane on
frames. -/
def Obligations.LerpStaysBetweenItsSamples : Prop :=
  ∀ (a b : Sample) (f : Nat), f < 65536 →
    (lerp16 a b f).toInt = a.toInt + ((b.toInt - a.toInt) * (f : Int)).fdiv 65536 ∧
    min a.toInt b.toInt ≤ (lerp16 a b f).toInt ∧ (lerp16 a b f).toInt ≤ max a.toInt b.toInt ∧
    ∀ x y : Sample, lerpFrame ⟨a, x⟩ ⟨b, y⟩ f = ⟨lerp16 a b f, lerp16 x y f⟩

/-- `gain16` is the exact floor formula of R126, and is no larger than its sample. -/
def Obligations.GainNeverAmplifies : Prop :=
  ∀ (w : Sample) (g : Nat), g ≤ 65536 →
    (gain16 w g).toInt = (w.toInt * (g : Int)).fdiv 65536 ∧
    (gain16 w g).toInt.natAbs ≤ w.toInt.natAbs

/-- `mixpct` is the exact crossfade of R127, truncated toward zero: the clip never changes it, it lies
between dry and wet, and it is the dry sample at 0 and the wet sample at 100. -/
def Obligations.MixStaysBetweenDryAndWet : Prop :=
  ∀ (d w : Sample) (m : Nat), m ≤ 100 →
    (mixpct d w m).toInt = (d.toInt * (100 - (m : Int)) + w.toInt * (m : Int)).tdiv 100 ∧
    min d.toInt w.toInt ≤ (mixpct d w m).toInt ∧ (mixpct d w m).toInt ≤ max d.toInt w.toInt ∧
    mixpct d w 0 = d ∧ mixpct d w 100 = w

/-- `env_gain` is a U1.16 gain: with no whole frame of fade it is 1 (so for shape 0); else it is the position
divided by the fade inside the fade-in, what is left of the span divided by the fade inside the fade-out, and
1 between them. A faded loop starts from silence (R128). -/
def Obligations.EnvelopeGainIsAtMostOne : Prop :=
  ∀ rp len shape : Nat, 1 ≤ len → len ≤ 32768 → rp < len * 65536 → shape ≤ 65536 →
    envGain rp len shape ≤ 65536 ∧ envGain rp len 0 = 65536 ∧
    (1 ≤ len * shape / 2 ^ 17 → envGain 0 len shape = 0) ∧
    ∀ fade : Nat, fade = len * shape / 2 ^ 17 →
      (fade = 0 → envGain rp len shape = 65536) ∧
      (rp < fade * 65536 → envGain rp len shape = rp / fade) ∧
      (1 ≤ fade → fade * 65536 ≤ rp → len * 65536 ≤ rp + fade * 65536 →
        envGain rp len shape = (len * 65536 - rp) / fade) ∧
      (fade * 65536 ≤ rp → rp + fade * 65536 < len * 65536 → envGain rp len shape = 65536)

/-- `sinq15` is a Q15 sine of period 65536, read from 256 steps: the first quadrant holds the table of R129
(its entry `k` at the phase `256 k`), the function is even about a quarter turn and odd under half a turn,
and the low byte of the phase is ignored. -/
def Obligations.SineIsOddAndInRange : Prop :=
  (List.range 65).map (fun k => sinq15 (256 * k)) =
    [0, 804, 1608, 2410, 3212, 4011, 4808, 5602,
     6393, 7179, 7962, 8739, 9512, 10278, 11039, 11793,
     12539, 13279, 14010, 14732, 15446, 16151, 16846, 17530,
     18204, 18868, 19519, 20159, 20787, 21403, 22005, 22594,
     23170, 23731, 24279, 24811, 25329, 25832, 26319, 26790,
     27245, 27683, 28105, 28510, 28898, 29268, 29621, 29956,
     30273, 30571, 30852, 31113, 31356, 31580, 31785, 31971,
     32137, 32285, 32412, 32521, 32609, 32678, 32728, 32757,
     32767] ∧
  ∀ ph : Nat, ph < 65536 →
    (-32767 ≤ sinq15 ph ∧ sinq15 ph ≤ 32767) ∧
    sinq15 ((ph + 32768) % 65536) = - sinq15 ph ∧
    sinq15 (ph / 256 * 256) = sinq15 ph ∧
    (ph % 256 = 0 → ph ≤ 32768 → sinq15 (32768 - ph) = sinq15 ph)

/-! ### The effect engine -/

/-- `BR.RESET`, opcode `0x01`, completes: the effect state is zeroed, the generator reseeded, and nothing
else changes; a second one changes nothing (R156). -/
def Obligations.BrResetZeroesTheEffect : Prop :=
  ∀ s : State, ∃ e,
    exec .brReset s = .next { s with effect := e } ∧
    (∀ k, Cells.read Frame.silence e.cap k = ⟨0, 0⟩) ∧
    e.wp = 0 ∧ e.rp = 0 ∧ e.rc = 0 ∧ e.rep = false ∧ e.phase = 0 ∧
    e.prng = BitVec.ofNat 32 s.cfg.lcgSeed ∧
    exec .brReset { s with effect := e } = .next { s with effect := e } ∧
    ∀ (h : Word) (ws : List Word), opcodeOf h = 0x01 → decode (h :: ws) = .command .brReset ws

/-- A disabled engine or a channel count other than 2 makes `BR.PROC` a no-op: no PCM byte and no state
word changes (R195). -/
def Obligations.BypassChangesNothing : Prop :=
  ∀ (ch : Byte) (addr count : Word) (s : State), spanFits addr count = true →
    (ch ≠ 2 ∨ s.params.enabled = 0) → exec (.brProc ch addr count) s = .next s

/-- `BR.PROC` completes: in place, it is the frame step run over the frames the block held, in order; the
block then holds the output frames, and no PCM byte outside the block changes (R180, R181). -/
def Obligations.BrProcIsTheFrameStepOverTheBlock : Prop :=
  ∀ (addr count : Word) (s : State), spanFits addr count = true → s.pcm.wf = true →
    s.params.enabled ≠ 0 → ∃ m : Memory,
    exec (.brProc 2 addr count) s = .next { s with
      effect := (runFrames s.cfg s.params s.effect (blockFrames s.pcm addr.toNat count.toNat)).1
      pcm := m } ∧
    m.wf = true ∧
    blockFrames m addr.toNat count.toNat =
      (runFrames s.cfg s.params s.effect (blockFrames s.pcm addr.toNat count.toNat)).2 ∧
    ∀ b, ¬ inBlock addr.toNat count.toNat b → m.readByte b = s.pcm.readByte b

/-- One block of `n + k` frames and two blocks of `n` and `k` frames give the same output and the same end
state (R180). -/
def Obligations.BlocksCanBeSplit : Prop :=
  ∀ (ch : Byte) (addr n k : Word) (s : State), n.toNat + k.toNat < 2 ^ 32 →
    spanFits addr (n + k) = true → ∃ t u,
    exec (.brProc ch addr n) s = .next t ∧
    exec (.brProc ch (addr + 2 * n) k) t = .next u ∧
    exec (.brProc ch addr (n + k)) s = .next u

/-- A frame that begins not repeating is put out dry (R194). -/
def Obligations.NotRepeatingOutputsDry : Prop :=
  ∀ (c : Config) (p : Params) (e : Effect) (dry : Frame), e.rep = false →
    (frameStep c p e dry).2 = dry

/-- A frame of a repeat plays the window from its position, one outside the window restarting it (R187): the
output is the crossfade at `wet_mix`, lane by lane, of the dry frame and the interpolated wet frame under the
envelope. At `wet_mix` 0 that is the dry frame, at 100 the enveloped wet frame, and with `window_shape` 0 the
wet frame itself (R190, R191, R192, R198). -/
def Obligations.RepeatingOutputIsDryOrWet : Prop :=
  ∀ (c : Config) (p : Params) (e : Effect) (dry : Frame), ParamsOk c p → e.rep = true →
    ∀ (w : Window) (rp g : Nat) (wet : Frame), w = loopWindow p e.rc.toNat (activeSliceLength p) →
    rp = (if e.rp.toNat < w.len * 65536 then e.rp.toNat else 0) →
    wet = lerpFrame (Cells.read Frame.silence e.cap (w.off + (readIndices p rp w.len).i0))
      (Cells.read Frame.silence e.cap (w.off + (readIndices p rp w.len).i1)) (readIndices p rp w.len).f →
    g = envGain rp w.len p.windowShape.toNat →
    (frameStep c p e dry).2 =
      ⟨mixpct dry.l (gain16 wet.l g) p.wetMix.toNat, mixpct dry.r (gain16 wet.r g) p.wetMix.toNat⟩ ∧
    (p.wetMix = 0 → (frameStep c p e dry).2 = dry) ∧
    (p.wetMix = 100 → (frameStep c p e dry).2 = ⟨gain16 wet.l g, gain16 wet.r g⟩) ∧
    (p.wetMix = 100 → p.windowShape = 0 → (frameStep c p e dry).2 = wet)

/-- The slice clock runs in every frame and wraps at the active slice length; the capture store is made
exactly in a frame that begins not repeating, at the write position, and nowhere else (R183). -/
def Obligations.CaptureAndSliceClock : Prop :=
  ∀ (c : Config) (p : Params) (e : Effect) (dry : Frame), configOk c = true → EffectOk c e →
    (frameStep c p e dry).1.wp.toNat =
      (if activeSliceLength p ≤ e.wp.toNat + 1 then 0 else e.wp.toNat + 1) ∧
    ∀ k, Cells.read Frame.silence (frameStep c p e dry).1.cap k =
      if e.rep = false ∧ k = e.wp.toNat then dry else Cells.read Frame.silence e.cap k

/-- The gate: exactly at a slice boundary of a frame that begins neither repeating nor frozen, one number
is drawn, and the repeat is triggered from its start when its upper half is below `probability`; in every
other frame the generator keeps its state, and one that begins not repeating does not begin a repeat
(R184, R185). -/
def Obligations.GateDrawsOncePerBoundary : Prop :=
  ∀ (c : Config) (p : Params) (e : Effect) (dry : Frame),
    (e.rep = false → p.freeze = 0 → activeSliceLength p ≤ e.wp.toNat + 1 →
      (frameStep c p e dry).1.prng.toNat = (e.prng.toNat * c.lcgA + c.lcgC) % 2 ^ 32 ∧
      ((frameStep c p e dry).1.prng.toNat / 65536 < p.probability.toNat →
        (frameStep c p e dry).1.rep = true ∧ (frameStep c p e dry).1.rp = 0 ∧
        (frameStep c p e dry).1.rc = 0 ∧ (frameStep c p e dry).1.phase = 0) ∧
      (p.probability.toNat ≤ (frameStep c p e dry).1.prng.toNat / 65536 →
        (frameStep c p e dry).1.rep = false ∧ (frameStep c p e dry).1.rp = e.rp ∧
        (frameStep c p e dry).1.rc = e.rc ∧ (frameStep c p e dry).1.phase = e.phase)) ∧
    (e.rep = true ∨ p.freeze ≠ 0 ∨ e.wp.toNat + 1 < activeSliceLength p →
      (frameStep c p e dry).1.prng = e.prng ∧
      (e.rep = false → (frameStep c p e dry).1.rep = false))

/-- The active slice length is `stutter_length` if the stutter is enabled, else `slice_length`, divided by
`clock_divider`, and at least 1; so it is never 0 and never exceeds the capture array (R182). -/
def Obligations.ActiveSliceLengthFitsTheCapture : Prop :=
  ∀ (c : Config) (p : Params), configOk c = true → ParamsOk c p →
    (p.stutterEnabled = 1 →
      activeSliceLength p = max 1 (p.stutterLength.toNat / p.clockDivider.toNat)) ∧
    (p.stutterEnabled = 0 →
      activeSliceLength p = max 1 (p.sliceLength.toNat / p.clockDivider.toNat)) ∧
    1 ≤ activeSliceLength p ∧ activeSliceLength p ≤ c.maxSlice

/-- The loop window starts at `loop_start` of the slice, short of its end; what follows that start shrinks
linearly with the completed passes, by `loop_size_decay` of it for each, to no less than a tenth and one
frame. So the window is not empty and never leaves the slice, its start is that of the first pass, the first
pass plays all of it, and no later pass is longer (R186). -/
def Obligations.LoopWindowStaysInTheSlice : Prop :=
  ∀ (p : Params) (rc asl : Nat), 1 ≤ asl →
    (loopWindow p rc asl).off = min (asl * p.loopStart.toNat / 65536) (asl - 1) ∧
    (∀ base dec : Nat, base = asl - (loopWindow p rc asl).off →
      dec = min (rc * p.loopSizeDecay.toNat) 65536 →
      (loopWindow p rc asl).len = max (base - base * dec / 65536) (max 1 (base / 10))) ∧
    1 ≤ (loopWindow p rc asl).len ∧ (loopWindow p rc asl).off + (loopWindow p rc asl).len ≤ asl ∧
    (loopWindow p rc asl).off = (loopWindow p 0 asl).off ∧
    (loopWindow p 0 asl).len = asl - (loopWindow p 0 asl).off ∧
    (loopWindow p 0 asl).len / 10 ≤ (loopWindow p rc asl).len ∧
    (loopWindow p (rc + 1) asl).len ≤ (loopWindow p rc asl).len

/-- The read position: forward the position itself, reversed `(2·span − 65536 − rp) mod span`; its whole part
is the first read, the next window position, wrapping, the second, and its low 16 bits the fraction between
them. Both reads fall inside the loop window; an integer position reads its own window position forward and
the mirrored one reversed (R188). -/
def Obligations.ReadPositionsStayInTheWindow : Prop :=
  ∀ (p : Params) (rp len : Nat), 1 ≤ len → rp < len * 65536 →
    (∀ pos : Nat,
      pos = (if p.reverse = 0 then rp else (2 * (len * 65536) - 65536 - rp) % (len * 65536)) →
      (readIndices p rp len).i0 = pos / 65536 ∧ (readIndices p rp len).f = pos % 65536) ∧
    (readIndices p rp len).i0 < len ∧ (readIndices p rp len).i1 < len ∧
    (readIndices p rp len).f < 65536 ∧
    (readIndices p rp len).i1 = ((readIndices p rp len).i0 + 1) % len ∧
    (rp % 65536 = 0 → (readIndices p rp len).f = 0 ∧
      (readIndices p rp len).i0 =
        if p.reverse = 0 then rp / 65536 else len - 1 - rp / 65536)

/-- The pitch step of each mode, at the progress `rp div loop_len` through the loop: FIXED is `pitch_shift`;
RAMP_UP moves linearly from 1.0 toward it and RAMP_DOWN from it toward 1.0; SCRATCH adds the sine of the phase
times half of it. Every step lies between 0.125 and 6.0, and between 0.25 and 4.0 in the modes without
scratch: a loop always advances (R189). -/
def Obligations.PitchStepIsPositiveAndBounded : Prop :=
  ∀ (c : Config) (p : Params) (phase rp len : Nat), ParamsOk c p → phase < 65536 → 1 ≤ len →
    rp < len * 65536 →
    (∀ shift t16 : Int, shift = p.pitchShift.toNat → t16 = (rp / len : Nat) →
      (p.pitchMode = 0 → pitchStep p phase rp len = shift) ∧
      (p.pitchMode = 1 → pitchStep p phase rp len = 65536 + ((shift - 65536) * t16).fdiv 65536) ∧
      (p.pitchMode = 2 → pitchStep p phase rp len = shift + ((65536 - shift) * t16).fdiv 65536) ∧
      (p.pitchMode = 3 → pitchStep p phase rp len = shift + (shift * sinq15 phase).fdiv 65536)) ∧
    (p.pitchMode = 1 → pitchStep p phase 0 len = 65536) ∧
    (p.pitchMode = 2 → pitchStep p phase 0 len = p.pitchShift.toNat) ∧
    0x2000 ≤ pitchStep p phase rp len ∧ pitchStep p phase rp len ≤ 0x60000 ∧
    (p.pitchMode.toNat ≤ 2 →
      0x4000 ≤ pitchStep p phase rp len ∧ pitchStep p phase rp len ≤ 0x40000)

/-- The state a frame of a repeat leaves (R193). The phase advances by `SCRATCH_INC`. The position advances by
the pitch step; inside the window nothing else moves. At the loop end, frozen, the position goes back to the
start and the repeat goes on with its count; not frozen, one more pass is counted, and the repeat is over at
`repeat_count` passes or starts the next one. So a frozen repeat never ends (R199), and after any frame that
leaves the engine repeating the read position lies inside the loop window of the next frame (R50). -/
def Obligations.RepeatingPositionStaysInTheWindow : Prop :=
  ∀ (c : Config) (p : Params) (e e' : Effect) (dry : Frame), configOk c = true → ParamsOk c p →
    EffectOk c e → e' = (frameStep c p e dry).1 →
    (e'.rep = true → e'.rp.toNat < (loopWindow p e'.rc.toNat (activeSliceLength p)).len * 65536) ∧
    (e.rep = true → p.freeze = 1 → e'.rep = true ∧ e'.rc = e.rc) ∧
    (e.rep = true → e'.phase.toNat = (e.phase.toNat + c.scratchInc) % 65536 ∧
      ∀ len rp rp1 : Nat, len = (loopWindow p e.rc.toNat (activeSliceLength p)).len →
      rp = (if e.rp.toNat < len * 65536 then e.rp.toNat else 0) →
      (rp1 : Int) = rp + pitchStep p e.phase.toNat rp len →
      (rp1 < len * 65536 → e'.rp.toNat = rp1 ∧ e'.rep = true ∧ e'.rc = e.rc) ∧
      (len * 65536 ≤ rp1 → p.freeze = 1 → e'.rp = 0 ∧ e'.rep = true ∧ e'.rc = e.rc) ∧
      (len * 65536 ≤ rp1 → p.freeze = 0 → e'.rc.toNat = e.rc.toNat + 1 ∧
        (p.repeatCount.toNat ≤ e.rc.toNat + 1 → e'.rep = false ∧ e'.rp.toNat = rp1) ∧
        (e.rc.toNat + 1 < p.repeatCount.toNat → e'.rep = true ∧ e'.rp = 0)))

/-- With the plain parameters of R198(e), one pass of a repeat puts out the captured slice sample for
sample, whatever comes in, and counts one pass: the repeat ends at `repeat_count` passes. -/
def Obligations.PlainRepeatReplaysTheSlice : Prop :=
  ∀ (c : Config) (p : Params) (e : Effect) (dries : List Frame), configOk c = true → ParamsOk c p →
    EffectOk c e → p.pitchMode = 0 → p.pitchShift = 0x10000 → p.reverse = 0 → p.windowShape = 0 →
    p.loopStart = 0 → p.loopSizeDecay = 0 → p.wetMix = 100 → p.freeze = 0 →
    e.rep = true → e.rp = 0 → dries.length = activeSliceLength p →
    (runFrames c p e dries).2 =
      (List.range (activeSliceLength p)).map (fun k => Cells.read Frame.silence e.cap k) ∧
    (runFrames c p e dries).1.cap = e.cap ∧
    (runFrames c p e dries).1.rc.toNat = e.rc.toNat + 1 ∧
    ((runFrames c p e dries).1.rep = true ↔ e.rc.toNat + 1 < p.repeatCount.toNat)

/-- Progress: a pass over a window of `len` frames that is not frozen ends within `8 · len` frames (R199). -/
def Obligations.PassEndsWithinEightWindows : Prop :=
  ∀ (c : Config) (p : Params) (e : Effect) (dries : List Frame), configOk c = true → ParamsOk c p →
    EffectOk c e → p.freeze = 0 → e.rep = true →
    dries.length = 8 * (loopWindow p e.rc.toNat (activeSliceLength p)).len →
    ∃ m, m ≤ dries.length ∧
      (runFrames c p e (dries.take m)).1.rc.toNat = e.rc.toNat + 1 ∧
      ((runFrames c p e (dries.take m)).1.rep = false ↔ p.repeatCount.toNat ≤ e.rc.toNat + 1)

/-! ### The ring -/

/-- The enqueue step: a full ring changes nothing; otherwise the frame becomes the newest unread one, in
the slot at `wi` and no other (R222). -/
def Obligations.EnqueueAppendsTheNewestFrame : Prop :=
  ∀ (c : Config) (r : Ring) (f : Frame), configOk c = true → RingOk c r →
    (r.fc.toNat = c.cap → r.enqueue c.cap f = none) ∧
    (r.fc.toNat ≠ c.cap → ∃ r', r.enqueue c.cap f = some r' ∧ RingOk c r' ∧
      r'.unread c.cap = r.unread c.cap ++ [f] ∧ r'.fc.toNat = r.fc.toNat + 1 ∧
      r'.wi.toNat = (r.wi.toNat + 1) % c.cap ∧
      (∀ k, Cells.read Frame.silence r'.slots k =
        if k = r.wi.toNat then f else Cells.read Frame.silence r.slots k) ∧
      r'.ri = r.ri ∧ r'.underrun = r.underrun ∧ r'.overrun = r.overrun)

/-- `consume_into(n)` gives the oldest unread frames in order, then silence; the fill count falls by the
frames given, and `underrun_count` grows by the silent slots (R225, R226, R227). -/
def Obligations.ConsumeServesOldestThenSilence : Prop :=
  ∀ (c : Config) (r : Ring) (n : Nat), configOk c = true → RingOk c r →
    (r.consume c.cap n).2 = r.served c.cap n ∧
    RingOk c (r.consume c.cap n).1 ∧
    (r.consume c.cap n).1.unread c.cap = (r.unread c.cap).drop n ∧
    (r.consume c.cap n).1.fc.toNat = r.fc.toNat - min n r.fc.toNat ∧
    (r.consume c.cap n).1.ri.toNat = (r.ri.toNat + min n r.fc.toNat) % c.cap ∧
    (r.consume c.cap n).1.underrun.toNat =
      min (r.underrun.toNat + (n - r.fc.toNat)) (2 ^ 32 - 1) ∧
    (r.consume c.cap n).1.slots = r.slots ∧ (r.consume c.cap n).1.wi = r.wi ∧
    (r.consume c.cap n).1.overrun = r.overrun

/-- `RB.WRITE` with every turn going to FG (no other agent has a step, or the listed turns are FG's, so
Running or Stopped) completes: it enqueues as many frames of the block as there is room for, in order, counts
the rest as overrun and answers the number kept (R221, R223). Under any schedule it starts by going through
its write phase to its end or to the first turn that is not FG's, as other agents may step between two of its
atomic steps (R75, U2). That it spends a listed turn for each atomic step after the first where the turns are
contested is the model's choice (log entry 2), and so is that one step covers the run to another agent's turn
(log entry 9). -/
def Obligations.RbWriteKeepsWhatFits : Prop :=
  (∀ (addr count : Word) (s : State), spanFits addr count = true → configOk s.cfg = true →
    RingOk s.cfg s.ring → s.fgTurns count.toNat → ∃ (r : Ring) (n m : Nat),
    exec (.rbWrite addr count) s = .next { s with
      ring := r, res := BitVec.ofNat 32 n, fg := .idle, sched := s.sched.drop m, tick := s.tick + m } ∧
    n = min count.toNat (s.cfg.cap - s.ring.fc.toNat) ∧
    r.unread s.cfg.cap = s.ring.unread s.cfg.cap ++ blockFrames s.pcm addr.toNat n ∧
    RingOk s.cfg r ∧ r.ri = s.ring.ri ∧ r.underrun = s.ring.underrun ∧
    r.overrun.toNat = min (s.ring.overrun.toNat + (count.toNat - n)) (2 ^ 32 - 1) ∧
    (s.quiet → m = 0) ∧ (¬ s.quiet → m = min count.toNat (n + 1))) ∧
  (∀ (addr count : Word) (s : State), spanFits addr count = true → configOk s.cfg = true →
    RingOk s.cfg s.ring → ∃ t, exec (.rbWrite addr count) s = .next t ∧
    WroteOn s .rbWrite addr count 0 1 1 t)

/-- A command that waits between two atomic steps and gets the turn goes on where it was (R25), under any
schedule. A write phase, of `RB.WRITE` or of `PCM.BLOCK`, enqueues further frames of its block in order, at
least one unless the ring is full, and then waits again at the first turn that is not FG's, or makes its
accounting step; a short count means a full ring (R221). A command before its accounting step makes it; a
`PCM.BLOCK` before its auto-start test makes that and completes (R280, R282). Three points are the model's
choice: the listed turns that are spent (log entry 2), the run to another agent's turn as one step (log
entry 9), and the wait before the auto-start test (log entry 10). -/
def Obligations.WriteInProgressGoesOn : Prop :=
  (∀ (owner : WriteOwner) (addr count : Word) (i : Nat) (s : State), configOk s.cfg = true →
    RingOk s.cfg s.ring → s.fg = .writing owner addr count i i → i < count.toNat → s.turn = some .fg →
    ∃ t, step s = .next t ∧ WroteOn s owner addr count i (i + 1) 0 t) ∧
  (∀ (owner : WriteOwner) (count : Word) (n : Nat) (s : State), configOk s.cfg = true →
    s.fg = .accounting owner count n → s.turn = some .fg →
    ∃ t k, step s = .next t ∧ SameOutsideWrite s t ∧ TurnsSpent s t k ∧
    Accounted s owner count n s.ring k t) ∧
  (∀ s : State, configOk s.cfg = true → s.fg = .autoStart → s.turn = some .fg →
    ∃ t, step s = .next t ∧ SameOutsideWrite s t ∧ TurnsSpent s t 1 ∧ t.res = s.res ∧
    AutoStarted s s.ring t)

/-- `RB.CONS` completes: the destination holds the oldest unread frames and then silence, no PCM byte
outside it changes, and the ring gives up what was served (R224). -/
def Obligations.RbConsFillsTheDestination : Prop :=
  ∀ (addr count : Word) (s : State), spanFits addr count = true → configOk s.cfg = true →
    RingOk s.cfg s.ring → s.pcm.wf = true → ∃ (r : Ring) (m : Memory),
    exec (.rbCons addr count) s = .next { s with ring := r, pcm := m } ∧
    blockFrames m addr.toNat count.toNat = s.ring.served s.cfg.cap count.toNat ∧
    m.wf = true ∧
    (∀ b, ¬ inBlock addr.toNat count.toNat b → m.readByte b = s.pcm.readByte b) ∧
    r.unread s.cfg.cap = (s.ring.unread s.cfg.cap).drop count.toNat ∧
    r.underrun.toNat =
      min (s.ring.underrun.toNat + (count.toNat - s.ring.fc.toNat)) (2 ^ 32 - 1) ∧
    r.slots = s.ring.slots ∧ r.wi = s.ring.wi ∧ r.overrun = s.ring.overrun ∧ RingOk s.cfg r

/-- `RB.CLEAR`, opcode `0x12`, completes: both indices and the fill count are 0, every slot is silence, and
nothing else changes, neither of the two counters; a second one changes nothing (R230). -/
def Obligations.RbClearEmptiesTheRing : Prop :=
  ∀ s : State, ∃ r : Ring,
    exec .rbClear s = .next { s with ring := r } ∧
    (∀ k, Cells.read Frame.silence r.slots k = ⟨0, 0⟩) ∧
    r.wi = 0 ∧ r.ri = 0 ∧ r.fc = 0 ∧
    r.underrun = s.ring.underrun ∧ r.overrun = s.ring.overrun ∧
    exec .rbClear { s with ring := r } = .next { s with ring := r } ∧
    ∀ (h : Word) (ws : List Word), opcodeOf h = 0x12 → decode (h :: ws) = .command .rbClear ws

/-! ### The output driver and the interrupt -/

/-- `OUT.START` while Running, and `OUT.STOP` and `OUT.XFER` while Stopped, change nothing
(R253, R255, R259). -/
def Obligations.DriverNoOps : Prop :=
  ∀ s : State,
    (s.driver.running = true → exec .outStart s = .next s) ∧
    (s.driver.running = false → exec .outStop s = .next s ∧ exec .outXfer s = .next s)

/-- `OUT.START` while Stopped completes: both buffers are filled from the ring, buffer 0 first, and the
driver runs from word 0 of buffer 0 with nothing pending (R252, R254). -/
def Obligations.OutStartFillsBothBuffers : Prop :=
  ∀ s : State, configOk s.cfg = true → RingOk s.cfg s.ring → s.driver.running = false → ∃ r : Ring,
    exec .outStart s = .next { s with
      ring := r
      driver :=
        { dbuf0 := ((s.ring.served s.cfg.cap (2 * s.cfg.nbuf)).take s.cfg.nbuf).map pack
          dbuf1 := ((s.ring.served s.cfg.cap (2 * s.cfg.nbuf)).drop s.cfg.nbuf).map pack
          active := 0, running := true, dmaPos := 0, irqPending := false } } ∧
    r.unread s.cfg.cap = (s.ring.unread s.cfg.cap).drop (2 * s.cfg.nbuf) ∧
    r.underrun.toNat =
      min (s.ring.underrun.toNat + (2 * s.cfg.nbuf - s.ring.fc.toNat)) (2 ^ 32 - 1) ∧
    r.slots = s.ring.slots ∧ r.wi = s.ring.wi ∧ r.overrun = s.ring.overrun ∧ RingOk s.cfg r

/-- `OUT.STOP` while Running completes: the driver is Stopped and a pending completion cancelled, the
buffers, the active index and the position keep their values, and neither DMA nor ISR has a step
(R255, R256). -/
def Obligations.OutStopHaltsAtOnce : Prop :=
  ∀ s : State, s.driver.running = true → ∃ t,
    exec .outStop s = .next t ∧
    t = { s with driver := { s.driver with running := false, irqPending := false } } ∧
    t.ready .dma = false ∧ t.ready .isr = false

/-- `OUT.XFER` while Running completes: the other buffer becomes active from its first word, and the one
that finished is refilled whole from the ring (R257, R258). -/
def Obligations.OutXferSwapsAndRefills : Prop :=
  ∀ s : State, configOk s.cfg = true → RingOk s.cfg s.ring → s.driver.running = true →
    ∃ (r : Ring) (d : Driver),
    exec .outXfer s = .next { s with ring := r, driver := d } ∧
    d.active = 1 - s.driver.active ∧ d.running = true ∧ d.dmaPos = 0 ∧ d.irqPending = false ∧
    d.buf s.driver.active = (s.ring.served s.cfg.cap s.cfg.nbuf).map pack ∧
    d.buf d.active = s.driver.buf d.active ∧
    r.unread s.cfg.cap = (s.ring.unread s.cfg.cap).drop s.cfg.nbuf ∧
    r.underrun.toNat =
      min (s.ring.underrun.toNat + (s.cfg.nbuf - s.ring.fc.toNat)) (2 ^ 32 - 1) ∧
    r.slots = s.ring.slots ∧ r.wi = s.ring.wi ∧ r.overrun = s.ring.overrun ∧ RingOk s.cfg r

/-- ISR has a step exactly when the completion is pending, whatever FG is doing. Taking the interrupt is one
step that performs `OUT.XFER` and nothing else: nothing is saved, FG's sequencing state stays as it is, and
the completion is no longer pending (R312, R315, R316). -/
def Obligations.InterruptRunsTheOneHandler : Prop :=
  ∀ s : State, (s.ready .isr = true ↔ s.driver.irqPending = true) ∧
    (configOk s.cfg = true → s.turn = some .isr → s.driver.running = true → ∃ t,
      step s = .next t ∧ exec .outXfer s.spendTurn = .next t ∧
      t.fg = s.fg ∧ t.port = s.port ∧ t.params = s.params ∧ t.effect = s.effect ∧ t.res = s.res ∧
      t.pcm = s.pcm ∧ t.out = s.out ∧ t.driver.irqPending = false ∧ t.ready .isr = false)

/-- DMA has a step exactly when Running with a word left. Its step emits the next word of the active buffer
and advances `dma_pos`; the last word of the buffer latches the completion; nothing else changes but the
turn spent (R262, R263). -/
def Obligations.DmaStepEmitsOneWord : Prop :=
  ∀ s : State,
    (s.ready .dma = true ↔ s.driver.running = true ∧ s.driver.dmaPos.toNat < s.cfg.nbuf) ∧
    (configOk s.cfg = true → DriverOk s.cfg s.driver → s.turn = some .dma →
      ∃ w : Word, (s.driver.buf s.driver.active)[s.driver.dmaPos.toNat]? = some w ∧
      step s = .next { s.spendTurn with
        out := s.out ++ [w]
        driver := { s.driver with
          dmaPos := s.driver.dmaPos + 1
          irqPending := decide (s.driver.dmaPos.toNat + 1 = s.cfg.nbuf) } })

/-- From its first word, a buffer is emitted in index order, each word once, and the completion is pending
exactly when the last one is out (R262, R263). -/
def Obligations.BufferIsEmittedInOrder : Prop :=
  ∀ (s : State) (k : Nat), configOk s.cfg = true → DriverOk s.cfg s.driver → s.driver.running = true →
    s.driver.dmaPos = 0 → k ≤ s.cfg.nbuf →
    (State.dmaStep^[k] s).out = s.out ++ (s.driver.buf s.driver.active).take k ∧
    (State.dmaStep^[k] s).driver.dmaPos.toNat = k ∧
    ((State.dmaStep^[k] s).driver.irqPending = true ↔ k = s.cfg.nbuf)

/-- Continuity (R260). While the driver stays Running, a step makes the other buffer active when it is the
handler or an `OUT.XFER` taken off the port, and no other step changes the active index; so after a start it
alternates strictly with the completions handled. -/
def Obligations.ActiveIndexAlternates : Prop :=
  (∀ s t : State, step s = .next t → s.driver.running = true → t.driver.running = true →
    ((s.turn = some .isr ∨
        (s.turn = some .fg ∧ s.fg = .idle ∧ ∃ rest, decode s.port = .command .outXfer rest)) →
      t.driver.active = 1 - s.driver.active) ∧
    (¬ (s.turn = some .isr ∨
        (s.turn = some .fg ∧ s.fg = .idle ∧ ∃ rest, decode s.port = .command .outXfer rest)) →
      t.driver.active = s.driver.active)) ∧
  (∀ (s : State) (k : Nat), s.driver.running = true → s.driver.active = 0 → ∃ t,
    (runCommands (List.replicate (k + 1) .outXfer) s)[k]? = some t ∧
    t.driver.running = true ∧ t.driver.active.val = (k + 1) % 2)

/-- While the driver stays Running, no step of any agent writes the buffer that is active after it: what
DMA reads was finished before the buffer became active (R51, R80). -/
def Obligations.NoStepWritesTheActiveBuffer : Prop :=
  ∀ s t : State, step s = .next t → s.driver.running = true → t.driver.running = true →
    t.driver.buf t.driver.active = s.driver.buf t.driver.active

/-! ### The PCM path -/

/-- `PCM.BLOCK` with every turn going to FG (no other agent has a step, or the listed turns are FG's)
completes: it is `BR.PROC`, then `RB.WRITE`, then a start if the driver is Stopped and the ring has reached the
threshold, so none while Running; `rate` changes nothing (R280, R282, R283, R284). Under any schedule it makes
its first phase and goes on to its end or to the first turn that is not FG's, as other agents may step between
the atomic steps of its second phase (R75, U2). Three points are the model's choice: the listed turn spent for
each atomic step of the second and third phases where the turns are contested (log entry 2), the run to
another agent's turn as one step (log entry 9), and the waits after the first phase and before the third
(log entry 10). -/
def Obligations.PcmBlockIsProcessWriteAutoStart : Prop :=
  (∀ (ch : Byte) (addr count : Word) (s : State), spanFits addr count = true →
    s.fgTurns (count.toNat + 2) → ∃ (s1 s2 s3 t : State) (m : Nat),
    exec (.brProc ch addr count) s = .next s1 ∧
    exec (.rbWrite addr count) s1 = .next s2 ∧
    exec .outStart s2 = .next s3 ∧
    (∀ rate, exec (.pcmBlock ch addr count rate) s = .next t) ∧
    t = { (if s2.driver.running = false ∧ s2.cfg.startThreshold ≤ s2.ring.fc.toNat then s3 else s2) with
      sched := s.sched.drop m, tick := s.tick + m } ∧
    (s.quiet → m = 0) ∧ (¬ s.quiet → m = min count.toNat (s2.res.toNat + 1) + 2)) ∧
  (∀ (ch : Byte) (addr count : Word) (s : State), spanFits addr count = true → configOk s.cfg = true →
    RingOk s.cfg s.ring → ∃ s1 t,
    exec (.brProc ch addr count) s = .next s1 ∧
    (∀ rate, exec (.pcmBlock ch addr count rate) s = .next t) ∧
    WroteOn s1 .pcmBlock addr count 0 0 0 t)
end

