-- ==== Sys2Proof/Laws/Memory.lean ====
section
/-! SUPPORT. The laws of the sparse cells and of the PCM memory: what a read after a write answers, and that
every write keeps the canonical form. -/

namespace Sys2Proof.Machine

section CellsLaws

variable {α : Type} [DecidableEq α] {d v : α} {hi lo a b : Nat} {m m' : Cells α}

omit [DecidableEq α] in
@[simp] theorem Cells.read_nil : Cells.read d ([] : Cells α) a = d := rfl

@[simp] theorem Cells.wf_nil : Cells.wf d hi lo ([] : Cells α) = true := rfl

theorem Cells.wf_cons {k : Nat} {w : α} :
    Cells.wf d hi lo ((k, w) :: m) = true ↔
      (lo ≤ k ∧ k < hi ∧ w ≠ d) ∧ Cells.wf d hi (k + 1) m = true := by
  simp [Cells.wf]

/-- Lowering the first admitted index keeps the form. -/
theorem Cells.wf_mono (hlo : b ≤ lo) (h : Cells.wf d hi lo m = true) : Cells.wf d hi b m = true := by
  cases m with
  | nil => rfl
  | cons kw m =>
    obtain ⟨k, w⟩ := kw
    rw [Cells.wf_cons] at h ⊢
    exact ⟨⟨by omega, h.1.2⟩, h.2⟩

/-- Below the first admitted index nothing is listed. -/
theorem Cells.read_below (h : Cells.wf d hi lo m = true) (ha : a < lo) : Cells.read d m a = d := by
  induction m generalizing lo with
  | nil => rfl
  | cons kw m ih =>
    obtain ⟨k, w⟩ := kw
    rw [Cells.wf_cons] at h
    have hk : k ≠ a := by omega
    simpa [Cells.read, hk] using ih h.2 (by omega)

theorem Cells.read_write_other (hb : b ≠ a) :
    Cells.read d (Cells.write d m a v) b = Cells.read d m b := by
  induction m with
  | nil => by_cases hv : v = d <;> simp [Cells.write, Cells.read, hv, hb.symm]
  | cons kw m ih =>
    obtain ⟨k, w⟩ := kw
    simp only [Cells.write]
    split
    · split <;> simp [Cells.read, hb.symm]
    · split
      · rename_i _ hk
        subst hk
        split <;> simp [Cells.read, hb.symm]
      · simp [Cells.read, ih]

theorem Cells.read_write_same (h : Cells.wf d hi lo m = true) :
    Cells.read d (Cells.write d m a v) a = v := by
  induction m generalizing lo with
  | nil => by_cases hv : v = d <;> simp [Cells.write, Cells.read, hv]
  | cons kw m ih =>
    obtain ⟨k, w⟩ := kw
    rw [Cells.wf_cons] at h
    simp only [Cells.write]
    split
    · rename_i hak
      split
      · rename_i hv
        have hk : k ≠ a := by omega
        simpa [Cells.read, hk, hv] using Cells.read_below h.2 (by omega)
      · simp [Cells.read]
    · split
      · rename_i _ hk
        subst hk
        split
        · rename_i hv
          simpa [hv] using Cells.read_below h.2 (by omega)
        · simp [Cells.read]
      · rename_i _ hk
        have hk' : k ≠ a := fun e => hk e.symm
        simpa [Cells.read, hk'] using ih h.2

/-- What a read after a write answers. -/
theorem Cells.read_write (h : Cells.wf d hi lo m = true) :
    Cells.read d (Cells.write d m a v) b = if b = a then v else Cells.read d m b := by
  split
  · rename_i e
    subst e
    exact Cells.read_write_same h
  · exact Cells.read_write_other ‹_›

/-- A write keeps the canonical form. -/
theorem Cells.write_wf (h : Cells.wf d hi lo m = true) (hlo : lo ≤ a) (hhi : a < hi) :
    Cells.wf d hi lo (Cells.write d m a v) = true := by
  induction m generalizing lo with
  | nil => by_cases hv : v = d <;> simp [Cells.write, Cells.wf, hv, hlo, hhi]
  | cons kw m ih =>
    obtain ⟨k, w⟩ := kw
    have h' := h
    rw [Cells.wf_cons] at h
    simp only [Cells.write]
    split
    · split
      · exact h'
      · rename_i hv
        exact Cells.wf_cons.2 ⟨⟨hlo, hhi, hv⟩, Cells.wf_cons.2 ⟨⟨by omega, h.1.2⟩, h.2⟩⟩
    · split
      · rename_i _ hk
        subst hk
        split
        · exact Cells.wf_mono (by omega) h.2
        · rename_i hv
          exact Cells.wf_cons.2 ⟨⟨hlo, hhi, hv⟩, h.2⟩
      · exact Cells.wf_cons.2 ⟨h.1, ih h.2 (by omega)⟩

/-- Equal reads are equal data: the form is canonical. -/
theorem Cells.ext_of_wf (h : Cells.wf d hi lo m = true) (h' : Cells.wf d hi lo m' = true)
    (e : ∀ a, Cells.read d m a = Cells.read d m' a) : m = m' := by
  induction m generalizing lo m' with
  | nil =>
    cases m' with
    | nil => rfl
    | cons kw m' =>
      obtain ⟨k, w⟩ := kw
      rw [Cells.wf_cons] at h'
      exact absurd (by simpa [Cells.read] using e k) h'.1.2.2.symm
  | cons kw m ih =>
    obtain ⟨k, w⟩ := kw
    have h0 := h
    rw [Cells.wf_cons] at h
    cases m' with
    | nil => exact absurd (by simpa [Cells.read] using e k) h.1.2.2
    | cons kw' m' =>
      obtain ⟨k', w'⟩ := kw'
      have h0' := h'
      rw [Cells.wf_cons] at h'
      have hk : k = k' := by
        rcases Nat.lt_trichotomy k k' with hlt | heq | hgt
        · have hr : Cells.read d ((k', w') :: m') k = d :=
            Cells.read_below (lo := k') (Cells.wf_cons.2 ⟨⟨le_refl _, h'.1.2⟩, h'.2⟩) hlt
          have ek := e k
          rw [hr] at ek
          exact absurd (by simpa [Cells.read] using ek) h.1.2.2
        · exact heq
        · have hr : Cells.read d ((k, w) :: m) k' = d :=
            Cells.read_below (lo := k) (Cells.wf_cons.2 ⟨⟨le_refl _, h.1.2⟩, h.2⟩) hgt
          have ek := (e k').symm
          rw [hr] at ek
          exact absurd (by simpa [Cells.read] using ek) h'.1.2.2
      subst hk
      have hw : w = w' := by simpa [Cells.read] using e k
      subst hw
      congr 1
      refine ih h.2 h'.2 fun a => ?_
      by_cases ha : k = a
      · subst ha
        rw [Cells.read_below h.2 (by omega), Cells.read_below h'.2 (by omega)]
      · simpa [Cells.read, ha] using e a

end CellsLaws

variable {m : Memory} {a b addr i n : Nat}

@[simp] theorem Memory.readByte_nil : Memory.readByte ([] : Memory) b = 0 := rfl

theorem Memory.readByte_writeByte_other {v : Byte} (h : b ≠ a) :
    (m.writeByte a v).readByte b = m.readByte b := Cells.read_write_other h

theorem Memory.readByte_writeByte_same {v : Byte} (h : m.wf = true) :
    (m.writeByte a v).readByte a = v := Cells.read_write_same h

theorem Memory.writeByte_wf {v : Byte} (h : m.wf = true) (ha : a < 2 ^ 33) : (m.writeByte a v).wf = true :=
  Cells.write_wf h (Nat.zero_le _) ha

/-- Memories in canonical form that read the same are the same. -/
theorem Memory.ext_of_wf {m' : Memory} (h : m.wf = true) (h' : m'.wf = true)
    (e : ∀ b, m.readByte b = m'.readByte b) : m = m' := Cells.ext_of_wf h h' e

theorem Memory.readByte_writeSample_other {v : Sample} (h0 : b ≠ 2 * a) (h1 : b ≠ 2 * a + 1) :
    (m.writeSample a v).readByte b = m.readByte b := by
  rw [Memory.writeSample, Memory.readByte_writeByte_other h1, Memory.readByte_writeByte_other h0]

theorem Memory.writeSample_wf {v : Sample} (h : m.wf = true) (ha : a < 2 ^ 32) :
    (m.writeSample a v).wf = true :=
  Memory.writeByte_wf (Memory.writeByte_wf h (by omega)) (by omega)

theorem Memory.readSample_writeSample_same {v : Sample} (h : m.wf = true) (ha : a < 2 ^ 32) :
    (m.writeSample a v).readSample a = v := by
  have h1 : ((m.writeSample a v).readByte (2 * a + 1)) = v.extractLsb' 8 8 :=
    Memory.readByte_writeByte_same (Memory.writeByte_wf h (by omega))
  have h0 : ((m.writeSample a v).readByte (2 * a)) = v.extractLsb' 0 8 := by
    rw [Memory.writeSample, Memory.readByte_writeByte_other (by omega), Memory.readByte_writeByte_same h]
  rw [Memory.readSample, h1, h0]
  ext k hk
  simp only [BitVec.getElem_append, BitVec.getElem_extractLsb']
  split
  · simp
    rfl
  · have e : 8 + (k - 8) = k := by omega
    rw [e]
    rfl

theorem Memory.readSample_writeSample_other {v : Sample} (h : b ≠ a) :
    (m.writeSample a v).readSample b = m.readSample b := by
  simp only [Memory.readSample]
  rw [Memory.readByte_writeSample_other (by omega) (by omega),
    Memory.readByte_writeSample_other (by omega) (by omega)]

/-- What a sample read after a sample write answers (R62). -/
theorem Memory.readSample_writeSample {v : Sample} (h : m.wf = true) (ha : a < 2 ^ 32) :
    (m.writeSample a v).readSample b = if b = a then v else m.readSample b := by
  split
  · rename_i e
    subst e
    exact Memory.readSample_writeSample_same h ha
  · exact Memory.readSample_writeSample_other ‹_›

/-! ### Frames -/

theorem writeFrame_eq {f : Frame} : writeFrame m addr i f =
    (m.writeSample (addr + 2 * i) f.l).writeSample (addr + 2 * i + 1) f.r := rfl

theorem writeFrame_wf {f : Frame} (h : m.wf = true) (ha : addr + 2 * (i + 1) ≤ 2 ^ 32) :
    (writeFrame m addr i f).wf = true :=
  Memory.writeSample_wf (Memory.writeSample_wf h (by omega)) (by omega)

theorem readFrame_writeFrame_same {f : Frame} (h : m.wf = true) (ha : addr + 2 * (i + 1) ≤ 2 ^ 32) :
    readFrame (writeFrame m addr i f) addr i = f := by
  rw [writeFrame_eq, readFrame, Memory.readSample_writeSample_other (by omega),
    Memory.readSample_writeSample_same h (by omega),
    Memory.readSample_writeSample_same (Memory.writeSample_wf h (by omega)) (by omega)]

theorem readFrame_writeFrame_other {f : Frame} {k : Nat} (hk : k ≠ i) :
    readFrame (writeFrame m addr i f) addr k = readFrame m addr k := by
  simp only [writeFrame_eq, readFrame]
  rw [Memory.readSample_writeSample_other (by omega), Memory.readSample_writeSample_other (by omega),
    Memory.readSample_writeSample_other (by omega), Memory.readSample_writeSample_other (by omega)]

/-- A frame write leaves every byte outside the frame alone. -/
theorem readByte_writeFrame_outside {f : Frame} (hb : b < 2 * (addr + 2 * i) ∨ 2 * (addr + 2 * (i + 1)) ≤ b) :
    (writeFrame m addr i f).readByte b = m.readByte b := by
  rw [writeFrame_eq, Memory.readByte_writeSample_other (by omega) (by omega),
    Memory.readByte_writeSample_other (by omega) (by omega)]

theorem writeFrames_wf {fs : List Frame} (h : m.wf = true) (ha : addr + 2 * (i + fs.length) ≤ 2 ^ 32) :
    (writeFrames m addr i fs).wf = true := by
  induction fs generalizing m i with
  | nil => exact h
  | cons f fs ih =>
    simp only [List.length_cons] at ha
    exact ih (writeFrame_wf h (by omega)) (by omega)

/-- Writing frames `i`, `i + 1`, … leaves every byte outside them alone. -/
theorem readByte_writeFrames_outside {fs : List Frame}
    (hb : b < 2 * (addr + 2 * i) ∨ 2 * (addr + 2 * (i + fs.length)) ≤ b) :
    (writeFrames m addr i fs).readByte b = m.readByte b := by
  induction fs generalizing m i with
  | nil => rfl
  | cons f fs ih =>
    simp only [List.length_cons] at hb
    rw [writeFrames, ih (by omega), readByte_writeFrame_outside (by omega)]

end Sys2Proof.Machine
end

