-- ==== Sys2Proof/Laws/State.lean ====
section
/-! SUPPORT. One lemma per field per update of the state's records, each true by `rfl`, so that no later
proof unfolds a record update. -/

namespace Sys2Proof.Machine

variable {s : State} {e : ErrorEvent} {b : Fin 2} {owner : WriteOwner} {addr count : Word} {n nbuf : Nat}
variable {d : Driver} {r : Ring} {c : Config} {ws : List Word}

/-! ### `raise` -/

@[simp] theorem State.raise_cfg : (s.raise e).cfg = s.cfg := rfl
@[simp] theorem State.raise_params : (s.raise e).params = s.params := rfl
@[simp] theorem State.raise_effect : (s.raise e).effect = s.effect := rfl
@[simp] theorem State.raise_ring : (s.raise e).ring = s.ring.raise e := rfl
@[simp] theorem State.raise_driver : (s.raise e).driver = s.driver := rfl
@[simp] theorem State.raise_res : (s.raise e).res = s.res := rfl
@[simp] theorem State.raise_pcm : (s.raise e).pcm = s.pcm := rfl
@[simp] theorem State.raise_out : (s.raise e).out = s.out := rfl
@[simp] theorem State.raise_port : (s.raise e).port = s.port := rfl
@[simp] theorem State.raise_fg : (s.raise e).fg = s.fg := rfl
@[simp] theorem State.raise_host : (s.raise e).host = s.host := rfl
@[simp] theorem State.raise_sched : (s.raise e).sched = s.sched := rfl
@[simp] theorem State.raise_tick : (s.raise e).tick = s.tick := rfl

/-! ### `fill` -/

@[simp] theorem State.fill_cfg : (s.fill b).cfg = s.cfg := rfl
@[simp] theorem State.fill_params : (s.fill b).params = s.params := rfl
@[simp] theorem State.fill_effect : (s.fill b).effect = s.effect := rfl
@[simp] theorem State.fill_ring : (s.fill b).ring = (s.ring.consume s.cfg.cap s.cfg.nbuf).1 := rfl
@[simp] theorem State.fill_driver : (s.fill b).driver = s.driver.setBuf b ((s.ring.consume s.cfg.cap s.cfg.nbuf).2.map pack) := rfl
@[simp] theorem State.fill_res : (s.fill b).res = s.res := rfl
@[simp] theorem State.fill_pcm : (s.fill b).pcm = s.pcm := rfl
@[simp] theorem State.fill_out : (s.fill b).out = s.out := rfl
@[simp] theorem State.fill_port : (s.fill b).port = s.port := rfl
@[simp] theorem State.fill_fg : (s.fill b).fg = s.fg := rfl
@[simp] theorem State.fill_host : (s.fill b).host = s.host := rfl
@[simp] theorem State.fill_sched : (s.fill b).sched = s.sched := rfl
@[simp] theorem State.fill_tick : (s.fill b).tick = s.tick := rfl

/-! ### The DMA step -/

@[simp] theorem State.dmaStep_cfg : (s.dmaStep).cfg = s.cfg := rfl
@[simp] theorem State.dmaStep_params : (s.dmaStep).params = s.params := rfl
@[simp] theorem State.dmaStep_effect : (s.dmaStep).effect = s.effect := rfl
@[simp] theorem State.dmaStep_ring : (s.dmaStep).ring = s.ring := rfl
@[simp] theorem State.dmaStep_driver : (s.dmaStep).driver = s.driver.advance s.cfg.nbuf := rfl
@[simp] theorem State.dmaStep_res : (s.dmaStep).res = s.res := rfl
@[simp] theorem State.dmaStep_pcm : (s.dmaStep).pcm = s.pcm := rfl
@[simp] theorem State.dmaStep_out : (s.dmaStep).out = s.out ++ [(s.driver.buf s.driver.active).getD s.driver.dmaPos.toNat 0] := rfl
@[simp] theorem State.dmaStep_port : (s.dmaStep).port = s.port := rfl
@[simp] theorem State.dmaStep_fg : (s.dmaStep).fg = s.fg := rfl
@[simp] theorem State.dmaStep_host : (s.dmaStep).host = s.host := rfl
@[simp] theorem State.dmaStep_sched : (s.dmaStep).sched = s.sched := rfl
@[simp] theorem State.dmaStep_tick : (s.dmaStep).tick = s.tick := rfl

/-! ### Spending a turn -/

@[simp] theorem State.spendTurn_cfg : (s.spendTurn).cfg = s.cfg := rfl
@[simp] theorem State.spendTurn_params : (s.spendTurn).params = s.params := rfl
@[simp] theorem State.spendTurn_effect : (s.spendTurn).effect = s.effect := rfl
@[simp] theorem State.spendTurn_ring : (s.spendTurn).ring = s.ring := rfl
@[simp] theorem State.spendTurn_driver : (s.spendTurn).driver = s.driver := rfl
@[simp] theorem State.spendTurn_res : (s.spendTurn).res = s.res := rfl
@[simp] theorem State.spendTurn_pcm : (s.spendTurn).pcm = s.pcm := rfl
@[simp] theorem State.spendTurn_out : (s.spendTurn).out = s.out := rfl
@[simp] theorem State.spendTurn_port : (s.spendTurn).port = s.port := rfl
@[simp] theorem State.spendTurn_fg : (s.spendTurn).fg = s.fg := rfl
@[simp] theorem State.spendTurn_host : (s.spendTurn).host = s.host := rfl
@[simp] theorem State.spendTurn_sched : (s.spendTurn).sched = if s.contested then s.sched.tail else s.sched := rfl
@[simp] theorem State.spendTurn_tick : (s.spendTurn).tick = if s.contested then s.tick + 1 else s.tick := rfl

/-! ### The start of a write phase -/

@[simp] theorem State.beginWrite_cfg : (s.beginWrite owner addr count).cfg = s.cfg := rfl
@[simp] theorem State.beginWrite_params : (s.beginWrite owner addr count).params = s.params := rfl
@[simp] theorem State.beginWrite_effect : (s.beginWrite owner addr count).effect = s.effect := rfl
@[simp] theorem State.beginWrite_ring : (s.beginWrite owner addr count).ring = s.ring := rfl
@[simp] theorem State.beginWrite_driver : (s.beginWrite owner addr count).driver = s.driver := rfl
@[simp] theorem State.beginWrite_res : (s.beginWrite owner addr count).res = s.res := rfl
@[simp] theorem State.beginWrite_pcm : (s.beginWrite owner addr count).pcm = s.pcm := rfl
@[simp] theorem State.beginWrite_out : (s.beginWrite owner addr count).out = s.out := rfl
@[simp] theorem State.beginWrite_port : (s.beginWrite owner addr count).port = s.port := rfl
@[simp] theorem State.beginWrite_fg : (s.beginWrite owner addr count).fg = writeAt owner addr count 0 0 := rfl
@[simp] theorem State.beginWrite_host : (s.beginWrite owner addr count).host = s.host := rfl
@[simp] theorem State.beginWrite_sched : (s.beginWrite owner addr count).sched = s.sched := rfl
@[simp] theorem State.beginWrite_tick : (s.beginWrite owner addr count).tick = s.tick := rfl

/-! ### The accounting step -/

@[simp] theorem State.accountStep_cfg : (s.accountStep owner count n).cfg = s.cfg := rfl
@[simp] theorem State.accountStep_params : (s.accountStep owner count n).params = s.params := rfl
@[simp] theorem State.accountStep_effect : (s.accountStep owner count n).effect = s.effect := rfl
@[simp] theorem State.accountStep_ring : (s.accountStep owner count n).ring = s.ring.raise (.overrun (count.toNat - n)) := rfl
@[simp] theorem State.accountStep_driver : (s.accountStep owner count n).driver = s.driver := rfl
@[simp] theorem State.accountStep_res : (s.accountStep owner count n).res = BitVec.ofNat 32 n := rfl
@[simp] theorem State.accountStep_pcm : (s.accountStep owner count n).pcm = s.pcm := rfl
@[simp] theorem State.accountStep_out : (s.accountStep owner count n).out = s.out := rfl
@[simp] theorem State.accountStep_port : (s.accountStep owner count n).port = s.port := rfl
@[simp] theorem State.accountStep_fg : (s.accountStep owner count n).fg = match owner with | .rbWrite => .idle | .pcmBlock => .autoStart := rfl
@[simp] theorem State.accountStep_host : (s.accountStep owner count n).host = s.host := rfl
@[simp] theorem State.accountStep_sched : (s.accountStep owner count n).sched = s.sched := rfl
@[simp] theorem State.accountStep_tick : (s.accountStep owner count n).tick = s.tick := rfl

/-! ### Hardware reset -/

@[simp] theorem State.hardwareReset_cfg : (s.hardwareReset).cfg = s.cfg := rfl
@[simp] theorem State.hardwareReset_params : (s.hardwareReset).params = Params.reset s.cfg := rfl
@[simp] theorem State.hardwareReset_effect : (s.hardwareReset).effect = Effect.reset s.cfg := rfl
@[simp] theorem State.hardwareReset_ring : (s.hardwareReset).ring = Ring.reset := rfl
@[simp] theorem State.hardwareReset_driver : (s.hardwareReset).driver = Driver.reset s.cfg := rfl
@[simp] theorem State.hardwareReset_res : (s.hardwareReset).res = 0 := rfl
@[simp] theorem State.hardwareReset_pcm : (s.hardwareReset).pcm = s.pcm := rfl
@[simp] theorem State.hardwareReset_out : (s.hardwareReset).out = [] := rfl
@[simp] theorem State.hardwareReset_port : (s.hardwareReset).port = [] := rfl
@[simp] theorem State.hardwareReset_fg : (s.hardwareReset).fg = .idle := rfl
@[simp] theorem State.hardwareReset_host : (s.hardwareReset).host = s.host := rfl
@[simp] theorem State.hardwareReset_sched : (s.hardwareReset).sched = s.sched := rfl
@[simp] theorem State.hardwareReset_tick : (s.hardwareReset).tick = s.tick := rfl

/-! ### The command port -/

@[simp] theorem State.withPort_cfg : (s.withPort ws).cfg = s.cfg := rfl
@[simp] theorem State.withPort_params : (s.withPort ws).params = s.params := rfl
@[simp] theorem State.withPort_effect : (s.withPort ws).effect = s.effect := rfl
@[simp] theorem State.withPort_ring : (s.withPort ws).ring = s.ring := rfl
@[simp] theorem State.withPort_driver : (s.withPort ws).driver = s.driver := rfl
@[simp] theorem State.withPort_res : (s.withPort ws).res = s.res := rfl
@[simp] theorem State.withPort_pcm : (s.withPort ws).pcm = s.pcm := rfl
@[simp] theorem State.withPort_out : (s.withPort ws).out = s.out := rfl
@[simp] theorem State.withPort_port : (s.withPort ws).port = ws := rfl
@[simp] theorem State.withPort_fg : (s.withPort ws).fg = s.fg := rfl
@[simp] theorem State.withPort_host : (s.withPort ws).host = s.host := rfl
@[simp] theorem State.withPort_sched : (s.withPort ws).sched = s.sched := rfl
@[simp] theorem State.withPort_tick : (s.withPort ws).tick = s.tick := rfl

/-! ### The driver begins -/

@[simp] theorem Driver.begin_dbuf0 : (d.begin).dbuf0 = d.dbuf0 := rfl
@[simp] theorem Driver.begin_dbuf1 : (d.begin).dbuf1 = d.dbuf1 := rfl
@[simp] theorem Driver.begin_active : (d.begin).active = 0 := rfl
@[simp] theorem Driver.begin_running : (d.begin).running = true := rfl
@[simp] theorem Driver.begin_dmaPos : (d.begin).dmaPos = 0 := rfl
@[simp] theorem Driver.begin_irqPending : (d.begin).irqPending = false := rfl

/-! ### The driver halts -/

@[simp] theorem Driver.halt_dbuf0 : (d.halt).dbuf0 = d.dbuf0 := rfl
@[simp] theorem Driver.halt_dbuf1 : (d.halt).dbuf1 = d.dbuf1 := rfl
@[simp] theorem Driver.halt_active : (d.halt).active = d.active := rfl
@[simp] theorem Driver.halt_running : (d.halt).running = false := rfl
@[simp] theorem Driver.halt_dmaPos : (d.halt).dmaPos = d.dmaPos := rfl
@[simp] theorem Driver.halt_irqPending : (d.halt).irqPending = false := rfl

/-! ### The buffers are swapped -/

@[simp] theorem Driver.swap_dbuf0 : (d.swap).dbuf0 = d.dbuf0 := rfl
@[simp] theorem Driver.swap_dbuf1 : (d.swap).dbuf1 = d.dbuf1 := rfl
@[simp] theorem Driver.swap_active : (d.swap).active = 1 - d.active := rfl
@[simp] theorem Driver.swap_running : (d.swap).running = d.running := rfl
@[simp] theorem Driver.swap_dmaPos : (d.swap).dmaPos = 0 := rfl
@[simp] theorem Driver.swap_irqPending : (d.swap).irqPending = false := rfl

/-! ### A word is emitted -/

@[simp] theorem Driver.advance_dbuf0 : (d.advance nbuf).dbuf0 = d.dbuf0 := rfl
@[simp] theorem Driver.advance_dbuf1 : (d.advance nbuf).dbuf1 = d.dbuf1 := rfl
@[simp] theorem Driver.advance_active : (d.advance nbuf).active = d.active := rfl
@[simp] theorem Driver.advance_running : (d.advance nbuf).running = d.running := rfl
@[simp] theorem Driver.advance_dmaPos : (d.advance nbuf).dmaPos = BitVec.ofNat 32 (d.dmaPos.toNat + 1) := rfl
@[simp] theorem Driver.advance_irqPending : (d.advance nbuf).irqPending = if d.dmaPos.toNat + 1 = nbuf then true else d.irqPending := rfl

/-! ### The two buffers -/

@[simp] theorem Driver.buf_zero : d.buf 0 = d.dbuf0 := rfl
@[simp] theorem Driver.buf_one : d.buf 1 = d.dbuf1 := rfl
@[simp] theorem Driver.setBuf_zero_dbuf0 {ws : List Word} : (d.setBuf 0 ws).dbuf0 = ws := rfl
@[simp] theorem Driver.setBuf_zero_dbuf1 {ws : List Word} : (d.setBuf 0 ws).dbuf1 = d.dbuf1 := rfl
@[simp] theorem Driver.setBuf_zero_active {ws : List Word} : (d.setBuf 0 ws).active = d.active := rfl
@[simp] theorem Driver.setBuf_zero_running {ws : List Word} : (d.setBuf 0 ws).running = d.running := rfl
@[simp] theorem Driver.setBuf_zero_dmaPos {ws : List Word} : (d.setBuf 0 ws).dmaPos = d.dmaPos := rfl
@[simp] theorem Driver.setBuf_zero_irqPending {ws : List Word} : (d.setBuf 0 ws).irqPending = d.irqPending := rfl
@[simp] theorem Driver.setBuf_one_dbuf0 {ws : List Word} : (d.setBuf 1 ws).dbuf0 = d.dbuf0 := rfl
@[simp] theorem Driver.setBuf_one_dbuf1 {ws : List Word} : (d.setBuf 1 ws).dbuf1 = ws := rfl
@[simp] theorem Driver.setBuf_one_active {ws : List Word} : (d.setBuf 1 ws).active = d.active := rfl
@[simp] theorem Driver.setBuf_one_running {ws : List Word} : (d.setBuf 1 ws).running = d.running := rfl
@[simp] theorem Driver.setBuf_one_dmaPos {ws : List Word} : (d.setBuf 1 ws).dmaPos = d.dmaPos := rfl
@[simp] theorem Driver.setBuf_one_irqPending {ws : List Word} : (d.setBuf 1 ws).irqPending = d.irqPending := rfl

/-! ### Clearing the ring, and error events -/

@[simp] theorem Ring.clear_slots : r.clear.slots = [] := rfl
@[simp] theorem Ring.clear_wi : r.clear.wi = 0 := rfl
@[simp] theorem Ring.clear_ri : r.clear.ri = 0 := rfl
@[simp] theorem Ring.clear_fc : r.clear.fc = 0 := rfl
@[simp] theorem Ring.clear_underrun : r.clear.underrun = r.underrun := rfl
@[simp] theorem Ring.clear_overrun : r.clear.overrun = r.overrun := rfl

@[simp] theorem Ring.raise_invalidParameter : r.raise .invalidParameter = r := rfl
@[simp] theorem Ring.raise_channelMismatch : r.raise .channelMismatch = r := rfl
@[simp] theorem State.raise_invalidParameter : s.raise .invalidParameter = s := rfl
@[simp] theorem State.raise_channelMismatch : s.raise .channelMismatch = s := rfl
@[simp] theorem State.interruptReturn_eq : s.interruptReturn = s := rfl

end Sys2Proof.Machine
end

