-- ==== Sys2Proof/Laws/Ops.lean ====
section
/-! SUPPORT. What each shared operation can do, said once: inversion lemmas that the proofs cite instead of
unfolding an operation. -/

namespace Sys2Proof.Machine

variable {s t : State} {r r' : Ring} {cap n k : Nat} {fr : Frame} {P : State → Prop}

/-! ### The ring -/

/-- Everything the enqueue step can do (R222). -/
theorem Ring.enqueue_cases (cap : Nat) (r : Ring) (fr : Frame) :
    (r.fc.toNat = cap ∧ r.enqueue cap fr = none) ∨
    (r.fc.toNat ≠ cap ∧ r.enqueue cap fr = some { r with
      slots := Cells.write Frame.silence r.slots r.wi.toNat fr
      wi := nextSlot cap r.wi
      fc := BitVec.ofNat 32 (r.fc.toNat + 1) }) := by
  unfold Ring.enqueue
  split
  · exact .inl ⟨‹_›, rfl⟩
  · exact .inr ⟨‹_›, rfl⟩

/-- Everything the dequeue-or-silence step can do (R226, R227). -/
theorem Ring.dequeue_cases (cap : Nat) (r : Ring) :
    (0 < r.fc.toNat ∧ r.dequeue cap =
      ({ r with ri := nextSlot cap r.ri, fc := BitVec.ofNat 32 (r.fc.toNat - 1) },
        Cells.read Frame.silence r.slots r.ri.toNat)) ∨
    (r.fc.toNat = 0 ∧ r.dequeue cap =
      ({ r with underrun := satAdd r.underrun 1 }, Frame.silence)) := by
  unfold Ring.dequeue
  split
  · exact .inl ⟨‹_›, rfl⟩
  · exact .inr ⟨by omega, rfl⟩

@[simp] theorem Ring.consume_zero : Ring.consume cap 0 r = (r, []) := rfl

@[simp] theorem Ring.consume_succ : Ring.consume cap (n + 1) r =
    ((Ring.consume cap n (r.dequeue cap).1).1,
      (r.dequeue cap).2 :: (Ring.consume cap n (r.dequeue cap).1).2) := rfl

/-- `consume_into(n)` returns exactly `n` frames (R225). -/
@[simp] theorem Ring.consume_length : (Ring.consume cap n r).2.length = n := by
  induction n generalizing r with
  | zero => rfl
  | succ n ih => simp [ih]

/-- A property of the ring that the dequeue-or-silence step keeps, `consume_into` keeps. -/
theorem Ring.consume_induction {Q : Ring → Prop} (hd : ∀ r, Q r → Q (r.dequeue cap).1) (h : Q r) :
    Q (Ring.consume cap n r).1 := by
  induction n generalizing r with
  | zero => exact h
  | succ n ih => exact ih (hd r h)

/-- The consumer writes only `ri`, `fc` and `underrun_count` (R226). -/
theorem Ring.consume_frame : (Ring.consume cap n r).1.slots = r.slots ∧
    (Ring.consume cap n r).1.wi = r.wi ∧ (Ring.consume cap n r).1.overrun = r.overrun := by
  refine Ring.consume_induction (Q := fun q => q.slots = r.slots ∧ q.wi = r.wi ∧ q.overrun = r.overrun)
    (fun q hq => ?_) ⟨rfl, rfl, rfl⟩
  rcases Ring.dequeue_cases cap q with ⟨-, h⟩ | ⟨-, h⟩ <;> rw [h] <;> exact hq

/-! ### The output driver -/

/-- Everything `start()` can do (R252, R253). -/
theorem State.startDriver_cases (s : State) :
    (s.driver.running = true ∧ s.startDriver = s) ∨
    (s.driver.running = false ∧
      s.startDriver = { (s.fill 0).fill 1 with driver := ((s.fill 0).fill 1).driver.begin }) := by
  unfold State.startDriver
  cases h : s.driver.running
  · exact .inr ⟨rfl, rfl⟩
  · exact .inl ⟨rfl, rfl⟩

/-- Everything `stop()` can do (R255). -/
theorem State.stopDriver_cases (s : State) :
    (s.driver.running = false ∧ s.stopDriver = s) ∨
    (s.driver.running = true ∧ s.stopDriver = { s with driver := s.driver.halt }) := by
  unfold State.stopDriver
  cases h : s.driver.running
  · exact .inl ⟨rfl, rfl⟩
  · exact .inr ⟨rfl, rfl⟩

/-- Everything `on_transfer_complete()` can do (R257, R259). -/
theorem State.transferComplete_cases (s : State) :
    (s.driver.running = false ∧ s.transferComplete = s) ∨
    (s.driver.running = true ∧
      s.transferComplete = ({ s with driver := s.driver.swap }).fill s.driver.active) := by
  unfold State.transferComplete
  cases h : s.driver.running
  · exact .inl ⟨rfl, rfl⟩
  · exact .inr ⟨rfl, rfl⟩

/-! ### The effect over a block -/

/-- Everything `process` can do (R180, R195): a state that differs in the effect and the PCM memory. -/
theorem State.process_cases (s : State) (ch : Byte) (addr count : Word) :
    ((ch ≠ 2 ∨ s.params.enabledOn = false) ∧ s.process ch addr count = s) ∨
    (ch = 2 ∧ s.params.enabledOn = true ∧ s.process ch addr count =
      { s with
        effect := (processFrames s.cfg s.params addr.toNat count.toNat 0 s.effect s.pcm).1
        pcm := (processFrames s.cfg s.params addr.toNat count.toNat 0 s.effect s.pcm).2 }) := by
  unfold State.process
  by_cases hc : ch = 2
  · cases he : s.params.enabledOn
    · exact .inl ⟨.inr rfl, by simp [hc]⟩
    · exact .inr ⟨hc, rfl, by simp [hc]⟩
  · exact .inl ⟨.inl hc, by rw [if_pos hc, State.raise_channelMismatch]⟩

/-! ### FG inside a command -/

/-- Everything an enqueue step of the write phase can do (R221, R222). -/
theorem State.enqueueStep_cases (s : State) (owner : WriteOwner) (addr count : Word) (i n : Nat) :
    (s.ring.fc.toNat = s.cfg.cap ∧
      s.enqueueStep owner addr count i n = { s with fg := .accounting owner count n }) ∨
    (s.ring.fc.toNat ≠ s.cfg.cap ∧
      s.enqueueStep owner addr count i n = { s with
        ring := { s.ring with
          slots := Cells.write Frame.silence s.ring.slots s.ring.wi.toNat (readFrame s.pcm addr.toNat i)
          wi := nextSlot s.cfg.cap s.ring.wi
          fc := BitVec.ofNat 32 (s.ring.fc.toNat + 1) }
        fg := writeAt owner addr count (i + 1) (n + 1) }) := by
  unfold State.enqueueStep
  rcases Ring.enqueue_cases s.cfg.cap s.ring (readFrame s.pcm addr.toNat i) with ⟨hf, h⟩ | ⟨hf, h⟩
  · exact .inl ⟨hf, by rw [h]⟩
  · exact .inr ⟨hf, by rw [h]⟩

/-- Everything the auto-start test can do (R282). -/
theorem State.autoStartStep_cases (s : State) :
    (s.driver.running = false ∧ s.cfg.startThreshold ≤ s.ring.fc.toNat ∧
      s.autoStartStep = { s.startDriver with fg := .idle }) ∨
    ((s.driver.running = true ∨ s.ring.fc.toNat < s.cfg.startThreshold) ∧
      s.autoStartStep = { s with fg := .idle }) := by
  unfold State.autoStartStep
  cases hr : s.driver.running
  · by_cases hf : s.cfg.startThreshold ≤ s.ring.fc.toNat
    · exact .inl ⟨rfl, hf, by simp [hf]⟩
    · exact .inr ⟨.inr (by omega), by simp [hf]⟩
  · exact .inr ⟨.inl rfl, by simp⟩

/-- A property that every atomic step of FG keeps, with the turn it spends, FG's run keeps. -/
theorem State.fgContinue_induction (hspend : ∀ s, P s → P s.spendTurn) (hstep : ∀ s, P s → P s.fgStep)
    (h : P s) : P (State.fgContinue k s) := by
  induction k generalizing s with
  | zero => exact h
  | succ k ih =>
    unfold State.fgContinue
    split
    · exact h
    · split
      · exact ih (hstep _ (hspend _ h))
      · exact h

theorem State.fgRun_induction (hspend : ∀ s, P s → P s.spendTurn) (hstep : ∀ s, P s → P s.fgStep)
    (h : P s) : P s.fgRun :=
  State.fgContinue_induction hspend hstep (hstep _ h)

/-- The steps left before frame `i`, the accounting and the auto-start included. -/
theorem writeAt_stepsLeft (owner : WriteOwner) (addr count : Word) (i n : Nat) :
    (writeAt owner addr count i n).stepsLeft ≤ (count.toNat - i) + 3 := by
  unfold writeAt
  split <;> simp [FgState.stepsLeft]

/-- An atomic step of FG leaves fewer steps to go. -/
theorem State.fgStep_stepsLeft (s : State) (h : s.fg ≠ .idle)
    (hw : ∀ o a c i n, s.fg = .writing o a c i n → i < c.toNat) :
    s.fgStep.fg.stepsLeft < s.fg.stepsLeft := by
  unfold State.fgStep
  cases hf : s.fg with
  | idle => exact absurd hf h
  | writing o a c i n =>
    have hi := hw o a c i n hf
    simp only
    rcases State.enqueueStep_cases s o a c i n with ⟨-, he⟩ | ⟨-, he⟩
    · rw [he]
      simp only [FgState.stepsLeft]
      omega
    · rw [he]
      have := writeAt_stepsLeft o a c (i + 1) (n + 1)
      simp only [FgState.stepsLeft] at this ⊢
      omega
  | accounting o c n => cases o <;> simp [FgState.stepsLeft]
  | autoStart =>
    rcases State.autoStartStep_cases s with ⟨-, -, he⟩ | ⟨-, he⟩ <;> simp [he, FgState.stepsLeft]

/-- The frame a write phase offers next lies in its block (FG's part of the invariant). -/
def FgState.OffersInBlock : FgState → Prop
  | .writing _ _ count i _ => i < count.toNat
  | _ => True

theorem offersInBlock_writeAt (owner : WriteOwner) (addr count : Word) (i n : Nat) :
    FgState.OffersInBlock (writeAt owner addr count i n) := by
  unfold writeAt
  split
  · assumption
  · trivial

/-- An atomic step of FG keeps the next frame in the block. -/
theorem State.fgStep_offersInBlock (s : State) (h : FgState.OffersInBlock s.fg) : FgState.OffersInBlock s.fgStep.fg := by
  unfold State.fgStep
  split
  · exact h
  · rename_i o a c i n hf
    rcases State.enqueueStep_cases s o a c i n with ⟨-, he⟩ | ⟨-, he⟩ <;> rw [he]
    · trivial
    · exact offersInBlock_writeAt o a c (i + 1) (n + 1)
  · rename_i o c n hf
    cases o <;> trivial
  · rcases State.autoStartStep_cases s with ⟨-, -, he⟩ | ⟨-, he⟩ <;> rw [he] <;> trivial

/-- FG's run, given as many steps as the command has left, stops only when the command has completed or
another agent has the turn (R75). -/
theorem State.fgContinue_stops (s : State) (hb : FgState.OffersInBlock s.fg) (hk : s.fg.stepsLeft ≤ k) :
    (State.fgContinue k s).fg = .idle ∨ (State.fgContinue k s).turn ≠ some .fg := by
  induction k generalizing s with
  | zero =>
    refine .inl ?_
    unfold State.fgContinue
    cases hf : s.fg <;> simp [hf, FgState.stepsLeft] at hk ⊢
  | succ k ih =>
    unfold State.fgContinue
    split
    · exact .inl ‹_›
    · rename_i hi
      split
      · refine ih _ (State.fgStep_offersInBlock _ hb) ?_
        have := State.fgStep_stepsLeft s.spendTurn hi (fun o a c i n he => by
          rw [State.spendTurn_fg] at he; rw [he] at hb; exact hb)
        rw [State.spendTurn_fg] at this
        omega
      · exact .inr ‹_›

/-! ### The step -/

/-- Everything a step that answers a next state can have done (R75). -/
theorem step_cases (h : step s = .next t) : configOk s.cfg = true ∧
    ((s.turn = none ∧ t = s) ∨
     (s.turn = some .host ∧ t = s.spendTurn.hostStep) ∨
     (s.turn = some .isr ∧ t = s.spendTurn.takeInterrupt) ∨
     (s.turn = some .dma ∧ t = s.spendTurn.dmaStep) ∨
     (s.turn = some .fg ∧ s.fg ≠ .idle ∧ t = s.spendTurn.fgRun) ∨
     (s.turn = some .fg ∧ s.fg = .idle ∧ (∃ why, decode s.port = .rejected why) ∧ t = s.spendTurn) ∨
     (s.turn = some .fg ∧ s.fg = .idle ∧ ∃ i rest, decode s.port = .command i rest ∧
       exec i (s.spendTurn.withPort rest) = .next t)) := by
  unfold step at h
  split at h
  · rename_i hc
    refine ⟨hc, ?_⟩
    unfold State.anyStep at h
    split at h
    · rename_i ht
      exact .inl ⟨ht, by cases h; rfl⟩
    · rename_i a ht
      cases a with
      | host => exact .inr (.inl ⟨ht, by cases h; rfl⟩)
      | isr => exact .inr (.inr (.inl ⟨ht, by cases h; rfl⟩))
      | dma => exact .inr (.inr (.inr (.inl ⟨ht, by cases h; rfl⟩)))
      | fg =>
        refine .inr (.inr (.inr (.inr ?_)))
        change s.spendTurn.fgTurn = _ at h
        unfold State.fgTurn at h
        split at h
        · rename_i hf
          rw [State.spendTurn_fg] at hf
          rw [State.spendTurn_port] at h
          split at h
          · rename_i i rest hd
            exact .inr (.inr ⟨ht, hf, i, rest, hd, h⟩)
          · rename_i why hd
            exact .inr (.inl ⟨ht, hf, ⟨why, hd⟩, by cases h; rfl⟩)
        · rename_i hf
          rw [State.spendTurn_fg] at hf
          exact .inl ⟨ht, hf, by cases h; rfl⟩
  · cases h

end Sys2Proof.Machine
end

