-- ==== Sys2Proof/Laws/PerInstr.lean ====
section
/-! SUPPORT. Per-command lemmas: one family, one lemma per constructor of `Instr`. -/

namespace Sys2Proof.Laws.EncodedLength

/-- A command's words are its header and as many operand words as its format has (30_encoding.md R92). -/
def Statement (i : Instr) : Prop := (encode i).length = 1 + i.operandWords

theorem nop : Statement .nop := rfl
theorem brReset : Statement .brReset := rfl
theorem regWr (idx : Byte) (data : Word) : Statement (.regWr idx data) := rfl
theorem regRd (idx : Byte) : Statement (.regRd idx) := rfl
theorem brProc (ch : Byte) (addr count : Word) : Statement (.brProc ch addr count) := rfl
theorem rbWrite (addr count : Word) : Statement (.rbWrite addr count) := rfl
theorem rbCons (addr count : Word) : Statement (.rbCons addr count) := rfl
theorem rbClear : Statement .rbClear := rfl
theorem outStart : Statement .outStart := rfl
theorem outStop : Statement .outStop := rfl
theorem outXfer : Statement .outXfer := rfl
theorem pcmBlock (ch : Byte) (addr count rate : Word) : Statement (.pcmBlock ch addr count rate) := rfl

end Sys2Proof.Laws.EncodedLength
end

