-- ==== Sys2Proof/Tests/Slice0.lean ====
section
/-! SUPPORT. Tests. Expected values are transcribed from the spec: 95_test_vectors.md (T, V and P numbers),
41_effect_params.md R157 and the encoding tables of 30_encoding.md. The witnesses at the end show, for each
statement with hypotheses, values that meet all of them. -/

namespace Sys2Proof.Tests

set_option Elab.async false

open Sys2Proof.Machine

/-! ### Helpers -/

/-- `CAP = 4`, `NBUF = 2`, threshold 4, slices up to 8. -/
def small : Config :=
  { Config.default with cap := 4, nbuf := 2, startThreshold := 4, maxSlice := 8 }

/-- After reset in the configuration `c`. -/
def fresh (c : Config) : State := State.resetWith c [] [] [] 0

/-- The spec's `F(i)`, the frame `(i, −i)`. -/
def F (i : Int) : Frame := ⟨BitVec.ofInt 16 i, BitVec.ofInt 16 (-i)⟩

/-- The mono frame `(i, i)`. -/
def mono (i : Int) : Frame := ⟨BitVec.ofInt 16 i, BitVec.ofInt 16 i⟩

/-- `s` with frames in PCM memory from sample address `a`. -/
def load (s : State) (a : Nat) (fs : List Frame) : State := { s with pcm := writeFrames s.pcm a 0 fs }

/-- The state after a next outcome; the state before it otherwise. -/
def after (s : State) (o : Host.Outcome State Fault Refusal) : State :=
  match o with
  | .next t => t
  | _ => s

/-- Commands one after another. -/
def run (is : List Instr) (s : State) : State := is.foldl (fun s i => after s (exec i s)) s

/-- `k` steps. -/
def steps (k : Nat) (s : State) : State := after s (Sys2Proof.core.run k s)

/-- The refusal, if the outcome is one. -/
def refusal (o : Host.Outcome State Fault Refusal) : Option Refusal :=
  match o with
  | .refused r => some r
  | _ => none

/-- `wi / ri / fc / underrun_count / overrun_count`. -/
def ringOf (s : State) : List Nat :=
  [s.ring.wi.toNat, s.ring.ri.toNat, s.ring.fc.toNat, s.ring.underrun.toNat, s.ring.overrun.toNat]

/-- The ring's slots. -/
def slotsOf (s : State) : List Frame :=
  (List.range s.cfg.cap).map (Cells.read Frame.silence s.ring.slots)

/-- `wp / rp / rc / rep / phase / prng`. -/
def effectOf (s : State) : List Nat :=
  [s.effect.wp.toNat, s.effect.rp.toNat, s.effect.rc.toNat, s.effect.rep.toNat, s.effect.phase.toNat,
    s.effect.prng.toNat]

/-- `active_index / dma_pos / irq_pending / running`. -/
def driverOf (s : State) : List Nat :=
  [s.driver.active.val, s.driver.dmaPos.toNat, s.driver.irqPending.toNat, s.driver.running.toNat]

/-! ### Well-formedness: the one check of R66, on each command with a PCM span -/

theorem test_brProc_span : (Instr.brProc 2 0xFFFFFFFE 2).wellFormed = false := by decide
theorem test_rbWrite_span : (Instr.rbWrite 0xFFFFFFFF 1).wellFormed = false := by decide
theorem test_rbCons_span : (Instr.rbCons 1 0x80000000).wellFormed = false := by decide
theorem test_pcmBlock_span : (Instr.pcmBlock 2 0xFFFFFFFE 2 44100).wellFormed = false := by decide
theorem test_span_at_the_top_fits : (Instr.rbWrite 0xFFFFFFFE 1).wellFormed = true := by decide
theorem test_span_is_refused :
    refusal (exec (.rbCons 0xFFFFFFFF 1) (fresh small)) = some .spanPastTop := by decide

/-! ### Decoding: the words of programs P1 to P5, header `OPC ‖ RSV ‖ IMM8` (R91), one or more per format -/

theorem test_decode_nop : decode [0x00FFFFFF] = .command .nop [] := by decide
theorem test_decode_brReset : decode [0x01000000] = .command .brReset [] := by decide
theorem test_decode_regWr :
    decode [0x02000004, 0x00640000] = .command (.regWr 0x04 0x00640000) [] := by decide
theorem test_decode_regRd : decode [0x03ABCD04] = .command (.regRd 0x04) [] := by decide
theorem test_decode_brProc :
    decode [0x04000002, 0x00000100, 0x0000000C] = .command (.brProc 2 0x100 12) [] := by decide
theorem test_decode_rbWrite :
    decode [0x10000000, 0x00001000, 0x0000001E] = .command (.rbWrite 0x1000 30) [] := by decide
theorem test_decode_rbCons :
    decode [0x11000000, 0x00002000, 0x00000032] = .command (.rbCons 0x2000 50) [] := by decide
theorem test_decode_rbClear : decode [0x12000000] = .command .rbClear [] := by decide
theorem test_decode_outStart : decode [0x20000000] = .command .outStart [] := by decide
theorem test_decode_outStop : decode [0x21000000] = .command .outStop [] := by decide
theorem test_decode_outXfer : decode [0x22000000] = .command .outXfer [] := by decide
theorem test_decode_pcmBlock : decode [0x30000002, 0x00000100, 0x00000006, 0x0000AC44] =
    .command (.pcmBlock 2 0x100 6 44100) [] := by decide
theorem test_decode_reserved : decode [0x7FABCDEF] = .command .nop [] := by decide
theorem test_decode_waits_for_operands :
    decode [0x30000002, 0x00000100, 0x00000006] = .rejected (.missingOperands 0x30) := by decide
theorem test_encode_pcmBlock : encode (.pcmBlock 2 0x100 6 44100) =
    [0x30000002, 0x00000100, 0x00000006, 0x0000AC44] := by decide

/-- The second example of R98. -/
theorem test_assembly : assembly (.pcmBlock 2 0x100 8 44100) = "PCM.BLOCK 2, 256, 8, 44100" ∧
    registerName 0x01 = some "slice_length" := by decide +kernel

/-- The first word of a table row is its low 32 bits. -/
theorem test_table_word :
    decodeTableWord 64 0x0064000002000004 = some (.regWr 0x04 0x00640000) := by decide

/-- `REG.RD FREE`, run as the first command after reset, answers `CAP`. -/
theorem test_first_step_runs_it :
    (steps 1 (State.reset.withFetchWord 32 0x03000011)).res = 44100 := by decide +kernel

/-! ### Sample primitives (V1 to V4) -/

theorem test_clip_V1 : [-40000, -32769, -32768, -1, 32767, 32768, 2147483648].map (fun v => (clip16 v).toInt) =
    [-32768, -32768, -32768, -1, 32767, 32767, 32767] := by decide
theorem test_pack_V1 : pack ⟨BitVec.ofInt 16 (-32768), 32767⟩ = 0x80007FFF ∧
    pack ⟨12345, BitVec.ofInt 16 (-12345)⟩ = 0x3039CFC7 := by decide
theorem test_lerp_V1 : (lerp16 (BitVec.ofInt 16 (-5)) 5 0x4000).toInt = -3 ∧
    (lerp16 32767 (BitVec.ofInt 16 (-32768)) 0xFFFF).toInt = -32768 := by decide
theorem test_gain_V1 : (gain16 (BitVec.ofInt 16 (-1)) 32768).toInt = -1 ∧ (gain16 12345 49152).toInt = 9258 := by
  decide
theorem test_mix_V1 : (mixpct (BitVec.ofInt 16 (-100)) (BitVec.ofInt 16 (-201)) 33).toInt = -133 ∧
    (mixpct 32767 (BitVec.ofInt 16 (-32768)) 1).toInt = 32111 := by decide
theorem test_sine_V1 : [0x0008, 0x0100, 0x2000, 0x4000, 0x7F00, 0x8100, 0xC000, 0xFFFF].map sinq15 =
    [0, 804, 23170, 32767, 804, -804, -32767, -804] := by decide
theorem test_lcg_V1 : lcgNext Config.default 1 = 0x3C88596C ∧
    lcgNext Config.default 0xFFFFFFFF = 0x3C558D52 := by decide
theorem test_envelope_V2 : [0, 65536, 49 * 65536, 950 * 65536, 951 * 65536, 999 * 65536].map
    (fun rp => envGain rp 1000 6554) = [0, 1310, 64225, 65536, 64225, 1310] := by decide
theorem test_window_V3 :
    loopWindow { Params.reset small with loopStart := 32768, loopSizeDecay := 16384 } 1 8 = ⟨4, 3⟩ ∧
    loopWindow { Params.reset small with loopSizeDecay := 60000 } 1 25 = ⟨0, 3⟩ := by decide
theorem test_pitch_V4 :
    pitchStep { Params.reset small with pitchMode := 1, pitchShift := 0x4000 } 0 0x10000 4 = 0xD000 ∧
    pitchStep { Params.reset small with pitchMode := 3, pitchShift := 0x18000 } 0xA000 0 4 = 0xF83D := by decide

/-! ### One command at a time -/

/-- R285. -/
theorem test_nop : run [.nop] (fresh small) = fresh small := by decide +kernel

/-- V28: the effect goes back to reset values, the parameters stay. -/
theorem test_brReset : (run [.brReset] { fresh small with
      effect := { Effect.reset small with wp := 2, rp := 0x20000, rep := true, phase := 16, prng := 0x3C88596C }
      res := 7 }) = { fresh small with res := 7 } := by decide +kernel

/-- R157: `pitch_shift` 100.0 stores 4.0. -/
theorem test_regWr_clamps :
    (run [.regWr 0x04 0x00640000] (fresh small)).params.pitchShift = 0x00040000 := by decide
/-- R157 and V5: `clock_divider` 3 stores 1, −1 stores `MIN_SLICE`, a status register ignores the write. -/
theorem test_regWr_corners : run [.regWr 0x0C 3, .regWr 0x10 99, .regWr 0x0F 1] (fresh small) = fresh small ∧
    (run [.regWr 0x07 0xFFFFFFFE] (fresh small)).params.stutterLength = 1 := by decide +kernel

/-- V5: the values after reset. -/
theorem test_regRd : [0x01, 0x04, 0x0B, 0x0F, 0x11, 0xFF].map (fun k => (run [.regRd k] (fresh small)).res) =
    [8, 0x10000, 65536, 0, 4, 0] := by decide +kernel

/-- T3: `slice_length = 4`, one repeat of `1, 2, 3, 4`, then dry until the next boundary. -/
theorem test_brProc_T3 :
    let s := run [.regWr 1 4, .regWr 2 1, .regWr 3 100, .regWr 0 1, .brProc 2 0x100 12]
      (load (fresh small) 0x100 (([1, 2, 3, 4, 0, 0, 0, 0, 0, 0, 0, 0] : List Int).map mono))
    blockFrames s.pcm 0x100 12 = ([1, 2, 3, 4, 1, 2, 3, 4, 0, 0, 0, 0] : List Int).map mono ∧
    effectOf s = [0, 0, 0, 1, 0, 0x5E8885DB] := by decide +kernel
/-- V14: speed 1.5, overshoot discarded, capture resumes mid-slice. -/
theorem test_brProc_V14 :
    let s := run [.regWr 1 4, .regWr 4 0x18000, .regWr 0 1, .brProc 2 0x100 12]
      (load (fresh small) 0x100 (([100, 200, 300, 400, 0, 0, 0, 0, 0, 0, 0, 0] : List Int).map mono))
    blockFrames s.pcm 0x100 12 =
      ([100, 200, 300, 400, 100, 250, 400, 0, 100, 250, 0, 0] : List Int).map mono ∧
    effectOf s = [0, 0, 0, 1, 0, 0x8116017E] := by decide +kernel

/-- V30 steps 1, 3 and 4, from step 2's ring: a wrap, then a full ring. -/
theorem test_rbWrite_V30 :
    let s := load (load (fresh small) 0x100 [F 1, F 2, F 3, F 4, F 5, F 6]) 0x200 [F 7, F 8]
    let s3 := run [.rbWrite 0x100 3, .rbCons 0x400 2, .rbWrite 0x106 3] s
    let s4 := run [.rbWrite 0x200 2] s3
    s3.res = 3 ∧ slotsOf s4 = [F 5, F 6, F 3, F 4] ∧ ringOf s4 = [2, 2, 4, 0, 2] ∧ s4.res = 0 := by
  decide +kernel
/-- P5 from its fourth command, by steps: the interrupt is taken after the first enqueue step, and the
command goes on where it was. -/
theorem test_rbWrite_P5 :
    let s := run [.rbWrite 0x100 4, .outStart, .rbWrite 0x200 3]
      { load (load (load (fresh small) 0x100 [F 1, F 2, F 3, F 4]) 0x200 [F 5, F 6, F 7])
        0x300 [F 8, F 9, F 10, F 11] with sched := [.fg, .fg, .fg] }
    let t := steps 5 { s with
      port := [0x10000000, 0x300, 4], sched := [.dma, .dma, .fg, .isr, .fg, .fg, .fg, .fg] }
    slotsOf t = [F 9, F 10, F 7, F 8] ∧ ringOf t = [2, 2, 4, 0, 1] ∧ t.res = 3 ∧ t.fg = .idle ∧
    driverOf t = [1, 0, 0, 1] ∧ t.driver.dbuf0 = [0x0005FFFB, 0x0006FFFA] ∧
    t.out = [0x0001FFFF, 0x0002FFFE] := by decide +kernel

/-- V30 step 5: four frames and one silence. -/
theorem test_rbCons_V30 :
    let s := load (fresh small) 0x100 [F 3, F 4, F 5, F 6]
    let t := run [.rbWrite 0x100 4, .rbCons 0x200 5] s
    blockFrames t.pcm 0x200 5 = [F 3, F 4, F 5, F 6, Frame.silence] ∧ ringOf t = [0, 0, 0, 1, 0] ∧
    t.res = 4 := by decide +kernel
/-- V31: the underrun counter saturates. -/
theorem test_rbCons_V31 :
    (run [.rbCons 0x200 3] { fresh small with ring := { Ring.reset with underrun := 0xFFFFFFFE } }).ring.underrun =
      0xFFFFFFFF := by decide +kernel

/-- V30 step 9. -/
theorem test_rbClear_V30 :
    let t := run [.rbClear] { fresh small with ring :=
      { slots := [(0, F 5), (2, F 9)], wi := 3, ri := 2, fc := 1, underrun := 1, overrun := 2 } }
    ringOf t = [0, 0, 0, 1, 2] ∧ slotsOf t = List.replicate 4 Frame.silence := by decide +kernel

/-- V41: three frames for four slots. -/
theorem test_outStart_V41 :
    let t := run [.rbWrite 0x100 3, .outStart] (load (fresh small) 0x100 [F 1, F 2, F 3])
    t.driver.dbuf0 = [0x0001FFFF, 0x0002FFFE] ∧ t.driver.dbuf1 = [0x0003FFFD, 0] ∧
    ringOf t = [3, 3, 0, 1, 0] ∧ driverOf t = [0, 0, 0, 1] := by decide +kernel

/-- V40 steps 10 to 12: a stop keeps the position, and an `OUT.XFER` after it changes nothing. -/
theorem test_outStop_V40 :
    let t := run [.outStop] (run [.outStart] (fresh small)).dmaStep
    driverOf t = [0, 1, 0, 0] ∧ run [.outXfer] t = t ∧ t.ready .dma = false := by decide +kernel

/-- V42: issued by HOST in mid-buffer. -/
theorem test_outXfer_V42 :
    let s := { fresh small with
      driver := { dbuf0 := [1, 2], dbuf1 := [3, 4], active := 0, running := true, dmaPos := 1, irqPending := false }
      ring := { Ring.reset with slots := [(0, F 5), (1, F 6)], wi := 2, fc := 2 } }
    let t := run [.outXfer] s
    driverOf t = [1, 0, 0, 1] ∧ t.driver.dbuf0 = [0x0005FFFB, 0x0006FFFA] ∧ t.driver.dbuf1 = [3, 4] ∧
    ringOf t = [2, 2, 0, 0, 0] := by decide +kernel

/-- P1 command 5, second phase of the vector: the processed block goes to the ring. -/
theorem test_pcmBlock_P1 :
    let s := run [.regWr 1 4, .regWr 3 50, .regWr 0 1, .brProc 2 0x100 4]
      (load (load (fresh small) 0x100 [F 100, F 200, F 300, F 400]) 0x200 [F 1000, F 2000, F 3000, F 4000])
    let t := run [.pcmBlock 2 0x200 4 44100] s
    blockFrames t.pcm 0x200 4 = [F 550, F 1100, F 1650, F 2200] ∧ t.res = 4 ∧
    effectOf t = [0, 0x40000, 1, 0, 32, 0x3C88596C] ∧ driverOf t = [0, 0, 0, 1] ∧
    t.driver.dbuf0 = [0x0226FDDA, 0x044CFBB4] := by decide +kernel
/-- P3 command 8: a channel mismatch still feeds the ring and starts the driver. -/
theorem test_pcmBlock_P3 :
    let t := run [.pcmBlock 1 0x300 4 0]
      (load (fresh small) 0x300 [⟨21, 22⟩, ⟨23, 24⟩, ⟨25, 26⟩, ⟨27, 28⟩])
    t.driver.dbuf0 = [0x00150016, 0x00170018] ∧ t.driver.dbuf1 = [0x0019001A, 0x001B001C] ∧ t.res = 4 ∧
    driverOf t = [0, 0, 0, 1] ∧ t.fg = .idle := by decide +kernel

/-- V40 steps 3 to 6: two words go out, the completion is latched, DMA waits, the handler runs. -/
theorem test_dma_and_interrupt_V40 :
    let s := run [.outStart] { fresh small with
      ring := { Ring.reset with slots := [(0, F 1), (1, F 2), (2, F 3), (3, F 4)], fc := 4 } }
    let t := steps 2 s
    t.out = [0x0001FFFF, 0x0002FFFE] ∧ t.ready .dma = false ∧ t.ready .isr = true ∧
    driverOf (steps 1 t) = [1, 0, 0, 1] := by decide +kernel

/-! ### Witnesses

Values that meet the hypotheses of each statement that has some, at the boundaries of its clauses. -/

/-- Running, half a buffer emitted, one frame left for a completion to fetch. -/
def running : State :=
  { fresh small with
    driver := { dbuf0 := [1, 2], dbuf1 := [3, 4], active := 0, running := true, dmaPos := 1, irqPending := false }
    ring := { Ring.reset with slots := [(0, F 5)], wi := 1, fc := 1 } }

/-- Running, the active buffer emitted whole: a completion is pending. -/
def completed : State := running.dmaStep

/-- Repeating a slice of eight captured frames, from its start. -/
def repeating : Effect :=
  { Effect.reset small with cap := [(0, F 1), (7, F 2)], rep := true }

/-- A full ring. -/
def fullRing : Ring := { Ring.reset with fc := 4 }

theorem configOk_small : configOk small = true := by decide

theorem paramsOk_reset : ParamsOk small (Params.reset small) := by constructor <;> decide

theorem effectOk_reset : EffectOk small (Effect.reset small) := by constructor <;> decide

theorem effectOk_repeating : EffectOk small repeating := by constructor <;> decide

theorem ringOk_reset : RingOk small Ring.reset := by constructor <;> decide

theorem ringOk_full : RingOk small fullRing := by constructor <;> decide

theorem inv_fresh : Inv (fresh small) where
  cfg := by decide
  params := paramsOk_reset
  effect := effectOk_reset
  ring := ringOk_reset
  driver := by constructor <;> decide
  pcm := by decide
  fg := trivial

theorem inv_running : Inv running where
  cfg := by decide
  params := paramsOk_reset
  effect := effectOk_reset
  ring := by constructor <;> decide
  driver := by constructor <;> decide
  pcm := by decide
  fg := trivial

theorem witness_DecodeIgnoresReservedBits :
    (opcodeOf 0x03ABCD04 = opcodeOf 0x03000004 ∧ immOf 0x03ABCD04 = immOf 0x03000004) ∧
    (opcodeOf 0x10FFFFFF = opcodeOf 0x10000000 ∧ immOf 0x10FFFFFF ≠ immOf 0x10000000 ∧
      opcodeOf 0x10FFFFFF ∈ ([0x00, 0x01, 0x10, 0x11, 0x12, 0x20, 0x21, 0x22] : List Byte)) := by decide

theorem witness_DecodeTakesTheWordsOfTheFormat :
    decode [0x02000001, 4, 0x12000000] = .command (.regWr 1 4) [0x12000000] ∧
    decode [] = .rejected .noHeader ∧
    decode [0x30000002, 0x100, 4] = .rejected (.missingOperands 0x30) := by decide

theorem witness_StepRunsTheDecodedCommand :
    let s := { running with port := [0x02000001, 4, 0x12000000], sched := [.fg] }
    configOk s.cfg = true ∧ s.fg = .idle ∧ decode s.port = .command (.regWr 1 4) [0x12000000] ∧
    s.turn = some .fg := by decide

theorem witness_ExecCompletesExactlyOnWellFormed :
    (Instr.rbWrite 0xFFFFFFFE 1).wellFormed = true ∧ (Instr.rbWrite 0xFFFFFFFF 1).wellFormed = false := by decide

theorem witness_StepRefusesOnlyBadSpans :
    configOk small = true ∧ configOk { small with cap := 0 } = false ∧
    configOk { small with maxSlice := 32769 } = false ∧
    refusal (step { fresh small with port := [0x11000000, 0xFFFFFFFF, 1] }) = some .spanPastTop := by decide

theorem witness_AnyEnabledAgentCanStepAndNoOther :
    completed.turn = some .isr ∧ (fresh small).turn = none ∧ running.ready .dma = true ∧
    ({ running with port := [0] } : State).ready .fg = true ∧
    ({ running with fg := .autoStart } : State).ready .fg = true ∧ running.ready .fg = false ∧
    ({ fresh small with host := [.reset] } : State).ready .host = true := by decide

theorem witness_HostActsOnlyBetweenCommands :
    configOk small = true ∧
    ∀ act ∈ [HostAct.word 0x30000002, .pcmWrite 0xFFFFFFFF 7, .reset],
      ({ running with host := [act], sched := [.host] } : State).turn = some .host := by decide

theorem witness_CommandsWriteOnlyTheirOwnState :
    exec .outStop running = .next { running with driver := running.driver.halt } ∧
    writesParams (.regRd 1) = false ∧ writesEffect .rbClear = false ∧ writesRing .outStop = false ∧
    writesDriver (.rbWrite 0 1) = false ∧ writesRes .outXfer = false ∧ writesPcm (.rbWrite 0 1) = false ∧
    preemptible (.rbCons 0 1) = false := by
  refine ⟨rfl, ?_⟩
  decide

theorem witness_mayStore : mayStore (.rbCons 0xFFFFFFFE 1) (2 ^ 33 - 1) ∧
    ¬ mayStore (.rbCons 0x100 4) 0x1FF ∧ mayStore (.rbCons 0x100 4) 0x20F ∧
    ¬ mayStore (.rbCons 0x100 4) 0x210 := by
  simp [mayStore, inBlock]

theorem witness_StepKeepsTheInvariant : Inv running ∧ step running = .next running.dmaStep :=
  ⟨inv_running, rfl⟩

theorem witness_ResetMeetsTheInvariant : configOk small = true ∧ Memory.wf [(0x200, 7)] = true := by decide

theorem witness_ConfigurationIsFixed : step running = .next running.dmaStep := rfl

theorem witness_CountersNeverDecrease :
    step running = .next running.dmaStep ∧ (running.turn = some .host → running.host.head? ≠ some .reset) :=
  ⟨rfl, by decide⟩

theorem witness_NopChangesNothing :
    ([0x00FFFFFF, 0x05000000, 0x0F000000, 0x13000000, 0x1F000000, 0x23000000, 0x2F000000, 0x31000000,
      0xFF000000] : List Word).all (fun h =>
      !([0x01, 0x02, 0x03, 0x04, 0x10, 0x11, 0x12, 0x20, 0x21, 0x22, 0x30] : List Byte).contains (opcodeOf h)) =
        true := by decide

theorem witness_headers :
    (opcodeOf 0x0200000E = 0x02 ∧ immOf 0x0200000E = 0x0E) ∧ (opcodeOf 0x030000FF = 0x03 ∧ immOf 0x030000FF = 0xFF) ∧
    opcodeOf 0x01FFFFFF = 0x01 ∧ opcodeOf 0x12000001 = 0x12 := by decide

theorem witness_RegWrStoresTheLegalValue :
    (0x0E : Byte).toNat ≤ 0x0E ∧ ¬ (0x0F : Byte).toNat ≤ 0x0E ∧ ¬ (0xFF : Byte).toNat ≤ 0x0E := by decide

theorem witness_LegalValuesAreTheTable : configOk small = true ∧ configOk Config.default = true := by decide

theorem witness_RegRdReadsTheRegister :
    (0x0E : Byte).toNat ≤ 0x0E ∧ (0x0F : Byte).toNat = 0x0F ∧ (0x10 : Byte).toNat = 0x10 ∧
    ((0x11 : Byte).toNat = 0x11 ∧ configOk small = true ∧ fullRing.fc.toNat ≤ small.cap) ∧
    (0x12 : Byte).toNat = 0x12 ∧ (0x13 : Byte).toNat = 0x13 ∧ 0x14 ≤ (0x14 : Byte).toNat ∧
    0x14 ≤ (0xFF : Byte).toNat := by decide

theorem witness_RegisterWritesCommute : (0x01 : Byte) ≠ 0x0F := by decide

theorem witness_SetParamsThenGetParams : configOk (fresh small).cfg = true := by decide

theorem witness_LerpStaysBetweenItsSamples : (0 : Nat) < 65536 ∧ (65535 : Nat) < 65536 := by decide

theorem witness_GainNeverAmplifies : (0 : Nat) ≤ 65536 ∧ (65536 : Nat) ≤ 65536 := by decide

theorem witness_MixStaysBetweenDryAndWet : (0 : Nat) ≤ 100 ∧ (100 : Nat) ≤ 100 := by decide

/-- `loop_len` 1000 at shape 0.1 has a fade of 50 frames: the last position of the fade-in, the first and last
position between the fades, the first and the last of the fade-out; shape 0 has none. -/
theorem witness_EnvelopeGainIsAtMostOne :
    1 ≤ 1000 ∧ 1000 ≤ 32768 ∧ 1000 * 65536 - 1 < 1000 * 65536 ∧ 6554 ≤ 65536 ∧
    1 ≤ 1000 * 6554 / 2 ^ 17 ∧ 50 = 1000 * 6554 / 2 ^ 17 ∧ 0 = 1000 * 0 / 2 ^ 17 ∧
    50 * 65536 - 1 < 50 * 65536 ∧
    (50 * 65536 ≤ 50 * 65536 ∧ 50 * 65536 + 50 * 65536 < 1000 * 65536) ∧
    950 * 65536 - 1 + 50 * 65536 < 1000 * 65536 ∧
    (50 * 65536 ≤ 950 * 65536 ∧ 1000 * 65536 ≤ 950 * 65536 + 50 * 65536) ∧
    1000 * 65536 ≤ 1000 * 65536 - 1 + 50 * 65536 := by decide

theorem witness_SineIsOddAndInRange :
    (65535 : Nat) < 65536 ∧ 0x4100 < 65536 ∧ 0x4100 % 256 = 0 ∧ 0x4100 ≤ 32768 ∧ 32768 % 256 = 0 := by decide

theorem witness_BypassChangesNothing :
    spanFits 0x100 8 = true ∧ (1 : Byte) ≠ 2 ∧ (fresh small).params.enabled = 0 := by decide

theorem witness_BrProcIsTheFrameStepOverTheBlock :
    let s := run [.regWr 0 1] (load (fresh small) 0x100 [F 1, F 2])
    spanFits 0x100 2 = true ∧ s.pcm.wf = true ∧ s.params.enabled ≠ 0 := by decide +kernel

theorem witness_BlocksCanBeSplit :
    (3 : Word).toNat + (5 : Word).toNat < 2 ^ 32 ∧ spanFits 0x100 (3 + 5) = true := by decide

theorem witness_NotRepeatingOutputsDry : (Effect.reset small).rep = false := rfl

theorem witness_RepeatingOutputIsDryOrWet :
    let p := Params.reset small
    let e : Effect := { repeating with rp := 8 * 65536 }
    ParamsOk small p ∧ e.rep = true ∧ p.wetMix = 100 ∧ p.windowShape = 0 ∧
    ({ p with wetMix := 0 } : Params).wetMix = 0 ∧
    (⟨0, 8⟩ : Window) = loopWindow p e.rc.toNat (activeSliceLength p) ∧
    0 = (if e.rp.toNat < 8 * 65536 then e.rp.toNat else 0) ∧
    F 1 = lerpFrame (Cells.read Frame.silence e.cap (0 + (readIndices p 0 8).i0))
      (Cells.read Frame.silence e.cap (0 + (readIndices p 0 8).i1)) (readIndices p 0 8).f ∧
    65536 = envGain 0 8 p.windowShape.toNat :=
  ⟨paramsOk_reset, by decide⟩

theorem witness_CaptureAndSliceClock : configOk small = true ∧ EffectOk small (Effect.reset small) :=
  ⟨configOk_small, effectOk_reset⟩

theorem witness_GateDrawsOncePerBoundary :
    let p := Params.reset small
    let e := { Effect.reset small with wp := 7 }
    (e.rep = false ∧ p.freeze = 0 ∧ activeSliceLength p ≤ e.wp.toNat + 1 ∧
      (frameStep small p e (F 1)).1.prng.toNat / 65536 < p.probability.toNat) ∧
    ({ p with probability := 0 } : Params).probability.toNat ≤
      (frameStep small { p with probability := 0 } e (F 1)).1.prng.toNat / 65536 ∧
    repeating.rep = true ∧ ({ p with freeze := 1 } : Params).freeze ≠ 0 ∧
    ({ e with wp := 6 } : Effect).wp.toNat + 1 < activeSliceLength p := by decide

theorem witness_ActiveSliceLengthFitsTheCapture :
    let p := { Params.reset small with stutterEnabled := 1 }
    configOk small = true ∧ (ParamsOk small (Params.reset small) ∧ (Params.reset small).stutterEnabled = 0) ∧
    ParamsOk small p ∧ p.stutterEnabled = 1 :=
  ⟨configOk_small, ⟨paramsOk_reset, rfl⟩, by constructor <;> decide, rfl⟩

theorem witness_LoopWindowStaysInTheSlice :
    let p := { Params.reset small with loopStart := 32768, loopSizeDecay := 16384 }
    1 ≤ 8 ∧ 4 = 8 - (loopWindow p 1 8).off ∧ 16384 = min (1 * p.loopSizeDecay.toNat) 65536 := by decide

/-- Window length 4: an integer position, the last position there is, and R188's fractional examples, forward
at 3.5 and reversed at 1.5. -/
theorem witness_ReadPositionsStayInTheWindow :
    1 ≤ 4 ∧ 3 * 65536 < 4 * 65536 ∧ 3 * 65536 % 65536 = 0 ∧ 4 * 65536 - 1 < 4 * 65536 ∧
    (0x38000 < 4 * 65536 ∧ 0x38000 = (if (Params.reset small).reverse = 0 then 0x38000 else 0)) ∧
    (0x18000 < 4 * 65536 ∧ 0x18000 = (if ({ Params.reset small with reverse := 1 } : Params).reverse = 0 then 0
      else (2 * (4 * 65536) - 65536 - 0x18000) % (4 * 65536))) := by decide

theorem witness_PitchStepIsPositiveAndBounded :
    ParamsOk small (Params.reset small) ∧ 65535 < 65536 ∧ 1 ≤ 4 ∧ 0x3FFFF < 4 * 65536 ∧
    (Params.reset small).pitchMode = 0 ∧ (Params.reset small).pitchMode.toNat ≤ 2 ∧
    ((65536 : Int) = (Params.reset small).pitchShift.toNat ∧ (65535 : Int) = (0x3FFFF / 4 : Nat)) :=
  ⟨paramsOk_reset, by decide⟩

theorem witness_pitchModes :
    ParamsOk small { Params.reset small with pitchMode := 1 } ∧
    ParamsOk small { Params.reset small with pitchMode := 2, pitchShift := 0x4000 } ∧
    ParamsOk small { Params.reset small with pitchMode := 3, pitchShift := 0x40000 } :=
  ⟨by constructor <;> decide, by constructor <;> decide, by constructor <;> decide⟩

theorem witness_RepeatingPositionStaysInTheWindow :
    configOk small = true ∧ ParamsOk small (Params.reset small) ∧ EffectOk small repeating ∧
    repeating.rep = true ∧ (frameStep small (Params.reset small) repeating (F 3)).1.rep = true ∧
    8 = (loopWindow (Params.reset small) repeating.rc.toNat (activeSliceLength (Params.reset small))).len ∧
    (65536 : Int) = (0 : Nat) + pitchStep (Params.reset small) repeating.phase.toNat 0 8 ∧
    65536 < 8 * 65536 :=
  ⟨configOk_small, paramsOk_reset, effectOk_repeating, by decide⟩

/-- At the end of the loop: frozen; not frozen, with the last pass and with one more to go. -/
theorem witness_loopEnds :
    let e : Effect := { repeating with rp := 7 * 65536 }
    let p := Params.reset small
    EffectOk small e ∧ 7 * 65536 = (if e.rp.toNat < 8 * 65536 then e.rp.toNat else 0) ∧
    (8 * 65536 : Int) = (7 * 65536 : Nat) + pitchStep p e.phase.toNat (7 * 65536) 8 ∧ p.freeze = 0 ∧
    p.repeatCount.toNat ≤ e.rc.toNat + 1 ∧
    (ParamsOk small { p with freeze := 1 } ∧ ({ p with freeze := 1 } : Params).freeze = 1) ∧
    ParamsOk small { p with repeatCount := 2 } ∧ e.rc.toNat + 1 < (2 : Word).toNat :=
  ⟨by constructor <;> decide, by decide, by decide, by decide, by decide,
    ⟨by constructor <;> decide, rfl⟩, by constructor <;> decide, by decide⟩

theorem witness_PlainRepeatReplaysTheSlice :
    let p := Params.reset small
    configOk small = true ∧ ParamsOk small p ∧ EffectOk small repeating ∧ p.pitchMode = 0 ∧
    p.pitchShift = 0x10000 ∧ p.reverse = 0 ∧ p.windowShape = 0 ∧ p.loopStart = 0 ∧ p.loopSizeDecay = 0 ∧
    p.wetMix = 100 ∧ p.freeze = 0 ∧ repeating.rep = true ∧ repeating.rp = 0 ∧
    (List.replicate 8 (F 9)).length = activeSliceLength p :=
  ⟨configOk_small, paramsOk_reset, effectOk_repeating, by decide⟩

theorem witness_PassEndsWithinEightWindows :
    let p := Params.reset small
    configOk small = true ∧ ParamsOk small p ∧ EffectOk small repeating ∧ p.freeze = 0 ∧
    repeating.rep = true ∧
    (List.replicate 64 (F 9)).length = 8 * (loopWindow p repeating.rc.toNat (activeSliceLength p)).len :=
  ⟨configOk_small, paramsOk_reset, effectOk_repeating, by decide⟩

theorem witness_EnqueueAppendsTheNewestFrame :
    configOk small = true ∧ (RingOk small fullRing ∧ fullRing.fc.toNat = small.cap) ∧
    (RingOk small Ring.reset ∧ Ring.reset.fc.toNat ≠ small.cap) :=
  ⟨configOk_small, ⟨ringOk_full, by decide⟩, ringOk_reset, by decide⟩

theorem witness_ConsumeServesOldestThenSilence : configOk small = true ∧ RingOk small fullRing :=
  ⟨configOk_small, ringOk_full⟩

/-- Stopped, and Running with the listed turns FG's. -/
theorem witness_RbWriteKeepsWhatFits :
    let s := { running with sched := List.replicate 6 .fg }
    spanFits 0x100 6 = true ∧
    (configOk (fresh small).cfg = true ∧ RingOk small (fresh small).ring ∧ (fresh small).fgTurns 6 ∧
      (fresh small).quiet) ∧
    configOk s.cfg = true ∧ RingOk s.cfg s.ring ∧ s.fgTurns 6 ∧ ¬ s.quiet :=
  ⟨by decide, ⟨configOk_small, ringOk_reset, .inl ⟨by decide, by decide⟩, by decide, by decide⟩,
    configOk_small, inv_running.ring, .inr (by decide), fun h => absurd h.2 (by decide)⟩

/-- A command of `owner` before its last frame and before its accounting step, with FG's turn next. -/
def Waiting (owner : WriteOwner) : Prop :=
  let s := { running with fg := .writing owner 0x100 4 3 3, sched := [.fg, .dma] }
  let a := { running with fg := .accounting owner 4 4, sched := [.fg] }
  (configOk s.cfg = true ∧ RingOk s.cfg s.ring ∧ s.fg = .writing owner 0x100 4 3 3 ∧
    3 < (4 : Word).toNat ∧ s.turn = some .fg) ∧
  configOk a.cfg = true ∧ a.fg = .accounting owner 4 4 ∧ a.turn = some .fg

/-- Each command waiting inside its write phase, and `PCM.BLOCK` before its auto-start test. -/
theorem witness_WriteInProgressGoesOn :
    let t := { fresh small with fg := .autoStart }
    Waiting .rbWrite ∧ Waiting .pcmBlock ∧ configOk t.cfg = true ∧ t.fg = .autoStart ∧ t.turn = some .fg :=
  ⟨⟨⟨configOk_small, inv_running.ring, rfl, by decide, by decide⟩, configOk_small, rfl, by decide⟩,
    ⟨⟨configOk_small, inv_running.ring, rfl, by decide, by decide⟩, configOk_small, rfl, by decide⟩,
    configOk_small, rfl, by decide⟩

theorem witness_RbConsFillsTheDestination :
    spanFits 0x100 5 = true ∧ configOk running.cfg = true ∧ RingOk running.cfg running.ring ∧
    running.pcm.wf = true := ⟨by decide, configOk_small, inv_running.ring, by decide⟩

theorem witness_DriverNoOps : running.driver.running = true ∧ (fresh small).driver.running = false := by decide

theorem witness_OutStartFillsBothBuffers :
    configOk (fresh small).cfg = true ∧ RingOk small (fresh small).ring ∧
    (fresh small).driver.running = false := ⟨configOk_small, ringOk_reset, by decide⟩

theorem witness_OutStopHaltsAtOnce : running.driver.running = true := rfl

theorem witness_OutXferSwapsAndRefills :
    configOk running.cfg = true ∧ RingOk running.cfg running.ring ∧ running.driver.running = true :=
  ⟨configOk_small, inv_running.ring, rfl⟩

theorem witness_InterruptRunsTheOneHandler :
    configOk completed.cfg = true ∧ completed.turn = some .isr ∧ completed.driver.running = true := by decide

theorem witness_DmaStepEmitsOneWord :
    configOk running.cfg = true ∧ DriverOk running.cfg running.driver ∧ running.turn = some .dma :=
  ⟨configOk_small, inv_running.driver, by decide⟩

theorem witness_BufferIsEmittedInOrder :
    let s := { running with driver := { running.driver with dmaPos := 0 } }
    configOk s.cfg = true ∧ DriverOk s.cfg s.driver ∧ s.driver.running = true ∧ s.driver.dmaPos = 0 ∧
    2 ≤ s.cfg.nbuf := ⟨configOk_small, by constructor <;> decide, by decide⟩

/-- The handler, an `OUT.XFER` off the port, and a step that is neither. -/
theorem witness_ActiveIndexAlternates :
    (step completed = .next completed.takeInterrupt ∧ completed.driver.running = true ∧
      completed.takeInterrupt.driver.running = true ∧ completed.turn = some .isr) ∧
    (let s : State := { running with port := [0x22000000], sched := [.fg] };
      (after s (step s)).driver.running = true ∧ s.turn = some .fg ∧ s.fg = .idle ∧
      decode s.port = .command .outXfer []) ∧
    (step running = .next running.dmaStep ∧ running.dmaStep.driver.running = true ∧
      running.turn = some .dma) ∧
    running.driver.running = true ∧ running.driver.active = 0 :=
  ⟨⟨rfl, by decide⟩, by decide +kernel, ⟨rfl, by decide⟩, by decide⟩

theorem witness_NoStepWritesTheActiveBuffer :
    step completed = .next completed.takeInterrupt ∧ completed.driver.running = true ∧
    completed.takeInterrupt.driver.running = true := ⟨rfl, by decide⟩

/-- Stopped, and Running with the listed turns FG's. -/
theorem witness_PcmBlockIsProcessWriteAutoStart :
    let s := { running with sched := List.replicate 8 .fg }
    spanFits 0x100 6 = true ∧ configOk small = true ∧
    ((fresh small).fgTurns ((6 : Word).toNat + 2) ∧ (fresh small).quiet ∧ RingOk small (fresh small).ring) ∧
    s.fgTurns ((6 : Word).toNat + 2) ∧ ¬ s.quiet ∧ RingOk s.cfg s.ring ∧ s.driver.running = true :=
  ⟨by decide, configOk_small, ⟨.inl ⟨by decide, by decide⟩, ⟨by decide, by decide⟩, ringOk_reset⟩,
    .inr (by decide), fun h => absurd h.2 (by decide), inv_running.ring, rfl⟩

end Sys2Proof.Tests
end

namespace Sys2Proof.Machine

/-! ### No operation writes the configuration (R8)

The operations whose definition branches; for the others Laws/State.lean has the lemma. -/

variable {s t : State}

@[simp] theorem State.startDriver_cfg : s.startDriver.cfg = s.cfg := by
  rcases s.startDriver_cases with ⟨-, h⟩ | ⟨-, h⟩ <;> simp [h]

@[simp] theorem State.stopDriver_cfg : s.stopDriver.cfg = s.cfg := by
  rcases s.stopDriver_cases with ⟨-, h⟩ | ⟨-, h⟩ <;> simp [h]

@[simp] theorem State.transferComplete_cfg : s.transferComplete.cfg = s.cfg := by
  rcases s.transferComplete_cases with ⟨-, h⟩ | ⟨-, h⟩ <;> simp [h]

@[simp] theorem State.takeInterrupt_cfg : s.takeInterrupt.cfg = s.cfg :=
  State.transferComplete_cfg

@[simp] theorem State.process_cfg {ch : Byte} {addr count : Word} :
    (s.process ch addr count).cfg = s.cfg := by
  rcases s.process_cases ch addr count with ⟨-, h⟩ | ⟨-, -, h⟩ <;> simp [h]

@[simp] theorem State.enqueueStep_cfg {owner : WriteOwner} {addr count : Word} {i n : Nat} :
    (s.enqueueStep owner addr count i n).cfg = s.cfg := by
  rcases s.enqueueStep_cases owner addr count i n with ⟨-, h⟩ | ⟨-, h⟩ <;> simp [h]

@[simp] theorem State.autoStartStep_cfg : s.autoStartStep.cfg = s.cfg := by
  rcases s.autoStartStep_cases with ⟨-, -, h⟩ | ⟨-, h⟩ <;> simp [h]

@[simp] theorem State.hostStep_cfg : s.hostStep.cfg = s.cfg := by
  unfold State.hostStep
  split <;> simp

@[simp] theorem State.fgStep_cfg : s.fgStep.cfg = s.cfg := by
  unfold State.fgStep
  split <;> simp

@[simp] theorem State.fgContinue_cfg {k : Nat} : (State.fgContinue k s).cfg = s.cfg :=
  State.fgContinue_induction (P := fun u => u.cfg = s.cfg)
    (fun _ h => State.spendTurn_cfg.trans h) (fun _ h => State.fgStep_cfg.trans h) rfl

@[simp] theorem State.fgRun_cfg : s.fgRun.cfg = s.cfg :=
  State.fgContinue_cfg.trans State.fgStep_cfg

/-- A command whose span is checked (R66) keeps the configuration if the state it answers does. -/
theorem cfg_of_spanFits {addr count : Word} {u : State}
    (h : (if spanFits addr count then .next u else .refused .spanPastTop :
      Host.Outcome State Fault Refusal) = .next t) (hu : u.cfg = s.cfg) : t.cfg = s.cfg := by
  split at h
  · cases h
    exact hu
  · cases h

theorem execRegWr_cfg {idx : Byte} {data : Word} (h : execRegWr idx data s = .next t) :
    t.cfg = s.cfg := by
  unfold execRegWr at h
  split at h
  · cases h
    simp
  · cases h
    rfl

/-- No command changes the configuration. -/
theorem exec_cfg {i : Instr} (h : exec i s = .next t) : t.cfg = s.cfg := by
  cases i with
  | nop => cases h; rfl
  | brReset => cases h; rfl
  | regWr idx data => exact execRegWr_cfg h
  | regRd idx => cases h; rfl
  | brProc ch addr count => exact cfg_of_spanFits h State.process_cfg
  | rbWrite addr count =>
    exact cfg_of_spanFits h (State.fgRun_cfg.trans State.beginWrite_cfg)
  | rbCons addr count => exact cfg_of_spanFits h rfl
  | rbClear => cases h; rfl
  | outStart => cases h; exact State.startDriver_cfg
  | outStop => cases h; exact State.stopDriver_cfg
  | outXfer => cases h; exact State.transferComplete_cfg
  | pcmBlock ch addr count rate =>
    exact cfg_of_spanFits h
      (State.fgContinue_cfg.trans (State.beginWrite_cfg.trans State.process_cfg))

/-- Settles O14: by the agent that has the turn; for a command of FG, by `exec_cfg`. -/
theorem configurationIsFixed : Obligations.ConfigurationIsFixed := by
  intro s t h
  obtain ⟨-, ⟨-, rfl⟩ | ⟨-, rfl⟩ | ⟨-, rfl⟩ | ⟨-, rfl⟩ | ⟨-, -, rfl⟩ | ⟨-, -, -, rfl⟩ |
    ⟨-, -, i, rest, -, hexec⟩⟩ := step_cases h
  · rfl
  · exact State.hostStep_cfg
  · exact State.takeInterrupt_cfg
  · exact State.dmaStep_cfg
  · exact State.fgRun_cfg
  · exact State.spendTurn_cfg
  · calc t.cfg = (s.spendTurn.withPort rest).cfg := exec_cfg hexec
      _ = s.cfg := rfl

end Sys2Proof.Machine

namespace Sys2Proof.Machine

/-! ### The constraints of R8 that the proofs use -/

/-- The bounds `configOk` puts on the ring, the buffers and the slices (R8). -/
structure ConfigBounds (c : Config) : Prop where
  cap_pos : 1 ≤ c.cap
  cap_lt : c.cap < 2 ^ 32
  nbuf_pos : 1 ≤ c.nbuf
  nbuf_lt : c.nbuf < 2 ^ 32
  minSlice_pos : 1 ≤ c.minSlice
  minSlice_le : c.minSlice ≤ c.maxSlice
  maxSlice_le : c.maxSlice ≤ 32768

theorem configBounds {c : Config} (h : configOk c = true) : ConfigBounds c := by
  simp only [configOk, decide_eq_true_eq] at h
  obtain ⟨-, hcap, hcap', hnbuf, hnbuf', -, -, hmin, hmax, hmax', -⟩ := h
  exact ⟨hcap, hcap', hnbuf, hnbuf', hmin, hmax, hmax'⟩

/-- A number below `2^32` is kept whole by a 32-bit word. -/
theorem toNat_ofNat_word {n : Nat} (h : n < 2 ^ 32) : (BitVec.ofNat 32 n).toNat = n :=
  (BitVec.toNat_ofNat n 32).trans (Nat.mod_eq_of_lt h)

/-! ### The clamp functions of R41 -/

section Clamps

variable {lo hi : Nat} {data : Word}

theorem clampInt_eq {v lo hi : Int} (h : lo ≤ hi) : clampInt v lo hi = max lo (min hi v) := by
  unfold clampInt
  split
  · omega
  · split <;> omega

/-- A word read as `int32` and clamped (R41). -/
theorem legalNumber_toInt (h : lo ≤ hi) (hhi : hi < 2 ^ 31) :
    (legalNumber lo hi data).toInt = max (lo : Int) (min (hi : Int) data.toInt) := by
  rw [legalNumber, clampInt_eq (by omega)]
  exact BitVec.toInt_ofInt_eq_self (by omega) (by omega) (by omega)

/-- A clamped number lies between its bounds, as a `uint32` too: both are below `2^31`. -/
theorem legalNumber_bounds (h : lo ≤ hi) (hhi : hi < 2 ^ 31) :
    lo ≤ (legalNumber lo hi data).toNat ∧ (legalNumber lo hi data).toNat ≤ hi := by
  have hclamped := legalNumber_toInt (data := data) h hhi
  have hsign := BitVec.toInt_eq_toNat_cond (legalNumber lo hi data)
  have hlt := (legalNumber lo hi data).isLt
  split at hsign <;> omega

theorem legalBool_eq_zero_or_one : legalBool data = 0 ∨ legalBool data = 1 := by
  unfold legalBool
  split
  · exact .inl rfl
  · exact .inr rfl

theorem legalDivider_mem : legalDivider data = 1 ∨ legalDivider data = 2 ∨ legalDivider data = 4 ∨
    legalDivider data = 8 := by
  unfold legalDivider
  split
  · assumption
  · exact .inl rfl

/-- `uint32` and `int32` agree on the divisors that `clock_divider` admits (R41). -/
theorem legalDivider_toInt : (legalDivider data).toInt =
    if data.toInt ∈ ([1, 2, 4, 8] : List Int) then data.toInt else 1 := by
  have hmem : data.toInt ∈ ([1, 2, 4, 8] : List Int) ↔ data = 1 ∨ data = 2 ∨ data = 4 ∨ data = 8 := by
    simp only [List.mem_cons, List.not_mem_nil, or_false, ← BitVec.toInt_inj]
    rfl
  simp only [legalDivider, hmem]
  split
  · rfl
  · rfl

end Clamps

/-- Settles O19: each row of R41's table is one of three clamps, whose value is known by
`legalNumber_toInt`, `legalDivider_toInt` or the definition of `legalBool`. -/
theorem legalValuesAreTheTable : Obligations.LegalValuesAreTheTable := by
  intro c data hc
  have hb := configBounds hc
  have hmin := hb.minSlice_le
  have hmax := hb.maxSlice_le
  refine ⟨?booleans, ?slices, legalNumber_toInt (by omega) (by omega),
    legalNumber_toInt (by omega) (by omega), legalNumber_toInt (by omega) (by omega), ?fractions,
    legalDivider_toInt, legalNumber_toInt (by omega) (by omega)⟩
  case booleans =>
    have hzero : data = 0#32 ↔ data.toNat = 0 := BitVec.toNat_eq
    simp [legalValue, legalBool, hzero]
  case slices =>
    simpa [legalValue] using legalNumber_toInt (data := data) hmin (by omega)
  case fractions =>
    simpa [legalValue] using legalNumber_toInt (data := data) (lo := 0) (hi := 65536) (by omega) (by omega)

/-! ### Writes keep the parameter registers legal (R151) -/

/-- A register write stores a legal value, at every index that holds a parameter. -/
theorem ParamsOk.set_legalValue {c : Config} {p : Params} (h : ParamsOk c p) (hc : configOk c = true)
    (data : Word) : ∀ k ≤ 0x0E, ParamsOk c (p.set k (legalValue c k data)) := by
  have hb := configBounds hc
  have hmin := hb.minSlice_le
  have hmax := hb.maxSlice_le
  intro k hk
  match k with
  | 0x00 => exact { h with enabled := legalBool_eq_zero_or_one }
  | 0x01 => exact { h with sliceLength := legalNumber_bounds hmin (by omega) }
  | 0x02 => exact { h with repeatCount := legalNumber_bounds (by omega) (by omega) }
  | 0x03 => exact { h with wetMix := (legalNumber_bounds (by omega) (by omega)).2 }
  | 0x04 => exact { h with pitchShift := legalNumber_bounds (by omega) (by omega) }
  | 0x05 => exact { h with reverse := legalBool_eq_zero_or_one }
  | 0x06 => exact { h with stutterEnabled := legalBool_eq_zero_or_one }
  | 0x07 => exact { h with stutterLength := legalNumber_bounds hmin (by omega) }
  | 0x08 => exact { h with windowShape := (legalNumber_bounds (by omega) (by omega)).2 }
  | 0x09 => exact { h with loopStart := (legalNumber_bounds (by omega) (by omega)).2 }
  | 0x0A => exact { h with loopSizeDecay := (legalNumber_bounds (by omega) (by omega)).2 }
  | 0x0B => exact { h with probability := (legalNumber_bounds (by omega) (by omega)).2 }
  | 0x0C => exact { h with clockDivider := legalDivider_mem }
  | 0x0D => exact { h with pitchMode := (legalNumber_bounds (by omega) (by omega)).2 }
  | 0x0E => exact { h with freeze := legalBool_eq_zero_or_one }

end Sys2Proof.Machine

namespace Sys2Proof.Machine

/-! ### Reset -/

theorem ParamsOk.reset {c : Config} (hb : ConfigBounds c) : ParamsOk c (Params.reset c) := by
  have hmax := hb.maxSlice_le
  have hlength : (BitVec.ofNat 32 c.maxSlice).toNat = c.maxSlice := toNat_ofNat_word (by omega)
  have hslice : c.minSlice ≤ (BitVec.ofNat 32 c.maxSlice).toNat ∧
      (BitVec.ofNat 32 c.maxSlice).toNat ≤ c.maxSlice := by
    rw [hlength]
    exact ⟨hb.minSlice_le, le_rfl⟩
  constructor
  case sliceLength => exact hslice
  case stutterLength => exact hslice
  all_goals simp [Params.reset]

theorem EffectOk.reset {c : Config} (hb : ConfigBounds c) : EffectOk c (Effect.reset c) where
  cap := rfl
  wp := hb.minSlice_pos.trans hb.minSlice_le
  rp := Nat.zero_le _
  rc := Nat.zero_le _
  rcWhileRepeating := by simp [Effect.reset]
  phase := by simp [Effect.reset]

theorem DriverOk.reset {c : Config} : DriverOk c (Driver.reset c) where
  dbuf0 := List.length_replicate
  dbuf1 := List.length_replicate
  dmaPos := Nat.zero_le _
  irqPending := by simp [Driver.reset]

/-- An empty ring is in order, whatever its counters are (R49). -/
theorem RingOk.clear {c : Config} (hb : ConfigBounds c) (r : Ring) : RingOk c r.clear where
  slots := rfl
  fc := Nat.zero_le _
  wi := hb.cap_pos
  ri := hb.cap_pos
  indices := (Nat.zero_mod c.cap).symm

/-- The reset state of any legal configuration meets the invariant. -/
theorem Inv.resetWith {c : Config} {pcm : Memory} (hc : configOk c = true) (hpcm : pcm.wf = true)
    (host : List HostAct) (sched : List Agent) (tick : Nat) :
    Inv (State.resetWith c pcm host sched tick) where
  cfg := hc
  params := ParamsOk.reset (configBounds hc)
  effect := EffectOk.reset (configBounds hc)
  ring := RingOk.clear (configBounds hc) Ring.reset
  driver := DriverOk.reset
  pcm := hpcm
  fg := trivial

/-- Settles O12: the default configuration is a legal one, and the empty memory is in canonical form. -/
theorem resetMeetsTheInvariant : Obligations.ResetMeetsTheInvariant :=
  ⟨Inv.resetWith (by decide) rfl [] [] 0,
    fun _ _ host sched tick hc hpcm => Inv.resetWith hc hpcm host sched tick⟩

/-- Settles O13: each word of the reset state is the entry of its table, and the registers are read
back through `Params.get` and `regRead`. -/
theorem hardwareResetValues : Obligations.HardwareResetValues := by
  intro s
  have hbuf (b : Fin 2) : s.hardwareReset.driver.buf b = List.replicate s.cfg.nbuf 0 := by
    match b with
    | 0 => rfl
    | 1 => rfl
  exact ⟨fun _ => rfl, rfl, rfl, rfl, rfl, rfl, rfl, fun _ => rfl, rfl, rfl, rfl, rfl, rfl, hbuf,
    rfl, rfl, rfl, rfl, rfl, rfl, rfl, rfl, rfl, rfl, rfl⟩

/-! ### The ring keeps its invariant (R49) -/

section RingInvariant

variable {c : Config} {r r' : Ring} {fr : Frame}

theorem nextSlot_toNat (hb : ConfigBounds c) (k : Word) :
    (nextSlot c.cap k).toNat = (k.toNat + 1) % c.cap :=
  toNat_ofNat_word ((Nat.mod_lt _ hb.cap_pos).trans hb.cap_lt)

theorem nextSlot_lt (hb : ConfigBounds c) (k : Word) : (nextSlot c.cap k).toNat < c.cap := by
  rw [nextSlot_toNat hb]
  exact Nat.mod_lt _ hb.cap_pos

theorem RingOk.raise (h : RingOk c r) (e : ErrorEvent) : RingOk c (r.raise e) := by
  cases e <;> exact { h with }

theorem RingOk.enqueue (h : RingOk c r) (hb : ConfigBounds c) (he : r.enqueue c.cap fr = some r') :
    RingOk c r' := by
  rcases Ring.enqueue_cases c.cap r fr with ⟨-, e⟩ | ⟨hroom, e⟩ <;> rw [e] at he <;> cases he
  have hfc : r.fc.toNat + 1 ≤ c.cap := by have := h.fc; omega
  have hfc' : (BitVec.ofNat 32 (r.fc.toNat + 1)).toNat = r.fc.toNat + 1 :=
    toNat_ofNat_word (hfc.trans_lt hb.cap_lt)
  exact {
    slots := Cells.write_wf h.slots (Nat.zero_le _) h.wi
    fc := hfc'.trans_le hfc
    wi := nextSlot_lt hb _
    ri := h.ri
    indices := by
      simp only [nextSlot_toNat hb, hfc', h.indices, Nat.mod_add_mod, Nat.add_assoc] }

theorem RingOk.dequeue (h : RingOk c r) (hb : ConfigBounds c) : RingOk c (r.dequeue c.cap).1 := by
  rcases Ring.dequeue_cases c.cap r with ⟨hsome, e⟩ | ⟨-, e⟩ <;> rw [e]
  · have hfc : (BitVec.ofNat 32 (r.fc.toNat - 1)).toNat = r.fc.toNat - 1 :=
      toNat_ofNat_word (by omega)
    have hsum : r.ri.toNat + 1 + (r.fc.toNat - 1) = r.ri.toNat + r.fc.toNat := by omega
    exact {
      slots := h.slots
      fc := hfc.trans_le ((Nat.sub_le _ _).trans h.fc)
      wi := h.wi
      ri := nextSlot_lt hb _
      indices := by simp only [nextSlot_toNat hb, hfc, h.indices, Nat.mod_add_mod, hsum] }
  · exact { h with }

theorem RingOk.consume (h : RingOk c r) (hb : ConfigBounds c) (n : Nat) :
    RingOk c (Ring.consume c.cap n r).1 :=
  Ring.consume_induction (fun _ hr => hr.dequeue hb) h

end RingInvariant

/-! ### The driver keeps its invariant (R30, R263) -/

section DriverInvariant

variable {c : Config} {d : Driver}

theorem Driver.canEmit_iff {nbuf : Nat} :
    d.canEmit nbuf = true ↔ d.running = true ∧ d.dmaPos.toNat < nbuf := by
  simp [Driver.canEmit]

theorem DriverOk.setBuf (h : DriverOk c d) (b : Fin 2) {ws : List Word} (hws : ws.length = c.nbuf) :
    DriverOk c (d.setBuf b ws) := by
  match b with
  | 0 => exact { h with dbuf0 := hws }
  | 1 => exact { h with dbuf1 := hws }

theorem DriverOk.begin (h : DriverOk c d) (hb : ConfigBounds c) : DriverOk c d.begin :=
  { h with
    dmaPos := Nat.zero_le _
    irqPending := by have := hb.nbuf_pos; simp; omega }

theorem DriverOk.halt (h : DriverOk c d) : DriverOk c d.halt :=
  { h with irqPending := by simp }

theorem DriverOk.swap (h : DriverOk c d) (hb : ConfigBounds c) : DriverOk c d.swap :=
  { h with
    dmaPos := Nat.zero_le _
    irqPending := by have := hb.nbuf_pos; simp; omega }

/-- Where DMA has a step, no completion is pending yet, and the step latches one with the last word. -/
theorem DriverOk.advance (h : DriverOk c d) (hb : ConfigBounds c) (hemit : d.canEmit c.nbuf = true) :
    DriverOk c (d.advance c.nbuf) := by
  obtain ⟨hrun, hpos⟩ := Driver.canEmit_iff.1 hemit
  have hpos' : (BitVec.ofNat 32 (d.dmaPos.toNat + 1)).toNat = d.dmaPos.toNat + 1 :=
    toNat_ofNat_word (by have := hb.nbuf_lt; omega)
  have hirq : d.irqPending = false := by
    rw [← Bool.not_eq_true, h.irqPending]
    omega
  exact { h with
    dmaPos := hpos'.trans_le hpos
    irqPending := by simp [hpos', hirq, hrun] }

end DriverInvariant

end Sys2Proof.Machine

namespace Sys2Proof.Machine

/-! ### Bounds of the effect engine (R182, R186, R189, R193) -/

section EffectBounds

variable {c : Config} {p : Params} {e : Effect}

theorem activeSliceLength_pos (p : Params) : 1 ≤ activeSliceLength p := le_max_left _ _

theorem activeSliceLength_le (hb : ConfigBounds c) (hp : ParamsOk c p) :
    activeSliceLength p ≤ c.maxSlice := by
  refine max_le (hb.minSlice_pos.trans hb.minSlice_le) ((Nat.div_le_self _ _).trans ?_)
  split
  · exact hp.stutterLength.2
  · exact hp.sliceLength.2

/-- The window is not empty, even at the last pass. -/
theorem loopWindow_len_pos (p : Params) (rc asl : Nat) : 1 ≤ (loopWindow p rc asl).len :=
  (le_max_left _ _).trans (le_max_right _ _)

/-- The window lies inside the slice. -/
theorem loopWindow_fits (p : Params) (rc : Nat) {asl : Nat} (h : 1 ≤ asl) :
    (loopWindow p rc asl).off + (loopWindow p rc asl).len ≤ asl := by
  have hoff : (loopWindow p rc asl).off ≤ asl - 1 := min_le_right _ _
  have hlen : (loopWindow p rc asl).len ≤ asl - (loopWindow p rc asl).off :=
    max_le (Nat.sub_le _ _) (max_le (by omega) (Nat.div_le_self _ _))
  omega

theorem quarterSineAt_le (k : Nat) : quarterSineAt k ≤ 32767 := by
  have hall : ∀ x ∈ quarterSine, x ≤ 32767 := by decide
  unfold quarterSineAt
  rcases lt_or_ge k quarterSine.length with hk | hk
  · rw [List.getD_eq_getElem _ _ hk]
    exact_mod_cast hall _ (List.getElem_mem hk)
  · rw [List.getD_eq_default _ _ hk]
    decide

theorem quarterSineAt_nonneg (k : Nat) : 0 ≤ quarterSineAt k := Int.natCast_nonneg _

theorem sinq15_le (ph : Nat) : sinq15 ph ≤ 32767 := by
  have hle := quarterSineAt_le (ph / 256 % 64)
  have hle' := quarterSineAt_le (64 - ph / 256 % 64)
  have hpos := quarterSineAt_nonneg (ph / 256 % 64)
  have hpos' := quarterSineAt_nonneg (64 - ph / 256 % 64)
  simp only [sinq15]
  split_ifs <;> omega

/-- A product scaled down by `2^16` grows with both factors. -/
theorem scaled_le {a b t u : Int} (hab : a ≤ b) (hb : 0 ≤ b) (ht : 0 ≤ t) (htu : t ≤ u) :
    a * t / 65536 ≤ b * u / 65536 :=
  Int.ediv_le_ediv (by decide)
    ((mul_le_mul_of_nonneg_right hab ht).trans (mul_le_mul_of_nonneg_left htu hb))

/-- No mode steps by more than `0x5FFFF` while the position is in the window (R189, R26). -/
theorem pitchStep_le (hp : ParamsOk c p) (phase : Nat) {rp len : Nat} (hrp : rp < len * 65536) :
    pitchStep p phase rp len ≤ 0x5FFFF := by
  obtain ⟨hshift, hshift'⟩ := hp.pitchShift
  have ht : rp / len < 65536 := Nat.div_lt_of_lt_mul hrp
  unfold pitchStep
  simp only
  generalize rp / len = t at ht ⊢
  have hup := scaled_le (a := (p.pitchShift.toNat : Int) - 65536) (b := 196608) (t := (t : Int))
    (u := 65536) (by omega) (by decide) (by omega) (by omega)
  have hdown := scaled_le (a := 65536 - (p.pitchShift.toNat : Int)) (b := 49152) (t := (t : Int))
    (u := 65536) (by omega) (by decide) (by omega) (by omega)
  have hscratch := scaled_le (t := (p.pitchShift.toNat : Int)) (u := 0x40000) (sinq15_le phase)
    (by decide) (by omega) (by omega)
  rw [mul_comm (sinq15 phase)] at hscratch
  split <;> omega

/-! ### The effect engine keeps its invariant (R26, R50) -/

/-- The gate draws a number; a repeat that it starts begins at the first pass (R184, R185). -/
theorem EffectOk.gate (h : EffectOk c e) (p : Params) : EffectOk c (e.gate c p) := by
  unfold Effect.gate
  simp only
  split
  · exact { h with rp := by simp, rc := by simp, rcWhileRepeating := by simp, phase := by simp }
  · exact { h with }

theorem EffectOk.capture (h : EffectOk c e) (dry : Frame) :
    EffectOk c { e with cap := Cells.write Frame.silence e.cap e.wp.toNat dry } :=
  { h with cap := Cells.write_wf h.cap (Nat.zero_le _) h.wp }

/-- The slice clock keeps the write position in the slice, which fits the capture (R183). -/
theorem EffectOk.clock (h : EffectOk c e) (hb : ConfigBounds c) (p : Params) {asl : Nat}
    (hasl : asl ≤ c.maxSlice) (dry : Frame) : EffectOk c (e.clock c p asl dry) := by
  have hmax := hb.maxSlice_le
  unfold Effect.clock
  simp only
  generalize hif : (if e.rep then e
    else { e with cap := Cells.write Frame.silence e.cap e.wp.toNat dry }) = captured
  have hcaptured : EffectOk c captured := by
    subst hif
    split
    · exact h
    · exact h.capture dry
  split
  · have hwrapped : EffectOk c { captured with wp := 0 } :=
      { hcaptured with wp := hb.minSlice_pos.trans hb.minSlice_le }
    split
    · exact hwrapped.gate p
    · exact hwrapped
  · exact { hcaptured with
      wp := by
        rw [toNat_ofNat_word (by omega)]
        omega }

/-- The gate is not evaluated in a frame that began repeating (R184). -/
theorem Effect.clock_rep (hrep : e.rep = true) (asl : Nat) (dry : Frame) :
    (e.clock c p asl dry).rep = true := by
  simp only [Effect.clock, hrep]
  split <;> exact hrep

/-- The end of a pass: a pass is counted while passes are left to make, so the count stays at most 16. -/
theorem EffectOk.advance (h : EffectOk c e) (hp : ParamsOk c p) (hrep : e.rep = true) {span rp1 : Nat}
    (hrp1 : rp1 ≤ 2 ^ 31 + 0x5FFFF) : EffectOk c (e.advance p span rp1) := by
  have hrc := h.rcWhileRepeating hrep
  have hlast := hp.repeatCount.2
  have hcount : (BitVec.ofNat 32 (e.rc.toNat + 1)).toNat = e.rc.toNat + 1 :=
    toNat_ofNat_word (by omega)
  have hposition : (BitVec.ofNat 32 rp1).toNat = rp1 := toNat_ofNat_word (by omega)
  unfold Effect.advance
  split
  · exact { h with rp := hposition.trans_le hrp1 }
  · split
    · exact { h with rp := Nat.zero_le _ }
    · split
      · exact { h with
          rp := hposition.trans_le hrp1
          rc := by rw [hcount]; omega
          rcWhileRepeating := by simp }
      · exact { h with
          rp := Nat.zero_le _
          rc := by rw [hcount]; omega
          rcWhileRepeating := fun _ => by rw [hcount]; omega }

theorem revalidated_lt {rp span : Nat} (h : 0 < span) : revalidated rp span < span := by
  unfold revalidated
  split <;> omega

/-- A frame of a repeat: the window is no longer than the capture, so the position stays in its range. -/
theorem EffectOk.playback (h : EffectOk c e) (hb : ConfigBounds c) (hp : ParamsOk c p)
    (hrep : e.rep = true) {asl : Nat} (hpos : 1 ≤ asl) (hasl : asl ≤ c.maxSlice) (dry : Frame) :
    EffectOk c (e.playback c p asl dry).1 := by
  have hmax := hb.maxSlice_le
  have hfits := loopWindow_fits p e.rc.toNat hpos
  have hlen := loopWindow_len_pos p e.rc.toNat asl
  have hrp := revalidated_lt (rp := e.rp.toNat) (span := (loopWindow p e.rc.toNat asl).len * 65536)
    (by omega)
  have hstep := pitchStep_le hp e.phase.toNat hrp
  have hphase : (BitVec.ofNat 32 ((e.phase.toNat + c.scratchInc) % 65536)).toNat < 65536 := by
    rw [toNat_ofNat_word (by omega)]
    omega
  have hturned : EffectOk c
      { e with phase := BitVec.ofNat 32 ((e.phase.toNat + c.scratchInc) % 65536) } :=
    { h with phase := hphase }
  exact hturned.advance hp hrep (by omega)

theorem EffectOk.frameStep (h : EffectOk c e) (hb : ConfigBounds c) (hp : ParamsOk c p) (dry : Frame) :
    EffectOk c (frameStep c p e dry).1 := by
  have hasl := activeSliceLength_le hb hp
  have hclock := h.clock hb p hasl dry
  unfold Machine.frameStep
  simp only
  split
  · exact hclock.playback hb hp (Effect.clock_rep ‹_› _ dry) (activeSliceLength_pos p) hasl dry
  · exact hclock

end EffectBounds

/-! ### A block of frames (R180) -/

section Block

variable {c : Config} {p : Params} {addr : Nat}

theorem processFrames_succ (n i : Nat) (e : Effect) (m : Memory) :
    processFrames c p addr (n + 1) i e m =
      processFrames c p addr n (i + 1) (frameStep c p e (readFrame m addr i)).1
        (writeFrame m addr i (frameStep c p e (readFrame m addr i)).2) := rfl

theorem processFrames_effectOk (hb : ConfigBounds c) (hp : ParamsOk c p) (n i : Nat) (m : Memory)
    {e : Effect} (h : EffectOk c e) : EffectOk c (processFrames c p addr n i e m).1 := by
  induction n generalizing i e m with
  | zero => exact h
  | succ n ih => exact ih _ _ (h.frameStep hb hp _)

theorem processFrames_wf (n i : Nat) (e : Effect) {m : Memory} (hm : m.wf = true)
    (hspan : addr + 2 * (i + n) ≤ 2 ^ 32) : (processFrames c p addr n i e m).2.wf = true := by
  induction n generalizing i e m with
  | zero => exact hm
  | succ n ih => exact ih _ _ (writeFrame_wf hm (by omega)) (by omega)

/-- The effect writes no byte outside the frames it processes (R46, R81). -/
theorem readByte_processFrames_outside (n i : Nat) (e : Effect) (m : Memory) {b : Nat}
    (hb : b < 2 * (addr + 2 * i) ∨ 2 * (addr + 2 * (i + n)) ≤ b) :
    (processFrames c p addr n i e m).2.readByte b = m.readByte b := by
  induction n generalizing i e m with
  | zero => rfl
  | succ n ih => rw [processFrames_succ, ih _ _ _ (by omega), readByte_writeFrame_outside (by omega)]

end Block

end Sys2Proof.Machine

namespace Sys2Proof.Machine

variable {s t u : State}

/-! ### Who has the turn -/

/-- Only an agent with an enabled step gets the turn (R75). -/
theorem State.ready_of_turn {a : Agent} (h : s.turn = some a) : s.ready a = true := by
  have hfree : s.freeTurn = some a → a ∈ s.readyAgents := List.mem_of_getElem?
  have hmem : s.ready a = true ∨ a ∈ s.readyAgents := by
    unfold State.turn at h
    split at h
    · split at h
      · split at h
        · cases h
          exact .inl ‹_›
        · exact .inr (hfree h)
      · exact .inr (hfree h)
    · exact .inr (List.mem_of_mem_head? h)
  exact hmem.elim id fun hm => (List.mem_filter.1 hm).2

/-! ### FG's atomic steps, by the sequencing state (R25) -/

section FgStep

variable {owner : WriteOwner} {addr count : Word} {i n : Nat}

theorem State.fgStep_idle (h : s.fg = .idle) : s.fgStep = s := by
  simp only [State.fgStep, h]

theorem State.fgStep_writing (h : s.fg = .writing owner addr count i n) :
    s.fgStep = s.enqueueStep owner addr count i n := by
  simp only [State.fgStep, h]

theorem State.fgStep_accounting (h : s.fg = .accounting owner count n) :
    s.fgStep = s.accountStep owner count n := by
  simp only [State.fgStep, h]

theorem State.fgStep_autoStart (h : s.fg = .autoStart) : s.fgStep = s.autoStartStep := by
  simp only [State.fgStep, h]

/-- The enqueue step of the write phase, said with the ring's own enqueue step (R221, R222). -/
theorem State.enqueueStep_enqueue (s : State) (owner : WriteOwner) (addr count : Word) (i n : Nat) :
    (s.ring.fc.toNat = s.cfg.cap ∧
      s.enqueueStep owner addr count i n = { s with fg := .accounting owner count n }) ∨
    ∃ r, s.ring.enqueue s.cfg.cap (readFrame s.pcm addr.toNat i) = some r ∧
      s.enqueueStep owner addr count i n =
        { s with ring := r, fg := writeAt owner addr count (i + 1) (n + 1) } := by
  rcases Ring.enqueue_cases s.cfg.cap s.ring (readFrame s.pcm addr.toNat i) with
    ⟨hfull, he⟩ | ⟨-, he⟩
  · exact .inl ⟨hfull, by simp only [State.enqueueStep, he]⟩
  · exact .inr ⟨_, he, by simp only [State.enqueueStep, he]⟩

end FgStep

/-- The answer of a command whose span is checked (R66). -/
theorem next_of_spanFits {addr count : Word}
    (h : (if spanFits addr count then .next u else .refused .spanPastTop :
      Host.Outcome State Fault Refusal) = .next t) : spanFits addr count = true ∧ u = t := by
  split at h
  · cases h
    exact ⟨‹_›, rfl⟩
  · cases h

theorem spanFits_iff {addr count : Word} :
    spanFits addr count = true ↔ addr.toNat + 2 * count.toNat ≤ 2 ^ 32 := by
  simp [spanFits]

/-! ### Every operation keeps the invariant -/

theorem Inv.bounds (h : Inv s) : ConfigBounds s.cfg := configBounds h.cfg

theorem Inv.spendTurn (h : Inv s) : Inv s.spendTurn := { h with }

theorem Inv.withPort (h : Inv s) (ws : List Word) : Inv (s.withPort ws) := { h with }

theorem Inv.withDriver (h : Inv s) {d : Driver} (hd : DriverOk s.cfg d) : Inv { s with driver := d } :=
  { h with driver := hd }

theorem Inv.withFg (h : Inv s) {f : FgState} (hf : FgOk f) : Inv { s with fg := f } :=
  { h with fg := hf }

theorem Inv.fill (h : Inv s) (b : Fin 2) : Inv (s.fill b) :=
  { h with
    ring := h.ring.consume h.bounds _
    driver := h.driver.setBuf b (by simp) }

theorem Inv.startDriver (h : Inv s) : Inv s.startDriver := by
  rcases s.startDriver_cases with ⟨-, e⟩ | ⟨-, e⟩ <;> rw [e]
  · exact h
  · have hfilled := (h.fill 0).fill 1
    exact hfilled.withDriver (hfilled.driver.begin hfilled.bounds)

theorem Inv.stopDriver (h : Inv s) : Inv s.stopDriver := by
  rcases s.stopDriver_cases with ⟨-, e⟩ | ⟨-, e⟩ <;> rw [e]
  · exact h
  · exact h.withDriver h.driver.halt

theorem Inv.transferComplete (h : Inv s) : Inv s.transferComplete := by
  rcases s.transferComplete_cases with ⟨-, e⟩ | ⟨-, e⟩ <;> rw [e]
  · exact h
  · exact (h.withDriver (h.driver.swap h.bounds)).fill _

theorem Inv.dmaStep (h : Inv s) (hemit : s.driver.canEmit s.cfg.nbuf = true) : Inv s.dmaStep :=
  { h with driver := h.driver.advance h.bounds hemit }

theorem Inv.hostStep (h : Inv s) : Inv s.hostStep := by
  unfold State.hostStep
  split
  · exact h
  · exact { h with }
  · exact { h with pcm := Memory.writeSample_wf h.pcm (BitVec.isLt _) }
  · exact Inv.resetWith h.cfg h.pcm _ _ _

theorem Inv.process (h : Inv s) (ch : Byte) {addr count : Word} (hspan : spanFits addr count = true) :
    Inv (s.process ch addr count) := by
  rcases s.process_cases ch addr count with ⟨-, e⟩ | ⟨-, -, e⟩ <;> rw [e]
  · exact h
  · exact { h with
      effect := processFrames_effectOk h.bounds h.params _ _ _ h.effect
      pcm := processFrames_wf _ _ _ h.pcm (by simpa using spanFits_iff.1 hspan) }

section WritePhase

variable {owner : WriteOwner} {addr count : Word} {i n : Nat}

theorem fgOk_writeAt (hspan : spanFits addr count = true) (hi : i ≤ count.toNat) :
    FgOk (writeAt owner addr count i i) := by
  unfold writeAt
  split
  · exact ⟨hspan, ‹_›, rfl⟩
  · exact hi

theorem Inv.beginWrite (h : Inv s) (hspan : spanFits addr count = true) :
    Inv (s.beginWrite owner addr count) :=
  h.withFg (fgOk_writeAt hspan (Nat.zero_le _))

theorem Inv.enqueueStep (h : Inv s) (hspan : spanFits addr count = true) (hi : i < count.toNat) :
    Inv (s.enqueueStep owner addr count i i) := by
  rcases s.enqueueStep_enqueue owner addr count i i with ⟨-, e⟩ | ⟨r, hr, e⟩ <;> rw [e]
  · exact h.withFg hi.le
  · exact { h with ring := h.ring.enqueue h.bounds hr, fg := fgOk_writeAt hspan hi }

theorem Inv.accountStep (h : Inv s) : Inv (s.accountStep owner count n) :=
  { h with
    ring := h.ring.raise (.overrun (count.toNat - n))
    fg := by cases owner <;> trivial }

theorem Inv.autoStartStep (h : Inv s) : Inv s.autoStartStep := by
  rcases s.autoStartStep_cases with ⟨-, -, e⟩ | ⟨-, e⟩ <;> rw [e]
  · exact h.startDriver.withFg trivial
  · exact h.withFg trivial

theorem Inv.fgStep (h : Inv s) : Inv s.fgStep := by
  have hfg := h.fg
  cases hf : s.fg with
  | idle => rwa [State.fgStep_idle hf]
  | writing owner addr count i n =>
    rw [hf] at hfg
    obtain ⟨hspan, hi, rfl⟩ := hfg
    rw [State.fgStep_writing hf]
    exact h.enqueueStep hspan hi
  | accounting owner count n =>
    rw [State.fgStep_accounting hf]
    exact h.accountStep
  | autoStart =>
    rw [State.fgStep_autoStart hf]
    exact h.autoStartStep

theorem Inv.fgContinue (h : Inv s) (k : Nat) : Inv (State.fgContinue k s) :=
  State.fgContinue_induction (fun _ hu => hu.spendTurn) (fun _ hu => hu.fgStep) h

theorem Inv.fgRun (h : Inv s) : Inv s.fgRun := h.fgStep.fgContinue _

end WritePhase

theorem Inv.execRegWr (h : Inv s) {idx : Byte} {data : Word} (he : execRegWr idx data s = .next t) :
    Inv t := by
  unfold Machine.execRegWr at he
  split at he
  · rename_i hidx
    simp only [State.raise_invalidParameter, ite_self] at he
    cases he
    exact { h with params := h.params.set_legalValue h.cfg data _ hidx }
  · cases he
    exact h

/-- Every command keeps the invariant. -/
theorem Inv.exec (h : Inv s) {i : Instr} (he : exec i s = .next t) : Inv t := by
  cases i with
  | nop => cases he; exact h
  | brReset => cases he; exact { h with effect := EffectOk.reset h.bounds }
  | regWr idx data => exact h.execRegWr he
  | regRd idx => cases he; exact { h with }
  | brProc ch addr count =>
    obtain ⟨hspan, rfl⟩ := next_of_spanFits he
    exact h.process ch hspan
  | rbWrite addr count =>
    obtain ⟨hspan, rfl⟩ := next_of_spanFits he
    exact (h.beginWrite hspan).fgRun
  | rbCons addr count =>
    obtain ⟨hspan, rfl⟩ := next_of_spanFits he
    exact { h with
      ring := h.ring.consume h.bounds _
      pcm := writeFrames_wf h.pcm (by simpa using spanFits_iff.1 hspan) }
  | rbClear => cases he; exact { h with ring := RingOk.clear h.bounds _ }
  | outStart => cases he; exact h.startDriver
  | outStop => cases he; exact h.stopDriver
  | outXfer => cases he; exact h.transferComplete
  | pcmBlock ch addr count rate =>
    obtain ⟨hspan, rfl⟩ := next_of_spanFits he
    exact ((h.process ch hspan).beginWrite hspan).fgContinue _

/-- Settles O11: by the agent that has the turn, each step being an operation that keeps the invariant.
DMA's needs that it had the turn, so that a word was left to emit. -/
theorem stepKeepsTheInvariant : Obligations.StepKeepsTheInvariant := by
  intro s t h hstep
  obtain ⟨-, ⟨-, rfl⟩ | ⟨-, rfl⟩ | ⟨-, rfl⟩ | ⟨hturn, rfl⟩ | ⟨-, -, rfl⟩ | ⟨-, -, -, rfl⟩ |
    ⟨-, -, i, rest, -, hexec⟩⟩ := step_cases hstep
  · exact h
  · exact h.spendTurn.hostStep
  · exact h.spendTurn.transferComplete
  · exact h.spendTurn.dmaStep (State.ready_of_turn hturn)
  · exact h.spendTurn.fgRun
  · exact h.spendTurn
  · exact (h.spendTurn.withPort rest).exec hexec

end Sys2Proof.Machine

namespace Sys2Proof.Machine

variable {s t u : State}

/-! ### What the operations leave alone (R21, R46) -/

/-- `start()` writes the ring and the driver only. -/
theorem State.startDriver_frame (s : State) :
    ∃ r d, s.startDriver = { s with ring := r, driver := d } := by
  rcases s.startDriver_cases with ⟨-, e⟩ | ⟨-, e⟩
  · exact ⟨s.ring, s.driver, e⟩
  · exact ⟨_, _, e⟩

theorem State.startDriver_of_running (h : s.driver.running = true) : s.startDriver = s :=
  if_pos h

/-- `stop()` writes the driver only. -/
theorem State.stopDriver_frame (s : State) : ∃ d, s.stopDriver = { s with driver := d } := by
  rcases s.stopDriver_cases with ⟨-, e⟩ | ⟨-, e⟩
  · exact ⟨s.driver, e⟩
  · exact ⟨_, e⟩

theorem State.stopDriver_running : s.stopDriver.driver.running = false := by
  rcases s.stopDriver_cases with ⟨h, e⟩ | ⟨-, e⟩ <;> rw [e]
  · exact h
  · rfl

/-- `on_transfer_complete()` writes the ring and the driver only. -/
theorem State.transferComplete_frame (s : State) :
    ∃ r d, s.transferComplete = { s with ring := r, driver := d } := by
  rcases s.transferComplete_cases with ⟨-, e⟩ | ⟨-, e⟩
  · exact ⟨s.ring, s.driver, e⟩
  · exact ⟨_, _, e⟩

theorem not_inBlock_iff {addr n b : Nat} :
    ¬ inBlock addr n b ↔ b < 2 * addr ∨ 2 * (addr + 2 * n) ≤ b := by
  unfold inBlock
  omega

/-- `process` writes the effect state, and the PCM bytes of its block. -/
theorem State.process_frame (s : State) (ch : Byte) (addr count : Word) :
    ∃ e m, s.process ch addr count = { s with effect := e, pcm := m } ∧
      ∀ b, ¬ inBlock addr.toNat count.toNat b → m.readByte b = s.pcm.readByte b := by
  rcases s.process_cases ch addr count with ⟨-, e⟩ | ⟨-, -, e⟩
  · exact ⟨s.effect, s.pcm, e, fun _ _ => rfl⟩
  · exact ⟨_, _, e, fun b hb =>
      readByte_processFrames_outside _ _ _ _ (by simpa using not_inBlock_iff.1 hb)⟩

@[simp] theorem State.process_driver {ch : Byte} {addr count : Word} :
    (s.process ch addr count).driver = s.driver := by
  obtain ⟨e, m, h, -⟩ := s.process_frame ch addr count
  rw [h]

/-! ### What FG's steps inside a command leave alone -/

theorem SameOutsideWrite.refl (s : State) : SameOutsideWrite s s := ⟨rfl, rfl, rfl, rfl, rfl, rfl, rfl⟩

theorem SameOutsideWrite.trans (h : SameOutsideWrite s t) (h' : SameOutsideWrite t u) :
    SameOutsideWrite s u := by
  obtain ⟨hcfg, hparams, heffect, hpcm, hout, hport, hhost⟩ := h
  obtain ⟨hcfg', hparams', heffect', hpcm', hout', hport', hhost'⟩ := h'
  exact ⟨hcfg'.trans hcfg, hparams'.trans hparams, heffect'.trans heffect, hpcm'.trans hpcm,
    hout'.trans hout, hport'.trans hport, hhost'.trans hhost⟩

theorem State.spendTurn_sameOutsideWrite (s : State) : SameOutsideWrite s s.spendTurn :=
  ⟨rfl, rfl, rfl, rfl, rfl, rfl, rfl⟩

theorem State.enqueueStep_sameOutsideWrite (s : State) (owner : WriteOwner) (addr count : Word)
    (i n : Nat) : SameOutsideWrite s (s.enqueueStep owner addr count i n) := by
  rcases s.enqueueStep_enqueue owner addr count i n with ⟨-, e⟩ | ⟨r, -, e⟩ <;> rw [e] <;>
    exact ⟨rfl, rfl, rfl, rfl, rfl, rfl, rfl⟩

theorem State.autoStartStep_sameOutsideWrite (s : State) : SameOutsideWrite s s.autoStartStep := by
  rcases s.autoStartStep_cases with ⟨-, -, e⟩ | ⟨-, e⟩ <;> rw [e]
  · obtain ⟨r, d, hstart⟩ := s.startDriver_frame
    rw [hstart]
    exact ⟨rfl, rfl, rfl, rfl, rfl, rfl, rfl⟩
  · exact ⟨rfl, rfl, rfl, rfl, rfl, rfl, rfl⟩

theorem State.fgStep_sameOutsideWrite (s : State) : SameOutsideWrite s s.fgStep := by
  cases hf : s.fg with
  | idle =>
    rw [State.fgStep_idle hf]
    exact SameOutsideWrite.refl s
  | writing owner addr count i n =>
    rw [State.fgStep_writing hf]
    exact s.enqueueStep_sameOutsideWrite owner addr count i n
  | accounting owner count n =>
    rw [State.fgStep_accounting hf]
    exact ⟨rfl, rfl, rfl, rfl, rfl, rfl, rfl⟩
  | autoStart =>
    rw [State.fgStep_autoStart hf]
    exact s.autoStartStep_sameOutsideWrite

theorem State.fgContinue_sameOutsideWrite (k : Nat) (s : State) :
    SameOutsideWrite s (State.fgContinue k s) :=
  State.fgContinue_induction (P := SameOutsideWrite s)
    (fun v h => h.trans v.spendTurn_sameOutsideWrite) (fun v h => h.trans v.fgStep_sameOutsideWrite)
    (SameOutsideWrite.refl s)

theorem State.fgRun_sameOutsideWrite (s : State) : SameOutsideWrite s s.fgRun :=
  s.fgStep_sameOutsideWrite.trans (State.fgContinue_sameOutsideWrite _ _)

/-! ### Which of FG's steps can start the driver (R282) -/

@[simp] theorem State.enqueueStep_driver {owner : WriteOwner} {addr count : Word} {i n : Nat} :
    (s.enqueueStep owner addr count i n).driver = s.driver := by
  rcases s.enqueueStep_enqueue owner addr count i n with ⟨-, e⟩ | ⟨r, -, e⟩ <;> rw [e]

/-- Only the auto-start test can write the driver. -/
theorem State.fgStep_driver (h : s.fg ≠ .autoStart) : s.fgStep.driver = s.driver := by
  cases hf : s.fg with
  | idle => rw [State.fgStep_idle hf]
  | writing owner addr count i n => rw [State.fgStep_writing hf, State.enqueueStep_driver]
  | accounting owner count n => rw [State.fgStep_accounting hf, State.accountStep_driver]
  | autoStart => exact absurd hf h

/-- The sequencing states of `RB.WRITE`: it has no auto-start test (R221). -/
def FgState.InRbWrite : FgState → Prop
  | .idle => True
  | .writing owner _ _ _ _ => owner = .rbWrite
  | .accounting owner _ _ => owner = .rbWrite
  | .autoStart => False

theorem inRbWrite_writeAt (addr count : Word) (i n : Nat) :
    FgState.InRbWrite (writeAt .rbWrite addr count i n) := by
  unfold writeAt
  split <;> rfl

theorem State.fgStep_inRbWrite (h : s.fg.InRbWrite) : s.fgStep.fg.InRbWrite := by
  cases hf : s.fg with
  | idle => rwa [State.fgStep_idle hf]
  | writing owner addr count i n =>
    rw [hf] at h
    subst h
    rw [State.fgStep_writing hf]
    rcases s.enqueueStep_enqueue .rbWrite addr count i n with ⟨-, e⟩ | ⟨r, -, e⟩ <;> rw [e]
    · rfl
    · exact inRbWrite_writeAt addr count (i + 1) (n + 1)
  | accounting owner count n =>
    rw [hf] at h
    subst h
    rw [State.fgStep_accounting hf]
    trivial
  | autoStart =>
    rw [hf] at h
    exact h.elim

/-- `RB.WRITE` never writes the driver. -/
theorem State.fgRun_driver_of_inRbWrite (h : s.fg.InRbWrite) : s.fgRun.driver = s.driver := by
  have hrun : s.fgRun.fg.InRbWrite ∧ s.fgRun.driver = s.driver := by
    refine State.fgRun_induction (P := fun v => v.fg.InRbWrite ∧ v.driver = s.driver)
      (fun _ hv => hv) (fun v ⟨hfg, hdriver⟩ => ?_) ⟨h, rfl⟩
    refine ⟨State.fgStep_inRbWrite hfg, (State.fgStep_driver fun hauto => ?_).trans hdriver⟩
    rw [hauto] at hfg
    exact hfg
  exact hrun.2

/-- No step of FG inside a command writes a running driver. -/
theorem State.fgStep_driver_of_running (h : s.driver.running = true) : s.fgStep.driver = s.driver := by
  by_cases hf : s.fg = .autoStart
  · rw [State.fgStep_autoStart hf]
    rcases s.autoStartStep_cases with ⟨hstopped, -⟩ | ⟨-, e⟩
    · rw [h] at hstopped
      cases hstopped
    · rw [e]
  · exact State.fgStep_driver hf

theorem State.fgContinue_driver_of_running (h : s.driver.running = true) (k : Nat) :
    (State.fgContinue k s).driver = s.driver :=
  State.fgContinue_induction (P := fun v => v.driver = s.driver) (fun _ hv => hv)
    (fun _ hv => (State.fgStep_driver_of_running (hv ▸ h)).trans hv) rfl

theorem State.fgRun_driver_of_running (h : s.driver.running = true) : s.fgRun.driver = s.driver := by
  have hstep := State.fgStep_driver_of_running h
  exact (State.fgContinue_driver_of_running (by rwa [hstep]) _).trans hstep

/-! ### The frame of every command (R21, R46, R100) -/

/-- `t` differs from `s` only where the command `i` may write. -/
structure KeepsTheRest (i : Instr) (s t : State) : Prop where
  cfg : t.cfg = s.cfg
  out : t.out = s.out
  port : t.port = s.port
  host : t.host = s.host
  params : writesParams i = false → t.params = s.params
  effect : writesEffect i = false → t.effect = s.effect
  ring : writesRing i = false → t.ring = s.ring
  driver : writesDriver i = false → t.driver = s.driver
  res : writesRes i = false → t.res = s.res
  pcm : writesPcm i = false → t.pcm = s.pcm
  sequencing : preemptible i = false → t.fg = s.fg ∧ t.sched = s.sched ∧ t.tick = s.tick
  bytes : ∀ b, ¬ mayStore i b → t.pcm.readByte b = s.pcm.readByte b

theorem KeepsTheRest.regWr {idx : Byte} {data : Word} (h : execRegWr idx data s = .next t) :
    KeepsTheRest (.regWr idx data) s t := by
  unfold execRegWr at h
  split at h
  · simp only [State.raise_invalidParameter, ite_self] at h
    cases h
    constructor
    case params => nofun
    all_goals simp
  · cases h
    constructor <;> simp

/-- Every command writes only its own state. -/
theorem exec_keepsTheRest {i : Instr} (h : exec i s = .next t) : KeepsTheRest i s t := by
  cases i with
  | nop => cases h; constructor <;> simp
  | brReset =>
    cases h
    constructor
    case effect => nofun
    all_goals simp
  | regWr idx data => exact KeepsTheRest.regWr h
  | regRd idx =>
    cases h
    constructor
    case res => nofun
    all_goals simp
  | brProc ch addr count =>
    obtain ⟨-, rfl⟩ := next_of_spanFits h
    obtain ⟨e, m, hprocess, hbytes⟩ := s.process_frame ch addr count
    rw [hprocess]
    constructor
    case effect => nofun
    case pcm => nofun
    case bytes => exact hbytes
    all_goals simp
  | rbWrite addr count =>
    obtain ⟨-, rfl⟩ := next_of_spanFits h
    have hdriver : (s.beginWrite .rbWrite addr count).fgRun.driver = s.driver :=
      State.fgRun_driver_of_inRbWrite (inRbWrite_writeAt addr count 0 0)
    obtain ⟨hcfg, hparams, heffect, hpcm, hout, hport, hhost⟩ :=
      (s.beginWrite .rbWrite addr count).fgRun_sameOutsideWrite
    exact ⟨hcfg, hout, hport, hhost, fun _ => hparams, fun _ => heffect, nofun, fun _ => hdriver, nofun,
      fun _ => hpcm, nofun, fun b _ => congrArg (Memory.readByte · b) hpcm⟩
  | rbCons addr count =>
    obtain ⟨-, rfl⟩ := next_of_spanFits h
    constructor
    case ring => nofun
    case pcm => nofun
    case bytes =>
      intro b hb
      exact readByte_writeFrames_outside (by simpa using not_inBlock_iff.1 hb)
    all_goals simp
  | rbClear =>
    cases h
    constructor
    case ring => nofun
    all_goals simp
  | outStart =>
    cases h
    obtain ⟨r, d, hstart⟩ := s.startDriver_frame
    rw [hstart]
    constructor
    case ring => nofun
    case driver => nofun
    all_goals simp
  | outStop =>
    cases h
    obtain ⟨d, hstop⟩ := s.stopDriver_frame
    rw [hstop]
    constructor
    case driver => nofun
    all_goals simp
  | outXfer =>
    cases h
    obtain ⟨r, d, hxfer⟩ := s.transferComplete_frame
    rw [hxfer]
    constructor
    case ring => nofun
    case driver => nofun
    all_goals simp
  | pcmBlock ch addr count rate =>
    obtain ⟨-, rfl⟩ := next_of_spanFits h
    obtain ⟨e, m, hprocess, hbytes⟩ := s.process_frame ch addr count
    rw [hprocess]
    obtain ⟨hcfg, hparams, -, hpcm, hout, hport, hhost⟩ :=
      State.fgContinue_sameOutsideWrite (writeAt .pcmBlock addr count 0 0).stepsLeft
        (({ s with effect := e, pcm := m } : State).beginWrite .pcmBlock addr count)
    exact ⟨hcfg, hout, hport, hhost, fun _ => hparams, nofun, nofun, nofun, nofun, nofun, nofun,
      fun b hb => (congrArg (Memory.readByte · b) hpcm).trans (hbytes b hb)⟩

/-- Settles O10: the parts of `KeepsTheRest`. -/
theorem commandsWriteOnlyTheirOwnState : Obligations.CommandsWriteOnlyTheirOwnState := by
  intro i s t h
  have hrest := exec_keepsTheRest h
  exact ⟨hrest.cfg, hrest.out, hrest.port, hrest.host, hrest.params, hrest.effect, hrest.ring,
    hrest.driver, hrest.res, hrest.pcm, hrest.sequencing, hrest.bytes⟩

/-! ### The active buffer (R51, R80) -/

theorem Driver.buf_setBuf_other {d : Driver} {b b' : Fin 2} (h : b' ≠ b) (ws : List Word) :
    (d.setBuf b ws).buf b' = d.buf b' := by
  match b, b' with
  | 0, 0 => exact absurd rfl h
  | 0, 1 => rfl
  | 1, 0 => rfl
  | 1, 1 => exact absurd rfl h

@[simp] theorem Driver.setBuf_active {d : Driver} {b : Fin 2} {ws : List Word} :
    (d.setBuf b ws).active = d.active := by
  match b with
  | 0 => rfl
  | 1 => rfl

/-- The buffer that is active in `t` holds what it held in `s`. -/
def KeepsActiveBuffer (s t : State) : Prop :=
  t.driver.buf t.driver.active = s.driver.buf t.driver.active

theorem keepsActiveBuffer_of_driver (h : t.driver = s.driver) : KeepsActiveBuffer s t := by
  unfold KeepsActiveBuffer
  rw [h]

/-- The handler fills the buffer that was active, and the other one is active after it (R257, R258). -/
theorem State.transferComplete_keepsActiveBuffer (s : State) : KeepsActiveBuffer s s.transferComplete := by
  rcases s.transferComplete_cases with ⟨-, e⟩ | ⟨-, e⟩
  · exact keepsActiveBuffer_of_driver (by rw [e])
  · have hother : ∀ b : Fin 2, 1 - b ≠ b := by decide
    rw [KeepsActiveBuffer, e, State.fill_driver, Driver.setBuf_active, Driver.swap_active,
      Driver.buf_setBuf_other (hother _)]
    rfl

/-- HOST writes no buffer but by a reset, which stops the driver. -/
theorem State.hostStep_driver (h : s.hostStep.driver.running = true) : s.hostStep.driver = s.driver := by
  unfold State.hostStep at h ⊢
  split
  · rfl
  · rfl
  · rfl
  · rename_i hreset
    rw [hreset] at h
    cases h

theorem exec_keepsActiveBuffer {i : Instr} (h : exec i s = .next t) (hs : s.driver.running = true)
    (ht : t.driver.running = true) : KeepsActiveBuffer s t := by
  by_cases hi : writesDriver i = false
  · exact keepsActiveBuffer_of_driver ((exec_keepsTheRest h).driver hi)
  · cases i with
    | outStart =>
      cases h
      exact keepsActiveBuffer_of_driver (by rw [State.startDriver_of_running hs])
    | outStop =>
      cases h
      rw [State.stopDriver_running] at ht
      cases ht
    | outXfer =>
      cases h
      exact s.transferComplete_keepsActiveBuffer
    | pcmBlock ch addr count rate =>
      obtain ⟨-, rfl⟩ := next_of_spanFits h
      have hdriver : ((s.process ch addr count).beginWrite .pcmBlock addr count).driver = s.driver :=
        State.process_driver
      exact keepsActiveBuffer_of_driver
        ((State.fgContinue_driver_of_running (by rwa [hdriver]) _).trans hdriver)
    | _ => exact absurd rfl hi

/-- Settles O59: by the agent that has the turn. Only the handler and `OUT.XFER` write a buffer of a
running driver. -/
theorem noStepWritesTheActiveBuffer : Obligations.NoStepWritesTheActiveBuffer := by
  intro s t h hs ht
  change KeepsActiveBuffer s t
  obtain ⟨-, ⟨-, rfl⟩ | ⟨-, rfl⟩ | ⟨-, rfl⟩ | ⟨-, rfl⟩ | ⟨-, -, rfl⟩ | ⟨-, -, -, rfl⟩ |
    ⟨-, -, i, rest, -, hexec⟩⟩ := step_cases h
  · rfl
  · exact keepsActiveBuffer_of_driver (State.hostStep_driver ht)
  · exact s.spendTurn.transferComplete_keepsActiveBuffer
  · rfl
  · exact keepsActiveBuffer_of_driver (State.fgRun_driver_of_running hs)
  · rfl
  · exact exec_keepsActiveBuffer (s := s.spendTurn.withPort rest) hexec hs ht

end Sys2Proof.Machine

namespace Sys2Proof.Machine

variable {s t u : State}

/-! ### Turns while a command is in progress (R75, log entry 2) -/

theorem State.fgReady_of_inCommand (h : s.fg ≠ .idle) : s.fgReady = true := by
  unfold State.fgReady
  split
  · exact absurd ‹_› h
  · rfl

/-- Inside a command, FG has a step, HOST has none, and the driver decides about ISR and DMA. -/
theorem State.ready_eq_of_inCommand (hs : s.fg ≠ .idle) (hu : u.fg ≠ .idle) (hcfg : u.cfg = s.cfg)
    (hdriver : u.driver = s.driver) : u.ready = s.ready := by
  funext a
  cases a with
  | host =>
    simp [State.ready, State.hostReady, State.fgReady_of_inCommand hs, State.fgReady_of_inCommand hu]
  | fg => simp [State.ready, State.fgReady_of_inCommand hs, State.fgReady_of_inCommand hu]
  | isr => simp [State.ready, hdriver]
  | dma => simp [State.ready, hdriver, hcfg]

/-- The turn depends on who has a step, on the listed turns and on the tick. -/
theorem State.turn_congr (hready : u.ready = s.ready) (hsched : u.sched = s.sched)
    (htick : u.tick = s.tick) : u.turn = s.turn := by
  have hagents : u.readyAgents = s.readyAgents := by rw [State.readyAgents, State.readyAgents, hready]
  have hcontested : u.contested = s.contested := by rw [State.contested, State.contested, hagents]
  have hfree : u.freeTurn = s.freeTurn := by rw [State.freeTurn, State.freeTurn, hagents, htick]
  rw [State.turn, State.turn, hcontested, hfree, hagents, hready, hsched]

/-- Inside a command the turn is contested exactly when ISR or DMA has a step. -/
theorem State.contested_iff_of_inCommand (h : s.fg ≠ .idle) : s.contested = true ↔ ¬ s.quiet := by
  have hfg := State.fgReady_of_inCommand h
  unfold State.contested State.readyAgents State.quiet
  cases hisr : s.driver.irqPending <;> cases hdma : s.driver.canEmit s.cfg.nbuf <;>
    simp [State.ready, State.hostReady, hfg, hisr, hdma]

@[simp] theorem State.startDriver_sched : s.startDriver.sched = s.sched := by
  obtain ⟨r, d, h⟩ := s.startDriver_frame
  rw [h]

@[simp] theorem State.startDriver_tick : s.startDriver.tick = s.tick := by
  obtain ⟨r, d, h⟩ := s.startDriver_frame
  rw [h]

/-- An atomic step of FG spends no turn by itself. -/
theorem State.fgStep_turns (s : State) : s.fgStep.sched = s.sched ∧ s.fgStep.tick = s.tick := by
  cases hf : s.fg with
  | idle => simp [State.fgStep_idle hf]
  | writing owner addr count i n =>
    rw [State.fgStep_writing hf]
    rcases s.enqueueStep_enqueue owner addr count i n with ⟨-, e⟩ | ⟨r, -, e⟩ <;> simp [e]
  | accounting owner count n => simp [State.fgStep_accounting hf]
  | autoStart =>
    rw [State.fgStep_autoStart hf]
    rcases s.autoStartStep_cases with ⟨-, -, e⟩ | ⟨-, e⟩ <;> simp [e]

theorem TurnsSpent.refl (s : State) : TurnsSpent s s 0 :=
  ⟨0, fun _ => rfl, fun _ => rfl, rfl, rfl, fun _ hj => absurd hj (Nat.not_lt_zero _)⟩

/-- One more atomic step of FG, which had the turn for it. -/
theorem TurnsSpent.step {k : Nat} (h : TurnsSpent s u k) (hcfg : u.cfg = s.cfg)
    (hdriver : u.driver = s.driver) (hfg : u.fg ≠ .idle) (hturn : u.turn = some .fg) :
    TurnsSpent s u.spendTurn.fgStep (k + 1) := by
  obtain ⟨m, hquiet, hbusy, hsched, htick, hturns⟩ := h
  obtain ⟨hsched', htick'⟩ := u.spendTurn.fgStep_turns
  have hcontested : u.contested = true ↔ ¬ s.quiet := by
    rw [State.contested_iff_of_inCommand hfg, State.quiet, State.quiet, hcfg, hdriver]
  rw [State.spendTurn_sched] at hsched'
  rw [State.spendTurn_tick] at htick'
  by_cases hq : s.quiet
  · have hcalm : u.contested = false := by
      rw [← Bool.not_eq_true, hcontested]
      exact not_not_intro hq
    simp only [hcalm, Bool.false_eq_true, if_false] at hsched' htick'
    exact ⟨m, hquiet, fun hn => absurd hq hn, hsched'.trans hsched, htick'.trans htick, hturns⟩
  · obtain rfl := hbusy hq
    simp only [hcontested.2 hq, if_true, hsched, htick, List.tail_drop] at hsched' htick'
    refine ⟨m + 1, fun h => absurd h hq, fun _ => rfl, hsched', htick', fun j hj => ?_⟩
    rcases Nat.lt_succ_iff_lt_or_eq.1 hj with hlt | rfl
    · exact hturns j hlt
    · rw [← hturn]
      refine State.turn_congr (State.ready_eq_of_inCommand hfg nofun hcfg.symm hdriver.symm) ?_ ?_
      · exact hsched.symm
      · exact htick.symm

/-! ### FG's run inside a command (R25, R75) -/

/-- The step of FG inside a command is its run from the atomic step it waited before. -/
theorem step_of_inCommand (hc : configOk s.cfg = true) (hfg : s.fg ≠ .idle) (hturn : s.turn = some .fg) :
    step s = .next s.spendTurn.fgRun := by
  simp only [Machine.step, hc, if_true, State.anyStep, hturn, State.agentStep, State.fgTurn]
  split
  · exact absurd ‹_› hfg
  · rfl

/-- FG's run ends with the command, or at another agent's turn. -/
theorem State.fgRun_stops (hfg : s.fg ≠ .idle) (hoffers : s.fg.OffersInBlock) :
    s.fgRun.fg = .idle ∨ s.fgRun.turn ≠ some .fg := by
  refine State.fgContinue_stops s.fgStep (s.fgStep_offersInBlock hoffers)
    (s.fgStep_stepsLeft hfg fun o a c i n hf => ?_).le
  rw [hf] at hoffers
  exact hoffers

/-- A property that each atomic step keeps for which FG has the turn, FG's run keeps. -/
theorem State.fgContinue_induction_turn {P : State → Prop} {k : Nat}
    (hstep : ∀ v, P v → v.fg ≠ .idle → v.turn = some .fg → P v.spendTurn.fgStep) (h : P s) :
    P (State.fgContinue k s) := by
  induction k generalizing s with
  | zero => exact h
  | succ k ih =>
    unfold State.fgContinue
    split
    · exact h
    · split
      · exact ih (hstep s h ‹_› ‹_›)
      · exact h

/-- `Q k u` says where FG's run from `s` stands as `u`, after `k` atomic steps that took a turn. It follows
every step of the run, and the driver is as it was until the command has completed. -/
structure FollowsRun (s : State) (Q : Nat → State → Prop) : Prop where
  driver : ∀ {k u}, Q k u → u.fg ≠ .idle → u.driver = s.driver
  step : ∀ {k u}, Q k u → SameOutsideWrite s u → u.fg ≠ .idle → Q (k + 1) u.spendTurn.fgStep

/-- FG has come from `s` to `u` by at least `lo` atomic steps that took a turn, and stands as `Q` says. -/
def RanTo (s : State) (Q : Nat → State → Prop) (lo : Nat) (u : State) : Prop :=
  SameOutsideWrite s u ∧ ∃ k, lo ≤ k ∧ Q k u ∧ TurnsSpent s u k

section Run

variable {Q : Nat → State → Prop} {lo : Nat}

theorem RanTo.start (h : Q 0 s) : RanTo s Q 0 s :=
  ⟨SameOutsideWrite.refl s, 0, le_rfl, h, TurnsSpent.refl s⟩

theorem RanTo.mono {lo' : Nat} (h : RanTo s Q lo u) (hlo : lo' ≤ lo) : RanTo s Q lo' u := by
  obtain ⟨hsame, k, hk, hQ, hturns⟩ := h
  exact ⟨hsame, k, hlo.trans hk, hQ, hturns⟩

theorem RanTo.step (h : RanTo s Q lo u) (hfollows : FollowsRun s Q) (hfg : u.fg ≠ .idle)
    (hturn : u.turn = some .fg) : RanTo s Q (lo + 1) u.spendTurn.fgStep := by
  obtain ⟨hsame, k, hk, hQ, hturns⟩ := h
  obtain ⟨hcfg, -⟩ := id hsame
  exact ⟨(hsame.trans u.spendTurn_sameOutsideWrite).trans u.spendTurn.fgStep_sameOutsideWrite,
    k + 1, Nat.succ_le_succ hk, hfollows.step hQ hsame hfg,
    hturns.step hcfg (hfollows.driver hQ hfg) hfg hturn⟩

theorem RanTo.fgContinue (h : RanTo s Q lo u) (hfollows : FollowsRun s Q) (k : Nat) :
    RanTo s Q lo (State.fgContinue k u) :=
  State.fgContinue_induction_turn
    (fun _ hv hfg hturn => (hv.step hfollows hfg hturn).mono (Nat.le_succ _)) h

/-- FG's run from a waiting state that has the turn makes at least one atomic step. -/
theorem ranTo_fgRun (hfollows : FollowsRun s Q) (h : Q 0 s) (hfg : s.fg ≠ .idle)
    (hturn : s.turn = some .fg) : RanTo s Q 1 s.spendTurn.fgRun :=
  ((RanTo.start h).step hfollows hfg hturn).fgContinue hfollows _

end Run

/-! ### The end of a write phase: accounting and auto-start (R221, R282) -/

theorem satAdd_toNat (counter : Word) (n : Nat) :
    (satAdd counter n).toNat = min (counter.toNat + n) (2 ^ 32 - 1) :=
  toNat_ofNat_word (by omega)

theorem State.startDriver_withFg (s : State) (f : FgState) :
    ({ s with fg := f } : State).startDriver = { s.startDriver with fg := f } := by
  unfold State.startDriver
  simp only
  split <;> rfl

/-- The auto-start test completes the command, with the full `OUT.START` or with nothing (R282). -/
theorem State.autoStartStep_autoStarted (hcfg : u.cfg = s.cfg) (hdriver : u.driver = s.driver) :
    AutoStarted s u.ring u.autoStartStep := by
  unfold AutoStarted
  rw [← hcfg, ← hdriver]
  rcases u.autoStartStep_cases with ⟨hstopped, hlevel, e⟩ | ⟨hno, e⟩ <;> rw [e] <;>
    refine ⟨rfl, ?_⟩
  · rw [if_pos ⟨hstopped, hlevel⟩]
    have hbefore : ({ u.startDriver with fg := .idle, ring := u.ring, driver := u.driver } : State) =
        { u with fg := .idle } := by
      obtain ⟨r, d, h⟩ := u.startDriver_frame
      rw [h]
    calc exec .outStart { u.startDriver with fg := .idle, ring := u.ring, driver := u.driver }
        = exec .outStart { u with fg := .idle } := by rw [hbefore]
      _ = .next ({ u with fg := .idle } : State).startDriver := rfl
      _ = .next { u.startDriver with fg := .idle } := by rw [State.startDriver_withFg]
  · rw [if_neg fun ⟨hstopped, hlevel⟩ => hno.elim (by simp [hstopped]) (by omega)]
    exact ⟨rfl, rfl⟩

@[simp] theorem State.autoStartStep_res (s : State) : s.autoStartStep.res = s.res := by
  rcases s.autoStartStep_cases with ⟨-, -, e⟩ | ⟨-, e⟩ <;> rw [e]
  obtain ⟨r, d, h⟩ := s.startDriver_frame
  rw [h]

theorem State.autoStartStep_fg (s : State) : s.autoStartStep.fg = .idle := rfl

/-- The auto-start test is the last atomic step of its command. -/
theorem State.fgRun_autoStart (h : s.fg = .autoStart) : s.fgRun = s.autoStartStep := by
  rw [State.fgRun, State.fgStep_autoStart h, h]
  exact if_pos s.autoStartStep_fg

/-- Where the end of a command can stand that wrote `n` of `count` frames and left the ring `r`: `k` atomic
steps after the last frame was offered. -/
inductive EndsAt (s : State) (owner : WriteOwner) (count : Word) (n : Nat) (r : Ring) (k : Nat)
    (u : State) : Prop where
  | beforeAccounting (hk : k = 0) (hfg : u.fg = .accounting owner count n) (hring : u.ring = r)
      (hres : u.res = s.res) (hdriver : u.driver = s.driver)
  | beforeAutoStart (hk : k = 1) (howner : owner = .pcmBlock) (hfg : u.fg = .autoStart)
      (hring : u.ring = r.raise (.overrun (count.toNat - n))) (hres : u.res = BitVec.ofNat 32 n)
      (hdriver : u.driver = s.driver)
  | completed (hfg : u.fg = .idle) (hdone : Accounted s owner count n r k u)

section EndOfCommand

variable {owner : WriteOwner} {count : Word} {n k : Nat} {r : Ring}

theorem EndsAt.driver (h : EndsAt s owner count n r k u) (hfg : u.fg ≠ .idle) : u.driver = s.driver := by
  cases h with
  | beforeAccounting _ _ _ _ hdriver => exact hdriver
  | beforeAutoStart _ _ _ _ _ hdriver => exact hdriver
  | completed hidle _ => exact absurd hidle hfg

/-- The next atomic step at the end of a command. -/
theorem EndsAt.step (h : EndsAt s owner count n r k u) (hsame : SameOutsideWrite s u)
    (hfg : u.fg ≠ .idle) : EndsAt s owner count n r (k + 1) u.spendTurn.fgStep := by
  cases h with
  | beforeAccounting hk hf hring hres hdriver =>
    subst hk hring
    rw [State.fgStep_accounting (s := u.spendTurn) hf]
    cases owner with
    | rbWrite =>
      exact .completed rfl ⟨rfl, satAdd u.ring.overrun (count.toNat - n), satAdd_toNat _ _,
        rfl, rfl, rfl, hdriver⟩
    | pcmBlock => exact .beforeAutoStart rfl rfl rfl rfl rfl hdriver
  | beforeAutoStart hk howner hf hring hres hdriver =>
    obtain ⟨hcfg, -⟩ := hsame
    have hstarted : AutoStarted s (r.raise (.overrun (count.toNat - n))) u.spendTurn.autoStartStep := by
      rw [← hring]
      exact State.autoStartStep_autoStarted (u := u.spendTurn) hcfg hdriver
    have hres' : u.spendTurn.autoStartStep.res = BitVec.ofNat 32 n :=
      u.spendTurn.autoStartStep_res.trans hres
    subst hk howner
    rw [State.fgStep_autoStart (s := u.spendTurn) hf]
    exact .completed hstarted.1 ⟨hres', satAdd r.overrun (count.toNat - n), satAdd_toNat _ _,
      .inr ⟨rfl, hstarted⟩⟩
  | completed hidle _ => exact absurd hidle hfg

theorem EndsAt.followsRun : FollowsRun s (EndsAt s owner count n r) :=
  ⟨EndsAt.driver, EndsAt.step⟩

/-- Where the run stops at the end of a command: before the accounting step, or with that step made. -/
theorem EndsAt.of_stopped (h : EndsAt s owner count n r k u)
    (hstop : u.fg = .idle ∨ u.turn ≠ some .fg) :
    (k = 0 ∧ u.fg = .accounting owner count n ∧ u.turn ≠ some .fg ∧ u.ring = r ∧ u.res = s.res ∧
      u.driver = s.driver) ∨ Accounted s owner count n r k u := by
  cases h with
  | beforeAccounting hk hfg hring hres hdriver =>
    exact .inl ⟨hk, hfg, hstop.resolve_left (by simp [hfg]), hring, hres, hdriver⟩
  | beforeAutoStart hk howner hfg hring hres hdriver =>
    subst howner
    exact .inr ⟨hres, satAdd r.overrun (count.toNat - n), satAdd_toNat _ _,
      .inl ⟨hk, hfg, hstop.resolve_left (by simp [hfg]), hring, hdriver⟩⟩
  | completed _ hdone => exact .inr hdone

end EndOfCommand

/-! ### The frames of a block join the unread ones (R49, R222) -/

/-- The enqueue step leaves the consumer's side and the counters alone. -/
theorem Ring.enqueue_frame {cap : Nat} {r r' : Ring} {fr : Frame} (h : r.enqueue cap fr = some r') :
    r'.ri = r.ri ∧ r'.underrun = r.underrun ∧ r'.overrun = r.overrun := by
  rcases Ring.enqueue_cases cap r fr with ⟨-, e⟩ | ⟨-, e⟩ <;> rw [e] at h <;> cases h
  exact ⟨rfl, rfl, rfl⟩

/-- The slots of different unread frames are different: they are fewer than `CAP`. -/
theorem slot_ne {cap ri j k : Nat} (hjk : j < k) (hk : k < cap) : (ri + j) % cap ≠ (ri + k) % cap := by
  intro h
  have hmod : j % cap = k % cap := Nat.ModEq.add_left_cancel' ri h
  rw [Nat.mod_eq_of_lt (hjk.trans hk), Nat.mod_eq_of_lt hk] at hmod
  omega

/-- An accepted frame is the newest unread one. -/
theorem Ring.unread_enqueue {c : Config} {r r' : Ring} {fr : Frame} (h : RingOk c r)
    (hb : ConfigBounds c) (he : r.enqueue c.cap fr = some r') :
    r'.unread c.cap = r.unread c.cap ++ [fr] := by
  rcases Ring.enqueue_cases c.cap r fr with ⟨-, e⟩ | ⟨hroom, e⟩ <;> rw [e] at he <;> cases he
  have hlt : r.fc.toNat < c.cap := lt_of_le_of_ne h.fc hroom
  have hfc : (BitVec.ofNat 32 (r.fc.toNat + 1)).toNat = r.fc.toNat + 1 :=
    toNat_ofNat_word (by have := hb.cap_lt; omega)
  simp only [Ring.unread, hfc, List.range_succ, List.map_append, List.map_cons, List.map_nil]
  congr 1
  · refine List.map_congr_left fun k hk => Cells.read_write_other ?_
    rw [h.indices]
    exact slot_ne (List.mem_range.1 hk) hlt
  · rw [← h.indices, Cells.read_write_same h.slots]

theorem blockFrames_succ (m : Memory) (addr n : Nat) :
    blockFrames m addr (n + 1) = blockFrames m addr n ++ [readFrame m addr n] := by
  simp [blockFrames, List.range_succ]

@[simp] theorem blockFrames_length (m : Memory) (addr n : Nat) : (blockFrames m addr n).length = n := by
  simp [blockFrames]

/-- `r` is the ring of `s` with frames `i .. n − 1` of the block at `addr` enqueued. -/
structure EnqueuedTo (s : State) (addr : Word) (i n : Nat) (r : Ring) : Prop where
  ok : RingOk s.cfg r
  unread : r.unread s.cfg.cap = s.ring.unread s.cfg.cap ++ (blockFrames s.pcm addr.toNat n).drop i
  ri : r.ri = s.ring.ri
  underrun : r.underrun = s.ring.underrun
  overrun : r.overrun = s.ring.overrun

section WritePhase

variable {owner : WriteOwner} {addr count : Word} {i n k : Nat} {r r' : Ring}

theorem EnqueuedTo.start (h : RingOk s.cfg s.ring) (addr : Word) (i : Nat) :
    EnqueuedTo s addr i i s.ring :=
  ⟨h, by rw [List.drop_eq_nil_of_le (by simp), List.append_nil], rfl, rfl, rfl⟩

theorem EnqueuedTo.next (h : EnqueuedTo s addr i n r) (hb : ConfigBounds s.cfg) (hin : i ≤ n)
    (he : r.enqueue s.cfg.cap (readFrame s.pcm addr.toNat n) = some r') :
    EnqueuedTo s addr i (n + 1) r' := by
  obtain ⟨hri, hunderrun, hoverrun⟩ := Ring.enqueue_frame he
  refine ⟨h.ok.enqueue hb he, ?_, hri.trans h.ri, hunderrun.trans h.underrun, hoverrun.trans h.overrun⟩
  rw [Ring.unread_enqueue h.ok hb he, h.unread, blockFrames_succ,
    List.drop_append_of_le_length (by simpa using hin), List.append_assoc]

/-- Where a write phase from frame `i` on can stand after `k` atomic steps: with `n` frames in, before frame
`n`, or at the end of the command, with all frames in or after a frame that a full ring refused. -/
inductive StandsAt (s : State) (owner : WriteOwner) (addr count : Word) (i k : Nat) (u : State) : Prop where
  | writing (n : Nat) (hin : i ≤ n) (hk : k = n - i) (hn : n < count.toNat)
      (hring : EnqueuedTo s addr i n u.ring) (hfg : u.fg = .writing owner addr count n n)
      (hres : u.res = s.res) (hdriver : u.driver = s.driver)
  | ending (n j : Nat) (r : Ring) (hin : i ≤ n) (hk : k = (n - i) + (if n < count.toNat then 1 else 0) + j)
      (hn : n ≤ count.toNat) (hring : EnqueuedTo s addr i n r)
      (hfull : n < count.toNat → r.fc.toNat = s.cfg.cap) (hend : EndsAt s owner count n r j u)

theorem StandsAt.driver (h : StandsAt s owner addr count i k u) (hfg : u.fg ≠ .idle) :
    u.driver = s.driver := by
  cases h with
  | writing _ _ _ _ _ _ _ hdriver => exact hdriver
  | ending _ _ _ _ _ _ _ _ hend => exact hend.driver hfg

/-- The next atomic step of a write phase. -/
theorem StandsAt.step (h : StandsAt s owner addr count i k u) (hb : ConfigBounds s.cfg)
    (hsame : SameOutsideWrite s u) (hfg : u.fg ≠ .idle) :
    StandsAt s owner addr count i (k + 1) u.spendTurn.fgStep := by
  cases h with
  | writing n hin hk hn hring hf hres hdriver =>
    obtain ⟨hcfg, -, -, hpcm, -⟩ := id hsame
    rw [State.fgStep_writing (s := u.spendTurn) hf]
    rcases u.spendTurn.enqueueStep_enqueue owner addr count n n with ⟨hfull, e⟩ | ⟨r, hr, e⟩ <;> rw [e]
    · exact .ending n 0 u.ring hin (by simp [hn, hk]) hn.le hring (fun _ => hcfg ▸ hfull)
        (.beforeAccounting rfl rfl rfl hres hdriver)
    · have hnext : EnqueuedTo s addr i (n + 1) r :=
        hring.next hb hin (by rw [← hcfg, ← hpcm]; exact hr)
      by_cases hlast : n + 1 < count.toNat
      · exact .writing (n + 1) (by omega) (by omega) hlast hnext (if_pos hlast) hres hdriver
      · exact .ending (n + 1) 0 r (by omega) (by simp [hlast]; omega) hn hnext
          (fun hlt => absurd hlt hlast) (.beforeAccounting rfl (if_neg hlast) rfl hres hdriver)
  | ending n j r hin hk hn hring hfull hend =>
    exact .ending n (j + 1) r hin (by omega) hn hring hfull (hend.step hsame hfg)

/-- `free` of the atomic steps took no turn. -/
theorem StandsAt.followsRun (hb : ConfigBounds s.cfg) (free : Nat) :
    FollowsRun s fun k => StandsAt s owner addr count i (k + free) where
  driver := StandsAt.driver
  step h hsame hfg := by
    have hnext := h.step hb hsame hfg
    rwa [Nat.add_right_comm] at hnext

/-- Where a write phase stands when its run has stopped. -/
theorem RanTo.wroteOn {free lo : Nat}
    (h : RanTo s (fun k => StandsAt s owner addr count i (k + free)) lo u)
    (hstop : u.fg = .idle ∨ u.turn ≠ some .fg) :
    WroteOn s owner addr count i (i + lo + free) free u := by
  obtain ⟨hsame, k, hlo, hstands, hturns⟩ := h
  cases hstands with
  | writing n hin hk hn hring hfg hres hdriver =>
    exact ⟨hsame, n, u.ring, k, hin, hn.le, hring.ok, hring.unread, hring.ri, hring.underrun,
      hring.overrun, hturns, .inl ⟨hfg, by omega, hn, hstop.resolve_left (by simp [hfg]), hk, rfl, hres,
        hdriver⟩⟩
  | ending n j r hin hk hn hring hfull hend =>
    refine ⟨hsame, n, r, k, hin, hn, hring.ok, hring.unread, hring.ri, hring.underrun, hring.overrun,
      hturns, .inr ⟨hfull, _, rfl, ?_⟩⟩
    rcases hend.of_stopped hstop with ⟨hj, hfg, hturn, hr, hres, hdriver⟩ | hdone
    · exact .inl ⟨hfg, hturn, by omega, hr, hres, hdriver⟩
    · exact .inr ⟨j, hk, hdone⟩

end WritePhase

/-- Settles O48: each waiting state is where `StandsAt` or `EndsAt` begins, and FG's run follows it to its
stop. -/
theorem writeInProgressGoesOn : Obligations.WriteInProgressGoesOn := by
  refine ⟨fun owner addr count i s hc hring hfg hi hturn => ?writing,
    fun owner count n s hc hfg hturn => ?accounting, fun s hc hfg hturn => ?autoStart⟩
  case writing =>
    have hbusy : s.fg ≠ .idle := by simp [hfg]
    have hoffers : s.fg.OffersInBlock := by rw [hfg]; exact hi
    have hstart : StandsAt s owner addr count i 0 s :=
      .writing i le_rfl (Nat.sub_self i).symm hi (EnqueuedTo.start hring addr i) hfg rfl rfl
    have hran := ranTo_fgRun (StandsAt.followsRun (configBounds hc) 0) hstart hbusy hturn
    exact ⟨_, step_of_inCommand hc hbusy hturn,
      hran.wroteOn (State.fgRun_stops (s := s.spendTurn) hbusy hoffers)⟩
  case accounting =>
    have hbusy : s.fg ≠ .idle := by simp [hfg]
    have hoffers : s.fg.OffersInBlock := by rw [hfg]; trivial
    have hstart : EndsAt s owner count n s.ring 0 s := .beforeAccounting rfl hfg rfl rfl rfl
    obtain ⟨hsame, k, hk, hends, hturns⟩ := ranTo_fgRun EndsAt.followsRun hstart hbusy hturn
    refine ⟨_, k, step_of_inCommand hc hbusy hturn, hsame, hturns, ?_⟩
    rcases hends.of_stopped (State.fgRun_stops (s := s.spendTurn) hbusy hoffers) with ⟨rfl, -⟩ | hdone
    · exact absurd hk (Nat.not_succ_le_zero 0)
    · exact hdone
  case autoStart =>
    have hbusy : s.fg ≠ .idle := by simp [hfg]
    have hrun : s.spendTurn.fgRun = s.spendTurn.autoStartStep :=
      State.fgRun_autoStart (s := s.spendTurn) hfg
    have hturns := (TurnsSpent.refl s).step rfl rfl hbusy hturn
    rw [State.fgStep_autoStart (s := s.spendTurn) hfg] at hturns
    refine ⟨_, step_of_inCommand hc hbusy hturn, s.spendTurn.fgRun_sameOutsideWrite, ?_⟩
    rw [hrun]
    exact ⟨hturns, s.spendTurn.autoStartStep_res,
      State.autoStartStep_autoStarted (u := s.spendTurn) rfl rfl⟩

end Sys2Proof.Machine

namespace Sys2Proof.Machine

variable {s : State} {a : Agent}

/-! ### A command completes or is refused for its span (R66, R305) -/

/-- The two answers of a command whose span is checked, by the check. -/
theorem answers_of_spanFits {addr count : Word} {u : State} {answer : Host.Outcome State Fault Refusal}
    (h : answer = if spanFits addr count then .next u else .refused .spanPastTop) :
    (spanFits addr count = true → ∃ t, answer = .next t) ∧
    (spanFits addr count = false → answer = .refused .spanPastTop) := by
  subst h
  exact ⟨fun hfits => ⟨u, if_pos hfits⟩, fun hpast => if_neg (Bool.eq_false_iff.1 hpast)⟩

theorem execRegWr_completes (idx : Byte) (data : Word) (s : State) :
    ∃ t, execRegWr idx data s = .next t := by
  unfold execRegWr
  split
  · exact ⟨_, rfl⟩
  · exact ⟨_, rfl⟩

/-- Settles O6: by the command. The four commands with a PCM span answer by the check of the span; the
others have no check. -/
theorem execCompletesExactlyOnWellFormed : Obligations.ExecCompletesExactlyOnWellFormed := by
  intro i s
  cases i with
  | brProc ch addr count => exact answers_of_spanFits rfl
  | rbWrite addr count => exact answers_of_spanFits rfl
  | rbCons addr count => exact answers_of_spanFits rfl
  | pcmBlock ch addr count rate => exact answers_of_spanFits rfl
  | regWr idx data => exact ⟨fun _ => execRegWr_completes idx data s, nofun⟩
  | _ => exact ⟨fun _ => ⟨_, rfl⟩, nofun⟩

/-! ### The enabled agents and the turn (R75, R327) -/

theorem State.mem_readyAgents : a ∈ s.readyAgents ↔ s.ready a = true := by
  have hall : a ∈ [Agent.host, .fg, .isr, .dma] := by cases a <;> decide
  exact List.mem_filter.trans (and_iff_right hall)

/-- The free schedule always chooses among the enabled agents. -/
theorem State.freeTurn_eq_none_iff : s.freeTurn = none ↔ s.readyAgents = [] := by
  rw [State.freeTurn, List.getElem?_eq_none_iff, ← List.length_eq_zero_iff]
  refine ⟨fun h => ?_, fun h => by simp [h]⟩
  by_contra hlen
  exact absurd (Nat.mod_lt _ (Nat.pos_of_ne_zero hlen)) (Nat.not_lt.2 h)

/-- A turn no agent gets is one no agent could take. -/
theorem State.readyAgents_of_turn_none (h : s.turn = none) : s.readyAgents = [] := by
  unfold State.turn at h
  split at h
  · split at h
    · split at h
      · cases h
      · exact State.freeTurn_eq_none_iff.1 h
    · exact State.freeTurn_eq_none_iff.1 h
  · exact List.head?_eq_none_iff.1 h

theorem State.turn_eq_none_iff : s.turn = none ↔ ∀ a, s.ready a = false := by
  constructor
  · intro h a
    have hnot : a ∉ s.readyAgents := by simp [State.readyAgents_of_turn_none h]
    exact Bool.eq_false_iff.2 fun hready => hnot (State.mem_readyAgents.2 hready)
  · intro h
    cases hturn : s.turn with
    | none => rfl
    | some a => simpa [h a] using State.ready_of_turn hturn

/-- An uncontested turn is the only enabled agent's. -/
theorem State.turn_of_not_contested (h : s.contested = false) (ha : s.ready a = true) :
    s.turn = some a := by
  have hmem : a ∈ s.readyAgents := State.mem_readyAgents.2 ha
  have hlen : s.readyAgents.length = 1 := by
    have hlt : ¬ 2 ≤ s.readyAgents.length := of_decide_eq_false h
    have hpos := List.length_pos_of_mem hmem
    omega
  obtain ⟨b, hb⟩ := List.length_eq_one_iff.1 hlen
  obtain rfl : a = b := by simpa [hb] using hmem
  simp [State.turn, h, hb]

/-- An enabled agent that is listed next gets the turn. -/
theorem State.turn_of_listed {rest : List Agent} (hsched : s.sched = a :: rest) (ha : s.ready a = true) :
    s.turn = some a := by
  cases hc : s.contested with
  | true => simp [State.turn, hc, hsched, ha]
  | false => exact State.turn_of_not_contested hc ha

/-- FG has a step inside a command and when the port holds a whole one (R90). -/
theorem State.fgReady_iff :
    s.fgReady = true ↔ s.fg ≠ .idle ∨ ∃ i rest, decode s.port = .command i rest := by
  by_cases hfg : s.fg = .idle
  · cases hport : decode s.port <;> simp [State.fgReady, hfg, hport]
  · simp [State.fgReady_of_inCommand hfg, hfg]

/-- Settles O8: the turn goes to an enabled agent by `State.ready_of_turn`, to some agent by
`State.turn_eq_none_iff` and to the listed one by `State.turn_of_listed`. -/
theorem anyEnabledAgentCanStepAndNoOther : Obligations.AnyEnabledAgentCanStepAndNoOther := fun s =>
  ⟨fun _ => State.ready_of_turn, State.turn_eq_none_iff,
    fun a ha => State.turn_of_listed (s := { s with sched := a :: s.sched }) rfl ha,
    State.fgReady_iff, Iff.rfl⟩

/-! ### HOST's step (R81, R340, log entry 4) -/

/-- FG waits between commands exactly when the decoder rejects the port (R90). -/
theorem State.fgReady_eq_false_iff :
    s.fgReady = false ↔ s.fg = .idle ∧ ∃ why, decode s.port = .rejected why := by
  rw [Bool.eq_false_iff, ne_eq, State.fgReady_iff]
  cases decode s.port <;> simp

theorem State.hostReady_iff : s.ready .host = true ↔
    s.host ≠ [] ∧ s.fg = .idle ∧ ∃ why, decode s.port = .rejected why := by
  rw [← State.fgReady_eq_false_iff]
  simp [State.ready, State.hostReady, and_comm]

/-- HOST's turn is its next action. -/
theorem step_of_hostTurn (hc : configOk s.cfg = true) (hturn : s.turn = some .host) :
    step s = .next s.spendTurn.hostStep := by
  simp only [Machine.step, hc, if_true, State.anyStep, hturn, State.agentStep]

section HostStep

variable {rest : List HostAct}

theorem State.hostStep_word {w : Word} (h : s.host = .word w :: rest) :
    s.hostStep = { s with host := rest, port := s.port ++ [w] } := by
  simp only [State.hostStep, h]

theorem State.hostStep_pcmWrite {addr : Word} {v : Sample} (h : s.host = .pcmWrite addr v :: rest) :
    s.hostStep = { s with host := rest, pcm := s.pcm.writeSample addr.toNat v } := by
  simp only [State.hostStep, h]

theorem State.hostStep_reset (h : s.host = .reset :: rest) :
    s.hostStep = State.resetWith s.cfg s.pcm rest s.sched s.tick := by
  simp only [State.hostStep, h, State.hardwareReset]

end HostStep

/-- Settles O9: HOST's enabling is `State.hostReady_iff`, and its step is the one of its next action. -/
theorem hostActsOnlyBetweenCommands : Obligations.HostActsOnlyBetweenCommands := by
  refine fun s => ⟨State.hostReady_iff, fun hc hturn => ?_⟩
  obtain ⟨hhost, hfg, hport⟩ := State.hostReady_iff.1 (State.ready_of_turn hturn)
  obtain ⟨act, rest, hact⟩ := List.exists_cons_of_ne_nil hhost
  have hact' : s.spendTurn.host = act :: rest := hact
  refine ⟨hfg, hport, act, rest, _, hact, step_of_hostTurn hc hturn, ?_⟩
  cases act with
  | word w =>
    rw [State.hostStep_word hact']
    exact ⟨rfl, fun _ h => by cases h; rfl, nofun, nofun⟩
  | pcmWrite addr v =>
    rw [State.hostStep_pcmWrite hact']
    refine ⟨rfl, nofun, fun _ _ h => ?_, nofun⟩
    cases h
    exact ⟨rfl, fun hwf _ => Memory.readSample_writeSample hwf addr.isLt⟩
  | reset =>
    rw [State.hostStep_reset hact']
    exact ⟨rfl, nofun, nofun, fun _ => rfl⟩

end Sys2Proof.Machine

namespace Sys2Proof

variable {h h' : Word} {ws rest : List Word} {i : Instr}

/-! ### The fields of a written header (R91) -/

@[simp] theorem opcodeOf_headerWord (opc imm : Byte) : opcodeOf (headerWord opc imm) = opc :=
  (BitVec.extractLsb'_append_eq_of_le (by decide)).trans BitVec.extractLsb'_append_eq_left

@[simp] theorem immOf_headerWord (opc imm : Byte) : immOf (headerWord opc imm) = imm :=
  BitVec.extractLsb'_append_eq_right

/-! ### The opcode map, one equation per row (R94, R95) -/

theorem decode_nop
    (hop : opcodeOf h ∉ ([0x01, 0x02, 0x03, 0x04, 0x10, 0x11, 0x12, 0x20, 0x21, 0x22, 0x30] : List Byte)) :
    decode (h :: ws) = .command .nop ws := by
  unfold decode
  dsimp only
  split
  case h_1 => rfl
  case h_13 => rfl
  all_goals simp [← BitVec.toNat_inj, *] at hop

theorem decode_brReset (hop : opcodeOf h = 0x01) : decode (h :: ws) = .command .brReset ws := by
  simp [decode, hop]

theorem decode_regWr {data : Word} (hop : opcodeOf h = 0x02) :
    decode (h :: data :: rest) = .command (.regWr (immOf h) data) rest := by
  simp [decode, hop]

theorem decode_regRd (hop : opcodeOf h = 0x03) :
    decode (h :: ws) = .command (.regRd (immOf h)) ws := by
  simp [decode, hop]

theorem decode_brProc {addr count : Word} (hop : opcodeOf h = 0x04) :
    decode (h :: addr :: count :: rest) = .command (.brProc (immOf h) addr count) rest := by
  simp [decode, hop]

theorem decode_rbWrite {addr count : Word} (hop : opcodeOf h = 0x10) :
    decode (h :: addr :: count :: rest) = .command (.rbWrite addr count) rest := by
  simp [decode, hop]

theorem decode_rbCons {addr count : Word} (hop : opcodeOf h = 0x11) :
    decode (h :: addr :: count :: rest) = .command (.rbCons addr count) rest := by
  simp [decode, hop]

theorem decode_rbClear (hop : opcodeOf h = 0x12) : decode (h :: ws) = .command .rbClear ws := by
  simp [decode, hop]

theorem decode_outStart (hop : opcodeOf h = 0x20) : decode (h :: ws) = .command .outStart ws := by
  simp [decode, hop]

theorem decode_outStop (hop : opcodeOf h = 0x21) : decode (h :: ws) = .command .outStop ws := by
  simp [decode, hop]

theorem decode_outXfer (hop : opcodeOf h = 0x22) : decode (h :: ws) = .command .outXfer ws := by
  simp [decode, hop]

theorem decode_pcmBlock {addr count rate : Word} (hop : opcodeOf h = 0x30) :
    decode (h :: addr :: count :: rate :: rest) =
      .command (.pcmBlock (immOf h) addr count rate) rest := by
  simp [decode, hop]

/-! ### The round trip (R90 to R94) -/

/-- Settles O1: by the command, with the row of the opcode map that its header selects. An `IMM8` operand
is read back from the header. -/
theorem decodeOfEncodeIsTheCommand : Obligations.DecodeOfEncodeIsTheCommand := by
  intro i rest
  cases i with
  | nop => exact decode_nop (by simp)
  | brReset => exact decode_brReset (opcodeOf_headerWord _ _)
  | regWr idx data => simp [encode, decode_regWr]
  | regRd idx => simp [encode, decode_regRd]
  | brProc ch addr count => simp [encode, decode_brProc]
  | rbWrite addr count => exact decode_rbWrite (opcodeOf_headerWord _ _)
  | rbCons addr count => exact decode_rbCons (opcodeOf_headerWord _ _)
  | rbClear => exact decode_rbClear (opcodeOf_headerWord _ _)
  | outStart => exact decode_outStart (opcodeOf_headerWord _ _)
  | outStop => exact decode_outStop (opcodeOf_headerWord _ _)
  | outXfer => exact decode_outXfer (opcodeOf_headerWord _ _)
  | pcmBlock ch addr count rate => simp [encode, decode_pcmBlock]

/-! ### The words a command takes (R90, R92) -/

/-- The operand words of a command, after its header. -/
def Instr.operands (i : Instr) : List Word := (encode i).tail

theorem Instr.operands_length (i : Instr) : i.operands.length = i.operandWords := by
  cases i <;> rfl

/-- Everything the decoder can answer to a header and the words after it: a command whose operands are
the next words, or the wait for operands that are not there. -/
theorem decode_cases (h : Word) (ws : List Word) :
    (∃ i rest, decode (h :: ws) = .command i rest ∧ ws = i.operands ++ rest) ∨
    (decode (h :: ws) = .rejected (.missingOperands (opcodeOf h)) ∧ ws.length < 3) := by
  unfold decode
  dsimp only
  split
  case h_3 =>
    match ws with
    | [] => exact .inr ⟨rfl, by simp⟩
    | _ :: rest => exact .inl ⟨_, rest, rfl, rfl⟩
  case h_5 | h_6 | h_7 =>
    match ws with
    | [] | [_] => exact .inr ⟨rfl, by simp⟩
    | _ :: _ :: rest => exact .inl ⟨_, rest, rfl, rfl⟩
  case h_12 =>
    match ws with
    | [] | [_] | [_, _] => exact .inr ⟨rfl, by simp⟩
    | _ :: _ :: _ :: rest => exact .inl ⟨_, rest, rfl, rfl⟩
  all_goals exact .inl ⟨_, ws, rfl, rfl⟩

/-- Settles O3: by `decode_cases`. -/
theorem decodeTakesTheWordsOfTheFormat : Obligations.DecodeTakesTheWordsOfTheFormat := by
  constructor
  · intro ws i rest hd
    cases ws with
    | nil => cases hd
    | cons h ws =>
      obtain ⟨j, tail, hj, rfl⟩ | ⟨hwait, -⟩ := decode_cases h ws
      · obtain ⟨rfl, rfl⟩ : j = i ∧ tail = rest := by simpa using hj.symm.trans hd
        exact ⟨h, j.operands, rfl, j.operands_length⟩
      · cases hwait.symm.trans hd
  · intro ws why hd
    cases ws with
    | nil => simp
    | cons h ws =>
      obtain ⟨j, tail, hj, -⟩ | ⟨-, hfew⟩ := decode_cases h ws
      · cases hj.symm.trans hd
      · exact Nat.succ_lt_succ hfew

/-! ### The header bits the decoder reads (R96) -/

/-- The opcodes of formats W, R, P and Q, whose `IMM8` is an operand (R92, R94). -/
def immOpcodes : List Byte := [0x02, 0x03, 0x04, 0x30]

/-- The decoder reads `OPC`, and `IMM8` where it is an operand. -/
theorem decode_congr (hop : opcodeOf h = opcodeOf h')
    (himm : opcodeOf h ∈ immOpcodes → immOf h = immOf h') : decode (h :: ws) = decode (h' :: ws) := by
  unfold decode
  dsimp only
  rw [← hop]
  split
  case h_3 hopc | h_4 hopc | h_5 hopc | h_12 hopc =>
    rw [himm (by simp [immOpcodes, ← BitVec.toNat_inj, hopc])]
  all_goals rfl

/-- Settles O2: by `decode_congr`; no opcode of format Z or B is one whose `IMM8` is an operand. -/
theorem decodeIgnoresReservedBits : Obligations.DecodeIgnoresReservedBits := by
  rintro h h' ws hop (himm | hunread)
  · exact decode_congr hop fun _ => himm
  · have hnot : opcodeOf h ∉ immOpcodes :=
      (by decide : ∀ opc ∈ [0x00, 0x01, 0x10, 0x11, 0x12, 0x20, 0x21, 0x22], opc ∉ immOpcodes) _ hunread
    exact decode_congr hop fun hread => absurd hread hnot

/-- Settles O4: each word sequence by the row of the opcode map that its header selects. -/
theorem specWordsDecode : Obligations.SpecWordsDecode :=
  ⟨decode_regWr rfl, decode_regRd rfl, decode_pcmBlock rfl, decode_rbWrite rfl, decode_rbCons rfl,
    decode_brProc rfl, decode_rbClear rfl, decode_brReset rfl, decode_outStart rfl, decode_outStop rfl,
    decode_outXfer rfl, decode_nop (by decide), decode_nop (by decide)⟩

end Sys2Proof

namespace Sys2Proof.Machine

variable {s : State} {i : Instr} {rest : List Word}

/-! ### FG takes a command off the port (R90) -/

theorem State.fgTurn_of_command (hfg : s.fg = .idle) (hport : decode s.port = .command i rest) :
    s.fgTurn = exec i (s.withPort rest) := by
  simp only [State.fgTurn, hfg, hport]

/-- Settles O5: FG's turn after the turn is spent, which leaves the port and FG's place alone. -/
theorem stepRunsTheDecodedCommand : Obligations.StepRunsTheDecodedCommand := by
  intro s i rest hc hfg hport hturn
  have hrun : s.spendTurn.fgTurn = exec i (s.spendTurn.withPort rest) :=
    State.fgTurn_of_command hfg hport
  simp only [Machine.step, hc, if_true, State.anyStep, hturn, State.agentStep, hrun]

end Sys2Proof.Machine

namespace Sys2Proof.Machine

/-! ### Samples as integers (R11, R121, R122) -/

section Samples

variable {v : Int}

theorem sample_range (a : Sample) : -32768 ≤ a.toInt ∧ a.toInt ≤ 32767 :=
  ⟨a.le_toInt, a.toInt_le⟩

theorem sample_range_of_between {a b : Sample} (hlo : min a.toInt b.toInt ≤ v)
    (hhi : v ≤ max a.toInt b.toInt) : -32768 ≤ v ∧ v ≤ 32767 := by
  have ha := sample_range a
  have hb := sample_range b
  omega

/-- An integer in the range of `int16` is kept whole by a sample. -/
theorem toInt_ofInt_sample (hlo : -32768 ≤ v) (hhi : v ≤ 32767) : (BitVec.ofInt 16 v).toInt = v :=
  BitVec.toInt_ofInt_eq_self (by decide) hlo (Int.lt_add_one_of_le hhi)

theorem clip16_eq_clampInt (v : Int) : clip16 v = BitVec.ofInt 16 (clampInt v (-32768) 32767) := rfl

theorem clip16_toInt (v : Int) : (clip16 v).toInt = max (-32768) (min 32767 v) := by
  rw [clip16_eq_clampInt, clampInt_eq (by decide)]
  exact toInt_ofInt_sample (le_max_left _ _) (max_le (by decide) (min_le_left _ _))

/-- The clip never changes an integer between two samples. -/
theorem clip16_between {a b : Sample} (hlo : min a.toInt b.toInt ≤ v) (hhi : v ≤ max a.toInt b.toInt) :
    (clip16 v).toInt = v := by
  have hrange := sample_range_of_between hlo hhi
  rw [clip16_toInt]
  omega

/-- The clip keeps every sample. -/
@[simp] theorem clip16_toInt_self (a : Sample) : clip16 a.toInt = a :=
  BitVec.eq_of_toInt_eq (clip16_between (min_self _).le (max_self _).ge)

end Samples

/-- Settles O23: the exact sum is clipped like any other integer. -/
theorem clipAndSaturatingAdd : Obligations.ClipAndSaturatingAdd :=
  ⟨clip16_toInt, fun a b => clip16_toInt (a.toInt + b.toInt)⟩

/-! ### The word of a frame (R123, R124) -/

theorem pack_toNat (f : Frame) : (pack f).toNat = f.l.toNat * 65536 + f.r.toNat := by
  rw [pack, BitVec.toNat_append, ← Nat.shiftLeft_add_eq_or_of_lt f.r.isLt, Nat.shiftLeft_eq]

@[simp] theorem unpack_pack (f : Frame) : unpack (pack f) = f := by
  rw [unpack, pack, BitVec.extractLsb'_append_eq_left, BitVec.extractLsb'_append_eq_right]

@[simp] theorem pack_unpack (w : Word) : pack (unpack w) = w := by
  rw [pack, unpack, BitVec.extractLsb'_append_extractLsb'_eq_extractLsb' (by rfl), BitVec.extractLsb'_eq_self]

/-- Settles O24: the word is the two patterns appended, and `unpack` reads each half back. -/
theorem unpackInvertsPack : Obligations.UnpackInvertsPack :=
  ⟨pack_toNat, unpack_pack, pack_unpack⟩

/-! ### The floor of a scaled difference: interpolation and gain (R125, R126) -/

section Floor

variable {a b w : Sample} {f g : Nat}

/-- The floor of the part `f / 2^16` of an integer lies between 0 and it. -/
theorem scaledFloor_between (x : Int) (hf : f ≤ 65536) :
    min 0 x ≤ x * (f : Int) / 65536 ∧ x * (f : Int) / 65536 ≤ max 0 x := by
  have hf' : (f : Int) ≤ 65536 := by exact_mod_cast hf
  rcases le_total 0 x with hx | hx
  · have hprod : 0 ≤ x * (f : Int) := mul_nonneg hx (Int.natCast_nonneg f)
    have hprod' : x * (f : Int) ≤ x * 65536 := mul_le_mul_of_nonneg_left hf' hx
    omega
  · have hprod : x * (f : Int) ≤ 0 := mul_nonpos_of_nonpos_of_nonneg hx (Int.natCast_nonneg f)
    have hprod' : x * 65536 ≤ x * (f : Int) := mul_le_mul_of_nonpos_left hf' hx
    omega

/-- The formula of R125 lies between the two samples. -/
theorem lerpFloor_between (a b : Sample) (hf : f < 65536) :
    min a.toInt b.toInt ≤ a.toInt + (b.toInt - a.toInt) * (f : Int) / 65536 ∧
    a.toInt + (b.toInt - a.toInt) * (f : Int) / 65536 ≤ max a.toInt b.toInt := by
  have hpart := scaledFloor_between (b.toInt - a.toInt) hf.le
  omega

theorem lerp16_toInt (hf : f < 65536) :
    (lerp16 a b f).toInt = a.toInt + (b.toInt - a.toInt) * (f : Int) / 65536 := by
  obtain ⟨hlo, hhi⟩ := lerpFloor_between a b hf
  obtain ⟨hmin, hmax⟩ := sample_range_of_between hlo hhi
  exact toInt_ofInt_sample hmin hmax

theorem gain16_toInt (hg : g ≤ 65536) : (gain16 w g).toInt = w.toInt * (g : Int) / 65536 := by
  have hpart := scaledFloor_between w.toInt hg
  have hw := sample_range w
  exact toInt_ofInt_sample (by omega) (by omega)

theorem gain16_natAbs_le (hg : g ≤ 65536) : (gain16 w g).toInt.natAbs ≤ w.toInt.natAbs := by
  have hpart := scaledFloor_between w.toInt hg
  rw [gain16_toInt hg]
  omega

end Floor

/-- Settles O25: the floor formula lies between the samples, so the word keeps it whole. -/
theorem lerpStaysBetweenItsSamples : Obligations.LerpStaysBetweenItsSamples := by
  intro a b f hf
  obtain ⟨hlo, hhi⟩ := lerpFloor_between a b hf
  rw [Int.fdiv_eq_ediv_of_nonneg _ (by decide), lerp16_toInt hf]
  exact ⟨rfl, hlo, hhi, fun _ _ => rfl⟩

/-- Settles O26: the floor formula lies between 0 and the sample. -/
theorem gainNeverAmplifies : Obligations.GainNeverAmplifies := by
  intro w g hg
  rw [Int.fdiv_eq_ediv_of_nonneg _ (by decide)]
  exact ⟨gain16_toInt hg, gain16_natAbs_le hg⟩

/-! ### The crossfade (R127) -/

section Crossfade

variable {d w : Sample} {m : Nat}

/-- A crossfade of two integers by `m` percent, before the division by 100. -/
theorem crossfade_between (x y : Int) (hm : m ≤ 100) :
    min x y * 100 ≤ x * (100 - (m : Int)) + y * (m : Int) ∧
    x * (100 - (m : Int)) + y * (m : Int) ≤ max x y * 100 := by
  have hdry : 0 ≤ 100 - (m : Int) := by omega
  have hwet : 0 ≤ (m : Int) := Int.natCast_nonneg m
  constructor
  · calc min x y * 100 = min x y * (100 - (m : Int)) + min x y * (m : Int) := by ring
      _ ≤ x * (100 - (m : Int)) + y * (m : Int) :=
        add_le_add (mul_le_mul_of_nonneg_right (min_le_left x y) hdry)
          (mul_le_mul_of_nonneg_right (min_le_right x y) hwet)
  · calc x * (100 - (m : Int)) + y * (m : Int)
        ≤ max x y * (100 - (m : Int)) + max x y * (m : Int) :=
        add_le_add (mul_le_mul_of_nonneg_right (le_max_left x y) hdry)
          (mul_le_mul_of_nonneg_right (le_max_right x y) hwet)
      _ = max x y * 100 := by ring

/-- The truncated quotient lies between dry and wet: truncation is monotone and exact at both. -/
theorem mixQuotient_between (d w : Sample) (hm : m ≤ 100) :
    min d.toInt w.toInt ≤ (d.toInt * (100 - (m : Int)) + w.toInt * (m : Int)).tdiv 100 ∧
    (d.toInt * (100 - (m : Int)) + w.toInt * (m : Int)).tdiv 100 ≤ max d.toInt w.toInt := by
  obtain ⟨hlo, hhi⟩ := crossfade_between d.toInt w.toInt hm
  constructor
  · calc min d.toInt w.toInt = (min d.toInt w.toInt * 100).tdiv 100 :=
        (Int.mul_tdiv_cancel _ (by decide)).symm
      _ ≤ _ := Int.tdiv_le_tdiv (by decide) hlo
  · calc _ ≤ (max d.toInt w.toInt * 100).tdiv 100 := Int.tdiv_le_tdiv (by decide) hhi
      _ = max d.toInt w.toInt := Int.mul_tdiv_cancel _ (by decide)

theorem mixpct_toInt (hm : m ≤ 100) :
    (mixpct d w m).toInt = (d.toInt * (100 - (m : Int)) + w.toInt * (m : Int)).tdiv 100 := by
  obtain ⟨hlo, hhi⟩ := mixQuotient_between d w hm
  exact clip16_between hlo hhi

@[simp] theorem mixpct_dry (d w : Sample) : mixpct d w 0 = d := by
  simp [mixpct, divT]

@[simp] theorem mixpct_wet (d w : Sample) : mixpct d w 100 = w := by
  simp [mixpct, divT]

end Crossfade

/-- Settles O27: the quotient lies between dry and wet, so the clip keeps it. -/
theorem mixStaysBetweenDryAndWet : Obligations.MixStaysBetweenDryAndWet := by
  intro d w m hm
  obtain ⟨hlo, hhi⟩ := mixQuotient_between d w hm
  rw [mixpct_toInt hm]
  exact ⟨rfl, hlo, hhi, mixpct_dry d w, mixpct_wet d w⟩

/-! ### The envelope (R128) -/

section Envelope

variable {rp len shape fade : Nat}

theorem envGain_no_fade (hfade : len * shape / 2 ^ 17 = 0) : envGain rp len shape = 65536 :=
  if_pos hfade

/-- The fade-in test is made first. -/
theorem envGain_fade_in (hfade : fade = len * shape / 2 ^ 17) (hrp : rp < fade * 65536) :
    envGain rp len shape = rp / fade := by
  subst hfade
  exact (if_neg (by omega)).trans (if_pos hrp)

theorem envGain_fade_out (hfade : fade = len * shape / 2 ^ 17) (hpos : 1 ≤ fade)
    (hrp : fade * 65536 ≤ rp) (hout : len * 65536 ≤ rp + fade * 65536) :
    envGain rp len shape = (len * 65536 - rp) / fade := by
  subst hfade
  exact (if_neg (by omega)).trans ((if_neg hrp.not_gt).trans (if_pos (Nat.sub_le_iff_le_add.mpr hout)))

theorem envGain_flat (hfade : fade = len * shape / 2 ^ 17) (hrp : fade * 65536 ≤ rp)
    (hflat : rp + fade * 65536 < len * 65536) : envGain rp len shape = 65536 := by
  rcases Nat.eq_zero_or_pos fade with hzero | hpos
  · exact envGain_no_fade (hfade.symm.trans hzero)
  · subst hfade
    exact (if_neg hpos.ne').trans ((if_neg hrp.not_gt).trans (if_neg (by omega)))

/-- Inside a fade the position counted from its outer end is at most `fade` frames. -/
theorem envGain_le (rp len shape : Nat) : envGain rp len shape ≤ 65536 := by
  obtain ⟨fade, hfade⟩ : ∃ fade, fade = len * shape / 2 ^ 17 := ⟨_, rfl⟩
  rcases Nat.eq_zero_or_pos fade with hzero | hpos
  · exact (envGain_no_fade (hfade.symm.trans hzero)).le
  rcases lt_or_ge rp (fade * 65536) with hin | hrp
  · rw [envGain_fade_in hfade hin]
    exact Nat.div_le_of_le_mul hin.le
  rcases lt_or_ge (rp + fade * 65536) (len * 65536) with hflat | hout
  · exact (envGain_flat hfade hrp hflat).le
  · rw [envGain_fade_out hfade hpos hrp hout]
    exact Nat.div_le_of_le_mul (Nat.sub_le_iff_le_add'.mpr hout)

end Envelope

/-- Settles O28: the four branches of `env_gain`, each with its own range of positions. -/
theorem envelopeGainIsAtMostOne : Obligations.EnvelopeGainIsAtMostOne := by
  intro rp len shape _ _ _ _
  refine ⟨envGain_le rp len shape, envGain_no_fade (by simp), fun hfaded => ?_, fun fade hfade =>
    ⟨fun hzero => envGain_no_fade (hfade.symm.trans hzero), envGain_fade_in hfade, envGain_fade_out hfade,
      envGain_flat hfade⟩⟩
  rw [envGain_fade_in rfl (by omega), Nat.zero_div]

/-! ### The sine (R129) -/

section Sine

variable {ph : Nat}

theorem sinq15_congr {ph' : Nat} (h : ph / 256 = ph' / 256) : sinq15 ph = sinq15 ph' := by
  simp only [sinq15, h]

/-- The first quadrant reads the table upwards, its end included. -/
theorem sinq15_rising (h : ph / 256 ≤ 64) : sinq15 ph = quarterSineAt (ph / 256) := by
  unfold sinq15
  generalize ph / 256 = idx at h ⊢
  rcases h.lt_or_eq with hlt | rfl
  · simp [Nat.div_eq_of_lt hlt, Nat.mod_eq_of_lt hlt]
  · rfl

/-- The second quadrant reads it downwards, down to the half turn. -/
theorem sinq15_falling (h : 64 ≤ ph / 256) (h' : ph / 256 ≤ 128) :
    sinq15 ph = quarterSineAt (128 - ph / 256) := by
  unfold sinq15
  generalize ph / 256 = idx at h h' ⊢
  rcases h'.lt_or_eq with hlt | rfl
  · have hquadrant : idx / 64 = 1 := by omega
    have hplace : 64 - idx % 64 = 128 - idx := by omega
    simp [hquadrant, hplace]
  · rfl

/-- Half a turn moves by two quadrants and keeps the place in them. -/
theorem sinq15_half_turn (hph : ph < 65536) : sinq15 ((ph + 32768) % 65536) = - sinq15 ph := by
  have hquadrant : (ph + 32768) % 65536 / 256 / 64 = (ph / 256 / 64 + 2) % 4 := by omega
  have hplace : (ph + 32768) % 65536 / 256 % 64 = ph / 256 % 64 := by omega
  have hlt : ph / 256 / 64 < 4 := by omega
  simp only [sinq15, hquadrant, hplace]
  generalize ph / 256 / 64 = q at hlt ⊢
  interval_cases q <;> simp

/-- On the steps of the first half turn, reflecting the phase about the quarter turn swaps the two
directions of reading. -/
theorem sinq15_reflect (hstep : ph % 256 = 0) (hph : ph ≤ 32768) : sinq15 (32768 - ph) = sinq15 ph := by
  have hmirror : (32768 - ph) / 256 = 128 - ph / 256 := by omega
  rcases le_total (ph / 256) 64 with hfirst | hsecond
  · rw [sinq15_rising hfirst, sinq15_falling (by omega) (by omega), hmirror, Nat.sub_sub_self (by omega)]
  · rw [sinq15_falling hsecond (by omega), sinq15_rising (by omega), hmirror]

theorem neg_le_sinq15 (hph : ph < 65536) : -32767 ≤ sinq15 ph :=
  neg_le.mp (sinq15_half_turn hph ▸ sinq15_le _)

/-- At the steps of the first quadrant the sine is the table. -/
theorem sinq15_table : (List.range 65).map (fun k => sinq15 (256 * k)) =
    (List.range 65).map quarterSineAt := by
  refine List.map_congr_left fun k hk => ?_
  have hstep : 256 * k / 256 = k := Nat.mul_div_cancel_left k (by decide)
  rw [sinq15_rising (hstep.le.trans (Nat.le_of_lt_succ (List.mem_range.mp hk))), hstep]

end Sine

/-- Settles O29: the table's entries, then the symmetries that carry them to every phase. -/
theorem sineIsOddAndInRange : Obligations.SineIsOddAndInRange :=
  ⟨sinq15_table.trans (by decide), fun _ hph =>
    ⟨⟨neg_le_sinq15 hph, sinq15_le _⟩, sinq15_half_turn hph,
      sinq15_congr (Nat.mul_div_cancel _ (by decide)), sinq15_reflect⟩⟩

end Sys2Proof.Machine

namespace Sys2Proof.Machine

/-! ### The parameter registers as a list (R41) -/

section RegisterFile

variable {c : Config} {p q : Params} {r : Ring} {i j k : Nat} {v w : Word}

/-- The values of the fifteen parameter registers, in index order. -/
def Params.values (p : Params) : List Word := paramIndices.map p.get

theorem mem_paramIndices : k ∈ paramIndices ↔ k ≤ 0x0E := by
  simp only [paramIndices, List.mem_cons, List.not_mem_nil, or_false]
  omega

theorem Params.values_length (p : Params) : p.values.length = 15 := rfl

theorem Params.get_eq_values (p : Params) (k : Nat) : p.get k = p.values.getD k 0 := by
  match k with
  | 0 | 1 | 2 | 3 | 4 | 5 | 6 | 7 | 8 | 9 | 10 | 11 | 12 | 13 | 14 => rfl
  | k + 15 => rfl

theorem Params.values_set (p : Params) (k : Nat) (v : Word) : (p.set k v).values = p.values.set k v := by
  match k with
  | 0 | 1 | 2 | 3 | 4 | 5 | 6 | 7 | 8 | 9 | 10 | 11 | 12 | 13 | 14 => rfl
  | k + 15 => rfl

/-- A register file is determined by its values. -/
theorem Params.ext_values (h : p.values = q.values) : p = q := by
  cases p
  cases q
  simpa [Params.values, paramIndices, Params.get] using h

theorem Params.ext_get (h : ∀ k ∈ paramIndices, p.get k = q.get k) : p = q :=
  Params.ext_values (List.map_congr_left h)

/-! ### Reading and writing a register by its index (R40, R152, R153) -/

theorem Params.get_of_not_param (hk : 0x0E < k) : p.get k = 0 := by
  rw [get_eq_values, List.getD_eq_default _ _ (by rw [values_length]; omega)]

theorem Params.set_of_not_param (hk : 0x0E < k) : p.set k v = p :=
  Params.ext_values (by rw [values_set, List.set_eq_of_length_le (by rw [values_length]; omega)])

theorem Params.get_set : (p.set k v).get i = if i = k ∧ i ≤ 0x0E then v else p.get i := by
  simp only [get_eq_values, values_set, List.getD_eq_getElem?_getD]
  by_cases hik : i = k
  · subst hik
    by_cases hi : i ≤ 0x0E
    · have hlt : i < p.values.length := Nat.lt_succ_of_le hi
      simp [hi, hlt]
    · have hout : p.values.length ≤ i := Nat.lt_of_not_le hi
      simp [hi, List.set_eq_of_length_le hout]
  · simp [hik, List.getElem?_set_ne (Ne.symm hik)]

/-- Writes at two indices commute. -/
theorem Params.set_comm (h : j ≠ k) : (p.set j v).set k w = (p.set k w).set j v :=
  Params.ext_values (by simp only [values_set, List.set_comm _ _ h])

theorem regRead_param (hk : k ≤ 0x0E) : regRead c p r k = p.get k := by
  unfold regRead
  split
  case h_5 => rfl
  all_goals omega

theorem regRead_reserved (hk : k = 0x0F ∨ 0x14 ≤ k) : regRead c p r k = 0 := by
  unfold regRead
  split
  case h_5 => exact Params.get_of_not_param (by omega)
  all_goals omega

end RegisterFile

/-! ### The clamp functions change no legal value (R41) -/

section Legal

variable {c : Config} {lo hi k : Nat} {data : Word}

theorem legalNumber_legalNumber (h : lo ≤ hi) (hhi : hi < 2 ^ 31) :
    legalNumber lo hi (legalNumber lo hi data) = legalNumber lo hi data := by
  rw [← BitVec.toInt_inj, legalNumber_toInt h hhi, legalNumber_toInt h hhi]
  omega

theorem legalBool_legalBool : legalBool (legalBool data) = legalBool data := by
  rcases legalBool_eq_zero_or_one (data := data) with h | h <;> rw [h] <;> rfl

theorem legalDivider_legalDivider : legalDivider (legalDivider data) = legalDivider data :=
  if_pos legalDivider_mem

theorem legalValue_legalValue (hc : configOk c = true) :
    legalValue c k (legalValue c k data) = legalValue c k data := by
  have hb := configBounds hc
  have hmin := hb.minSlice_le
  have hmax := hb.maxSlice_le
  match k with
  | 0x00 | 0x05 | 0x06 | 0x0E => exact legalBool_legalBool
  | 0x01 | 0x07 => exact legalNumber_legalNumber hmin (by omega)
  | 0x02 | 0x03 | 0x04 | 0x08 | 0x09 | 0x0A | 0x0B | 0x0D =>
    exact legalNumber_legalNumber (by omega) (by omega)
  | 0x0C => exact legalDivider_legalDivider
  | k + 15 => rfl

end Legal

/-! ### `REG.WR` and `REG.RD` (R152, R153) -/

theorem exec_regRd (idx : Byte) (s : State) :
    exec (.regRd idx) s = .next { s with res := regRead s.cfg s.params s.ring idx.toNat } := rfl

/-- `REG.WR` is one write of the register file, at every index: where no parameter is, that write changes
nothing; the event of an altered value records nothing (R303). -/
theorem exec_regWr (idx : Byte) (data : Word) (s : State) :
    exec (.regWr idx data) s =
      .next { s with params := s.params.set idx.toNat (legalValue s.cfg idx.toNat data) } := by
  change execRegWr idx data s = _
  unfold execRegWr
  split
  case isTrue => simp
  case isFalse hidx => rw [Params.set_of_not_param (by omega)]

/-- Settles O18: the registers after one write, read back by `Params.get_set`. -/
theorem regWrStoresTheLegalValue : Obligations.RegWrStoresTheLegalValue := by
  intro idx data s
  refine ⟨⟨_, exec_regWr idx data s, fun k => ?_⟩, ?_⟩
  · rw [Params.get_set]
    by_cases hk : k = idx.toNat
    · rw [hk]
    · simp [hk]
  · rintro h ws hop rfl
    exact decode_regWr hop

/-- Settles O20: by the range of the index. What `FREE` answers fits a word, as `CAP` does (R8). -/
theorem regRdReadsTheRegister : Obligations.RegRdReadsTheRegister := by
  intro idx s
  refine ⟨⟨_, exec_regRd idx s, regRead_param, ?filled, ?free, ?underrun, ?overrun, regRead_reserved⟩, ?_⟩
  case free =>
    intro hidx hc hfc
    have hcap := (configBounds hc).cap_lt
    have hfree : (BitVec.ofNat 32 (s.cfg.cap - s.ring.fc.toNat)).toNat = s.cfg.cap - s.ring.fc.toNat :=
      toNat_ofNat_word (by omega)
    simp only [hidx, regRead]
    omega
  case filled | underrun | overrun => exact fun hidx => by rw [hidx]; rfl
  · rintro h ws hop rfl
    exact decode_regRd hop

/-- Settles O21: neither write changes the value the other stores, and `Params.set_comm`. -/
theorem registerWritesCommute : Obligations.RegisterWritesCommute := by
  intro j k d e s hjk
  have hne : j.toNat ≠ k.toNat := fun h => hjk (BitVec.eq_of_toNat_eq h)
  refine ⟨_, _, _, exec_regWr j d s, exec_regWr k e _, exec_regWr k e s, ?_⟩
  rw [exec_regWr, Params.set_comm hne]

/-! ### Runs of register commands: `SETPARAMS` and `GETPARAMS` (R99, R154, R155) -/

section RegisterRuns

variable {c : Config} {p v : Params} {s t : State} {i : Instr} {is : List Instr} {j k : Nat} {ks : List Nat}

theorem runCommands_cons (h : exec i s = .next t) : runCommands (i :: is) s = t :: runCommands is t := by
  simp only [runCommands, h]

/-- A parameter's index is kept whole by `IMM8`. -/
theorem toNat_ofNat_paramIndex (hk : k ≤ 0x0E) : (BitVec.ofNat 8 k).toNat = k :=
  (BitVec.toNat_ofNat k 8).trans (Nat.mod_eq_of_lt (by omega))

/-- The registers after the values of `v` are written at the indices `ks`, one after another (R154). -/
def Params.setLegal (c : Config) (p v : Params) (ks : List Nat) : Params :=
  ks.foldl (fun q k => q.set k (legalValue c k (v.get k))) p

theorem Params.get_setLegal (hks : ∀ k ∈ ks, k ≤ 0x0E) : (p.setLegal c v ks).get j =
    if j ∈ ks then legalValue c j (v.get j) else p.get j := by
  induction ks generalizing p with
  | nil => rfl
  | cons k ks ih =>
    obtain ⟨hk, hks⟩ := List.forall_mem_cons.mp hks
    calc ((p.set k (legalValue c k (v.get k))).setLegal c v ks).get j
      _ = if j ∈ ks then legalValue c j (v.get j)
          else if j = k ∧ j ≤ 0x0E then legalValue c k (v.get k) else p.get j := by
        rw [ih hks, Params.get_set]
      _ = if j ∈ k :: ks then legalValue c j (v.get j) else p.get j := by
        by_cases hjk : j = k
        · simp [hjk, hk]
        · simp [hjk]

theorem ParamsOk.setLegal (h : ParamsOk c p) (hc : configOk c = true) (hks : ∀ k ∈ ks, k ≤ 0x0E) :
    ParamsOk c (p.setLegal c v ks) := by
  induction ks generalizing p with
  | nil => exact h
  | cons k ks ih =>
    obtain ⟨hk, hks⟩ := List.forall_mem_cons.mp hks
    exact ih (h.set_legalValue hc (v.get k) k hk) hks

theorem Params.get_setLegal_paramIndices (hk : k ∈ paramIndices) :
    (p.setLegal c v paramIndices).get k = legalValue c k (v.get k) :=
  (get_setLegal fun _ => mem_paramIndices.mp).trans (if_pos hk)

/-- Writing all fifteen registers leaves nothing of what they held before, so they are as legal as after
the same writes from reset. -/
theorem paramsOk_setLegal_paramIndices (hc : configOk c = true) :
    ParamsOk c (p.setLegal c v paramIndices) := by
  have hfresh : p.setLegal c v paramIndices = (Params.reset c).setLegal c v paramIndices :=
    Params.ext_get fun _ hk =>
      (Params.get_setLegal_paramIndices hk).trans (Params.get_setLegal_paramIndices hk).symm
  rw [hfresh]
  exact (ParamsOk.reset (configBounds hc)).setLegal hc fun _ => mem_paramIndices.mp

/-- A run of `REG.WR` commands ends with its writes made, and nothing else changed. -/
theorem runCommands_regWr (hks : ∀ j ∈ k :: ks, j ≤ 0x0E) :
    (runCommands ((k :: ks).map fun j => .regWr (BitVec.ofNat 8 j) (v.get j)) s).getLast? =
      some { s with params := s.params.setLegal s.cfg v (k :: ks) } := by
  obtain ⟨hk, htail⟩ := List.forall_mem_cons.mp hks
  rw [List.map_cons, runCommands_cons (exec_regWr _ _ s), toNat_ofNat_paramIndex hk]
  induction ks generalizing k s with
  | nil => rfl
  | cons l ks ih =>
    obtain ⟨hl, hrest⟩ := List.forall_mem_cons.mp htail
    rw [List.map_cons, runCommands_cons (exec_regWr _ _ _), List.getLast?_cons_cons, toNat_ofNat_paramIndex hl]
    exact ih htail hl hrest

/-- A run of `REG.RD` commands answers the registers one by one: no answer changes a register. -/
theorem runCommands_regRd (hks : ∀ k ∈ ks, k ≤ 0x0E) :
    (runCommands (ks.map fun k => .regRd (BitVec.ofNat 8 k)) s).map State.res = ks.map s.params.get := by
  induction ks generalizing s with
  | nil => rfl
  | cons k ks ih =>
    obtain ⟨hk, hks⟩ := List.forall_mem_cons.mp hks
    rw [List.map_cons, runCommands_cons (exec_regRd _ s), List.map_cons, List.map_cons, ih hks,
      toNat_ofNat_paramIndex hk, regRead_param hk]

end RegisterRuns

/-- Settles O22: the run of writes, then the run of reads from the registers it left. -/
theorem setParamsThenGetParams : Obligations.SetParamsThenGetParams := by
  intro v s hc
  have hget : ∀ k ∈ paramIndices,
      (s.params.setLegal s.cfg v paramIndices).get k = legalValue s.cfg k (v.get k) :=
    fun _ => Params.get_setLegal_paramIndices
  refine ⟨s.params.setLegal s.cfg v paramIndices, runCommands_regWr fun _ => mem_paramIndices.mp, hget, ?_,
    fun k hk => ?_, paramsOk_setLegal_paramIndices hc⟩
  · exact (runCommands_regRd fun _ => mem_paramIndices.mp).trans (List.map_congr_left hget)
  · rw [hget k hk, legalValue_legalValue hc]

/-! ### `BR.RESET` (R156) -/

/-- Settles O30: `BR.RESET` stores the reset column of R26, whatever the effect state was. -/
theorem brResetZeroesTheEffect : Obligations.BrResetZeroesTheEffect :=
  fun s => ⟨Effect.reset s.cfg, rfl, fun _ => Cells.read_nil, rfl, rfl, rfl, rfl, rfl, rfl, rfl,
    fun _ _ => decode_brReset⟩

end Sys2Proof.Machine

namespace Sys2Proof.Machine

/-! ### A boolean register is on when it is not 0 (R33, R41) -/

theorem isOn_eq_true_iff {reg : Word} : isOn reg = true ↔ reg ≠ 0 := by simp [isOn]

theorem isOn_eq_false_iff {reg : Word} : isOn reg = false ↔ reg = 0 := by simp [isOn]

/-! ### `process`, by what decides the bypass (R180, R195) -/

/-- A disabled engine or a channel count other than 2 (R195). -/
theorem State.process_of_bypass {s : State} {ch : Byte} (h : ch ≠ 2 ∨ s.params.enabled = 0)
    (addr count : Word) : s.process ch addr count = s := by
  rcases State.process_cases s ch addr count with ⟨-, hsame⟩ | ⟨hch, hon, -⟩
  · exact hsame
  · exact absurd h (not_or.mpr ⟨not_not.mpr hch, isOn_eq_true_iff.mp hon⟩)

theorem State.process_of_enabled {s : State} (h : s.params.enabled ≠ 0) (addr count : Word) :
    s.process 2 addr count = { s with
      effect := (processFrames s.cfg s.params addr.toNat count.toNat 0 s.effect s.pcm).1
      pcm := (processFrames s.cfg s.params addr.toNat count.toNat 0 s.effect s.pcm).2 } := by
  rcases State.process_cases s 2 addr count with ⟨hch | hoff, -⟩ | ⟨-, -, hrun⟩
  · exact absurd rfl hch
  · exact absurd (isOn_eq_false_iff.mp hoff) h
  · exact hrun

/-- `BR.PROC` over a block that fits is `process` (R66, R180). -/
theorem exec_brProc {ch : Byte} {addr count : Word} {s : State} (h : spanFits addr count = true) :
    exec (.brProc ch addr count) s = .next (s.process ch addr count) := if_pos h

/-- Settles O31: `process` is bypassed. -/
theorem bypassChangesNothing : Obligations.BypassChangesNothing :=
  fun _ addr count _ hfits hbypass =>
    (exec_brProc hfits).trans (congrArg _ (State.process_of_bypass hbypass addr count))

/-! ### The effect over a block of frames (R180, R181) -/

section Block

variable {c : Config} {p : Params} {addr : Nat}

theorem blockFrames_eq_range' (m : Memory) (addr n : Nat) :
    blockFrames m addr n = (List.range' 0 n).map (readFrame m addr) := by
  rw [blockFrames, List.range_eq_range']

/-- A frame written before frame `i` is out of sight from there on. -/
theorem map_readFrame_writeFrame (m : Memory) (addr i n : Nat) (f : Frame) :
    (List.range' (i + 1) n).map (readFrame (writeFrame m addr i f) addr) =
      (List.range' (i + 1) n).map (readFrame m addr) := by
  refine List.map_congr_left fun k hk => readFrame_writeFrame_other ?_
  have := (List.mem_range'_1.mp hk).1
  omega

/-- The frames already behind the loop keep what it wrote there. -/
theorem readFrame_processFrames_behind (n i : Nat) (e : Effect) (m : Memory) {k : Nat} (hk : k < i) :
    readFrame (processFrames c p addr n i e m).2 addr k = readFrame m addr k := by
  induction n generalizing i e m with
  | zero => rfl
  | succ n ih => rw [processFrames_succ, ih _ _ _ (by omega), readFrame_writeFrame_other hk.ne]

/-- The loop's effect state is that of the run over the frames that stood in the block. -/
theorem processFrames_effect (n i : Nat) (e : Effect) (m : Memory) :
    (processFrames c p addr n i e m).1 =
      (runFrames c p e ((List.range' i n).map (readFrame m addr))).1 := by
  induction n generalizing i e m with
  | zero => rfl
  | succ n ih =>
    rw [processFrames_succ, ih, map_readFrame_writeFrame]
    rfl

/-- The block then holds the frames which that run puts out. -/
theorem processFrames_frames (n i : Nat) (e : Effect) {m : Memory} (hm : m.wf = true)
    (hspan : addr + 2 * (i + n) ≤ 2 ^ 32) :
    (List.range' i n).map (readFrame (processFrames c p addr n i e m).2 addr) =
      (runFrames c p e ((List.range' i n).map (readFrame m addr))).2 := by
  induction n generalizing i e m with
  | zero => rfl
  | succ n ih =>
    rw [processFrames_succ, List.range'_succ, List.map_cons, List.map_cons,
      readFrame_processFrames_behind _ _ _ _ (Nat.lt_succ_self i),
      readFrame_writeFrame_same hm (by omega), ih _ _ (writeFrame_wf hm (by omega)) (by omega),
      map_readFrame_writeFrame]
    rfl

/-- A run of the loop over `n + k` frames is one over `n` and one over the `k` after them. -/
theorem processFrames_add (n k i : Nat) (e : Effect) (m : Memory) :
    processFrames c p addr (n + k) i e m =
      processFrames c p addr k (i + n) (processFrames c p addr n i e m).1
        (processFrames c p addr n i e m).2 := by
  induction n generalizing i e m with
  | zero => rw [Nat.zero_add]; rfl
  | succ n ih => rw [Nat.succ_add, processFrames_succ, processFrames_succ, ih, Nat.succ_add_eq_add_succ]

/-- Frames counted from frame `j` on are frames of the block that starts there. -/
theorem processFrames_shift (n i j : Nat) (e : Effect) (m : Memory) :
    processFrames c p addr n (j + i) e m = processFrames c p (addr + 2 * j) n i e m := by
  have haddr (i : Nat) : addr + 2 * (j + i) = addr + 2 * j + 2 * i := by ring
  induction n generalizing i e m with
  | zero => rfl
  | succ n ih =>
    rw [processFrames_succ, processFrames_succ, Nat.add_assoc, ih]
    simp only [readFrame, writeFrame, haddr]

/-- A block of no frames wraps to address 0 where the one before it ends at the top of the PCM space: no
frame of it is touched (R66). -/
theorem processFrames_wrapped {start k : Nat} (hfits : start + 2 * k ≤ 2 ^ 32) (i : Nat) (e : Effect)
    (m : Memory) : processFrames c p (start % 2 ^ 32) k i e m = processFrames c p start k i e m := by
  cases k with
  | zero => rfl
  | succ k => rw [Nat.mod_eq_of_lt (by omega)]

end Block

/-- Settles O32: the loop over the block from its first frame on. -/
theorem brProcIsTheFrameStepOverTheBlock : Obligations.BrProcIsTheFrameStepOverTheBlock := by
  intro addr count s hfits hpcm hon
  have hspan : addr.toNat + 2 * (0 + count.toNat) ≤ 2 ^ 32 := by simpa using spanFits_iff.mp hfits
  simp only [blockFrames_eq_range']
  refine ⟨(processFrames s.cfg s.params addr.toNat count.toNat 0 s.effect s.pcm).2, ?_,
    processFrames_wf _ _ _ hpcm hspan, processFrames_frames _ _ _ hpcm hspan,
    fun b hb => readByte_processFrames_outside _ _ _ _ (by simpa using not_inBlock_iff.mp hb)⟩
  rw [exec_brProc hfits, State.process_of_enabled hon, processFrames_effect]

/-- Two blocks one after the other are one block (R180): `process` reads the registers, which it never
writes, and nothing else outside the block and the effect. -/
theorem State.process_process {ch : Byte} {addr n k : Word} {s : State}
    (hcount : (n + k).toNat = n.toNat + k.toNat)
    (hspan : addr.toNat + 2 * n.toNat + 2 * k.toNat ≤ 2 ^ 32) :
    (s.process ch addr n).process ch (addr + 2 * n) k = s.process ch addr (n + k) := by
  have hstart : (addr + 2 * n).toNat = (addr.toNat + 2 * n.toNat) % 2 ^ 32 := by
    simp [BitVec.toNat_add, BitVec.toNat_mul]
  by_cases hbypass : ch ≠ 2 ∨ s.params.enabled = 0
  case pos => simp only [State.process_of_bypass hbypass]
  case neg =>
    obtain ⟨hch, hon⟩ := not_or.mp hbypass
    obtain rfl : ch = 2 := not_not.mp hch
    rw [State.process_of_enabled hon, State.process_of_enabled hon, State.process_of_enabled, hstart,
      processFrames_wrapped hspan, hcount, processFrames_add, Nat.zero_add, ← processFrames_shift,
      Nat.add_zero]
    exact hon

/-- Settles O33: both blocks fit where the whole one does. -/
theorem blocksCanBeSplit : Obligations.BlocksCanBeSplit := by
  intro ch addr n k s hlt hfits
  have hcount : (n + k).toNat = n.toNat + k.toNat := by
    rw [BitVec.toNat_add, Nat.mod_eq_of_lt hlt]
  have hspan : addr.toNat + 2 * n.toNat + 2 * k.toNat ≤ 2 ^ 32 := by
    have := spanFits_iff.mp hfits
    omega
  have hfirst : spanFits addr n = true := spanFits_iff.mpr (by omega)
  have hsecond : spanFits (addr + 2 * n) k = true := spanFits_iff.mpr (by bv_omega)
  exact ⟨_, _, exec_brProc hfirst, exec_brProc hsecond,
    (exec_brProc hfits).trans (congrArg _ (State.process_process hcount hspan).symm)⟩

end Sys2Proof.Machine

namespace Sys2Proof.Machine

/-! ### The active slice length (R182) -/

theorem activeSliceLength_of_stutter {p : Params} (h : p.stutterEnabled ≠ 0) :
    activeSliceLength p = max 1 (p.stutterLength.toNat / p.clockDivider.toNat) := by
  rw [activeSliceLength, Params.stutterOn, isOn_eq_true_iff.mpr h, if_pos rfl]

theorem activeSliceLength_of_no_stutter {p : Params} (h : p.stutterEnabled = 0) :
    activeSliceLength p = max 1 (p.sliceLength.toNat / p.clockDivider.toNat) := by
  rw [activeSliceLength, Params.stutterOn, isOn_eq_false_iff.mpr h, if_neg Bool.false_ne_true]

/-- Settles O38: the quotient of either register is at most the register. -/
theorem activeSliceLengthFitsTheCapture : Obligations.ActiveSliceLengthFitsTheCapture :=
  fun _ p hc hp =>
    ⟨fun hon => activeSliceLength_of_stutter (by rw [hon]; decide), activeSliceLength_of_no_stutter,
      activeSliceLength_pos p, activeSliceLength_le (configBounds hc) hp⟩

/-! ### The loop window (R186) -/

section LoopWindow

variable {p : Params} {rc rc' asl : Nat}

theorem loopWindow_off (p : Params) (rc asl : Nat) :
    (loopWindow p rc asl).off = min (asl * p.loopStart.toNat / 65536) (asl - 1) := rfl

theorem loopWindow_len {base dec : Nat} (hbase : base = asl - (loopWindow p rc asl).off)
    (hdec : dec = min (rc * p.loopSizeDecay.toNat) 65536) :
    (loopWindow p rc asl).len = max (base - base * dec / 65536) (max 1 (base / 10)) := by
  rw [hbase, hdec]
  rfl

/-- The first pass decays by nothing. -/
theorem loopWindow_first_len (p : Params) (h : 1 ≤ asl) :
    (loopWindow p 0 asl).len = asl - (loopWindow p 0 asl).off := by
  have hoff : (loopWindow p 0 asl).off ≤ asl - 1 := min_le_right _ _
  rw [loopWindow_len rfl rfl, Nat.zero_mul, Nat.zero_min, Nat.mul_zero, Nat.zero_div, Nat.sub_zero]
  omega

/-- A later pass decays by no less. -/
theorem loopWindow_len_antitone (p : Params) (asl : Nat) (h : rc ≤ rc') :
    (loopWindow p rc' asl).len ≤ (loopWindow p rc asl).len :=
  max_le_max_right _ (Nat.sub_le_sub_left (Nat.div_le_div_right (Nat.mul_le_mul_left _
    (min_le_min_right _ (Nat.mul_le_mul_right _ h)))) _)

theorem loopWindow_len_ge_tenth (p : Params) (rc : Nat) (h : 1 ≤ asl) :
    (loopWindow p 0 asl).len / 10 ≤ (loopWindow p rc asl).len := by
  rw [loopWindow_first_len p h]
  exact (le_max_right _ _).trans (le_max_right _ _)

end LoopWindow

/-- Settles O39: the window's two fields, and how the length depends on the pass. -/
theorem loopWindowStaysInTheSlice : Obligations.LoopWindowStaysInTheSlice :=
  fun p rc asl hasl =>
    ⟨loopWindow_off p rc asl, fun _ _ => loopWindow_len, loopWindow_len_pos p rc asl,
      loopWindow_fits p rc hasl, rfl, loopWindow_first_len p hasl, loopWindow_len_ge_tenth p rc hasl,
      loopWindow_len_antitone p asl (Nat.le_succ rc)⟩

/-! ### The read position (R188) -/

section ReadPosition

variable {p : Params} {rp len : Nat}

/-- The position that is read: `rp` itself, or mirrored in the window when reversed (R188). -/
def readPosition (p : Params) (rp len : Nat) : Nat :=
  if p.reverse = 0 then rp else (2 * (len * 65536) - 65536 - rp) % (len * 65536)

theorem readIndices_eq (p : Params) (rp len : Nat) : readIndices p rp len =
    ⟨readPosition p rp len / 65536, (readPosition p rp len / 65536 + 1) % len,
      readPosition p rp len % 65536⟩ := by
  by_cases h : p.reverse = 0
  · rw [readPosition, if_pos h, readIndices, Params.reverseOn, isOn_eq_false_iff.mpr h]
    simp only [Bool.false_eq_true, if_false]
  · rw [readPosition, if_neg h, readIndices, Params.reverseOn, isOn_eq_true_iff.mpr h]
    simp only [if_true]

theorem readPosition_lt (hrp : rp < len * 65536) : readPosition p rp len < len * 65536 := by
  unfold readPosition
  split
  · exact hrp
  · exact Nat.mod_lt _ (by omega)

/-- The mirror takes whole positions to whole positions. -/
theorem readPosition_of_whole {q : Nat} (hq : q < len) :
    readPosition p (q * 65536) len = (if p.reverse = 0 then q else len - 1 - q) * 65536 := by
  unfold readPosition
  split
  · rfl
  · have hmirror : 2 * (len * 65536) - 65536 - q * 65536 = (len - 1 - q) * 65536 + len * 65536 := by omega
    rw [hmirror, Nat.add_mod_right, Nat.mod_eq_of_lt (by omega)]

end ReadPosition

/-- Settles O40: the position read lies in the window, so its whole part is one of the window's frames. -/
theorem readPositionsStayInTheWindow : Obligations.ReadPositionsStayInTheWindow := by
  intro p rp len hlen hrp
  have hread : readPosition p rp len / 65536 < len :=
    Nat.div_lt_of_lt_mul ((readPosition_lt hrp).trans_eq (Nat.mul_comm _ _))
  rw [readIndices_eq]
  refine ⟨?_, hread, Nat.mod_lt _ hlen, Nat.mod_lt _ (by decide), rfl, fun hwhole => ?_⟩
  · rintro pos rfl
    exact ⟨rfl, rfl⟩
  · obtain ⟨q, rfl⟩ : ∃ q, rp = q * 65536 := ⟨rp / 65536, by omega⟩
    rw [readPosition_of_whole (by omega), Nat.mul_div_cancel q (by decide)]
    exact ⟨Nat.mul_mod_left _ _, Nat.mul_div_cancel _ (by decide)⟩

/-! ### The pitch step (R189) -/

section PitchStep

variable {c : Config} {p : Params} {phase rp len : Nat}

theorem pitchStep_fixed (h : p.pitchMode = 0) : pitchStep p phase rp len = p.pitchShift.toNat := by
  simp [pitchStep, h]

theorem pitchStep_rampUp (h : p.pitchMode = 1) : pitchStep p phase rp len =
    65536 + ((p.pitchShift.toNat : Int) - 65536) * ((rp / len : Nat) : Int) / 65536 := by
  simp [pitchStep, h]

theorem pitchStep_rampDown (h : p.pitchMode = 2) : pitchStep p phase rp len =
    p.pitchShift.toNat + (65536 - (p.pitchShift.toNat : Int)) * ((rp / len : Nat) : Int) / 65536 := by
  simp [pitchStep, h]

theorem pitchStep_scratch (h : p.pitchMode = 3) : pitchStep p phase rp len =
    p.pitchShift.toNat + (p.pitchShift.toNat : Int) * sinq15 phase / 65536 := by
  simp [pitchStep, h]

theorem pitchMode_cases (hp : ParamsOk c p) :
    p.pitchMode.toNat ≤ 2 ∧ (p.pitchMode = 0 ∨ p.pitchMode = 1 ∨ p.pitchMode = 2) ∨ p.pitchMode = 3 := by
  have := hp.pitchMode
  bv_omega

/-- A ramp stays between its two ends. -/
theorem ramp_between (x y : Int) {t : Nat} (ht : t ≤ 65536) :
    min x y ≤ x + (y - x) * (t : Int) / 65536 ∧ x + (y - x) * (t : Int) / 65536 ≤ max x y := by
  have hpart := scaledFloor_between (y - x) ht
  omega

/-- Without scratch the step is `pitch_shift` or a ramp between it and 1.0. -/
theorem pitchStep_bounds_of_no_scratch (hp : ParamsOk c p) (hmode : p.pitchMode.toNat ≤ 2)
    (hrp : rp < len * 65536) :
    0x4000 ≤ pitchStep p phase rp len ∧ pitchStep p phase rp len ≤ 0x40000 := by
  obtain ⟨hlo, hhi⟩ := hp.pitchShift
  have ht : rp / len ≤ 65536 := (Nat.div_lt_of_lt_mul hrp).le
  rcases pitchMode_cases hp with ⟨-, h | h | h⟩ | h
  · rw [pitchStep_fixed h]
    omega
  · have hramp := ramp_between 65536 p.pitchShift.toNat ht
    rw [pitchStep_rampUp h]
    omega
  · have hramp := ramp_between p.pitchShift.toNat 65536 ht
    rw [pitchStep_rampDown h]
    omega
  · exact absurd hmode (by rw [h]; decide)

/-- The sine takes off less than half of `pitch_shift`. -/
theorem pitchStep_ge_of_scratch (hp : ParamsOk c p) (h : p.pitchMode = 3) (hphase : phase < 65536) :
    0x2000 ≤ pitchStep p phase rp len := by
  have hlo := hp.pitchShift.1
  have hsine : (p.pitchShift.toNat : Int) * -32767 ≤ p.pitchShift.toNat * sinq15 phase :=
    mul_le_mul_of_nonneg_left (neg_le_sinq15 hphase) (Int.natCast_nonneg _)
  rw [pitchStep_scratch h]
  omega

/-- A loop always advances (R189). -/
theorem pitchStep_ge (hp : ParamsOk c p) (hphase : phase < 65536) (hrp : rp < len * 65536) :
    0x2000 ≤ pitchStep p phase rp len := by
  rcases pitchMode_cases hp with ⟨hmode, -⟩ | h
  · exact le_trans (by decide) (pitchStep_bounds_of_no_scratch hp hmode hrp).1
  · exact pitchStep_ge_of_scratch hp h hphase

end PitchStep

/-- Settles O41: an equation for each mode, and the bounds of a ramp and of the sine. -/
theorem pitchStepIsPositiveAndBounded : Obligations.PitchStepIsPositiveAndBounded := by
  intro c p phase rp len hp hphase _ hrp
  refine ⟨?_, fun h => ?_, fun h => ?_, pitchStep_ge hp hphase hrp, ?_,
    fun hmode => pitchStep_bounds_of_no_scratch hp hmode hrp⟩
  · rintro shift t16 rfl rfl
    simp only [Int.fdiv_eq_ediv_of_nonneg _ (show (0 : Int) ≤ 65536 by decide)]
    exact ⟨pitchStep_fixed, pitchStep_rampUp, pitchStep_rampDown, pitchStep_scratch⟩
  · simp [pitchStep_rampUp h]
  · simp [pitchStep_rampDown h]
  · exact (pitchStep_le hp phase hrp).trans (by decide)

end Sys2Proof.Machine

namespace Sys2Proof.Machine

/-! ### Capture, slice clock and gate (R183 to R185) -/

section Clock

variable {c : Config} {p : Params} {e : Effect} {asl : Nat} {dry : Frame}

/-- The capture store and the slice clock of a frame, without the gate (R183). -/
def Effect.ticked (asl : Nat) (dry : Frame) (e : Effect) : Effect :=
  { e with
    cap := if e.rep then e.cap else Cells.write Frame.silence e.cap e.wp.toNat dry
    wp := if asl ≤ e.wp.toNat + 1 then 0 else BitVec.ofNat 32 (e.wp.toNat + 1) }

/-- Everything capture, clock and gate can do: the gate is evaluated exactly at a slice boundary of a frame
that begins neither repeating nor frozen (R184). -/
theorem Effect.clock_cases (c : Config) (p : Params) (e : Effect) (asl : Nat) (dry : Frame) :
    ((e.rep = false ∧ p.freeze = 0 ∧ asl ≤ e.wp.toNat + 1) ∧
      e.clock c p asl dry = (e.ticked asl dry).gate c p) ∨
    ((e.rep = true ∨ p.freeze ≠ 0 ∨ e.wp.toNat + 1 < asl) ∧ e.clock c p asl dry = e.ticked asl dry) := by
  unfold Effect.clock Effect.ticked
  simp only
  by_cases hwrap : asl ≤ e.wp.toNat + 1
  case neg =>
    refine .inr ⟨.inr (.inr (not_le.mp hwrap)), ?_⟩
    rw [if_neg hwrap, if_neg hwrap]
    split <;> rfl
  case pos =>
    rw [if_pos hwrap, if_pos hwrap]
    cases hrep : e.rep
    case true => exact .inr ⟨.inl rfl, by simp [hrep]⟩
    case false =>
      by_cases hfreeze : p.freeze = 0
      · refine .inl ⟨⟨rfl, hfreeze, hwrap⟩, ?_⟩
        rw [Params.freezeOn, isOn_eq_false_iff.mpr hfreeze]
        rfl
      · refine .inr ⟨.inr (.inl hfreeze), ?_⟩
        rw [Params.freezeOn, isOn_eq_true_iff.mpr hfreeze]
        rfl

/-- Everything the gate can do (R184, R185). -/
theorem Effect.gate_cases (c : Config) (p : Params) (e : Effect) :
    ((lcgNext c e.prng).toNat / 65536 < p.probability.toNat ∧
      e.gate c p = { e with prng := lcgNext c e.prng, rep := true, rp := 0, rc := 0, phase := 0 }) ∨
    (p.probability.toNat ≤ (lcgNext c e.prng).toNat / 65536 ∧
      e.gate c p = { e with prng := lcgNext c e.prng }) := by
  rcases lt_or_ge ((lcgNext c e.prng).toNat / 65536) p.probability.toNat with h | h
  · exact .inl ⟨h, if_pos (decide_eq_true h)⟩
  · exact .inr ⟨h, if_neg (by rw [gateOpens, decide_eq_true_iff]; exact h.not_gt)⟩

/-- The gate touches neither the capture nor the clock. -/
theorem Effect.gate_frame : (e.gate c p).cap = e.cap ∧ (e.gate c p).wp = e.wp := by
  rcases e.gate_cases c p with ⟨-, h⟩ | ⟨-, h⟩ <;> rw [h] <;> exact ⟨rfl, rfl⟩

/-- Capture and clock do not depend on the gate (R183). -/
theorem Effect.clock_frame : (e.clock c p asl dry).cap = (e.ticked asl dry).cap ∧
    (e.clock c p asl dry).wp = (e.ticked asl dry).wp := by
  rcases e.clock_cases c p asl dry with ⟨-, h⟩ | ⟨-, h⟩
  · rw [h]
    exact Effect.gate_frame
  · rw [h]
    exact ⟨rfl, rfl⟩

theorem Effect.clock_of_gate (hrep : e.rep = false) (hfreeze : p.freeze = 0)
    (hwrap : asl ≤ e.wp.toNat + 1) : e.clock c p asl dry = (e.ticked asl dry).gate c p := by
  rcases e.clock_cases c p asl dry with ⟨-, h⟩ | ⟨hno, -⟩
  · exact h
  · simp [hrep, hfreeze, hwrap.not_gt] at hno

theorem Effect.clock_of_no_gate (hno : e.rep = true ∨ p.freeze ≠ 0 ∨ e.wp.toNat + 1 < asl) :
    e.clock c p asl dry = e.ticked asl dry := by
  rcases e.clock_cases c p asl dry with ⟨⟨hrep, hfreeze, hwrap⟩, -⟩ | ⟨-, h⟩
  · simp [hrep, hfreeze, hwrap.not_gt] at hno
  · exact h

/-- A frame that begins repeating stores nothing. -/
theorem Effect.ticked_cap_of_rep (h : e.rep = true) : (e.ticked asl dry).cap = e.cap := if_pos h

theorem Effect.ticked_cap_of_not_rep (h : e.rep = false) :
    (e.ticked asl dry).cap = Cells.write Frame.silence e.cap e.wp.toNat dry := if_neg (by rw [h]; decide)

end Clock

/-! ### The frame of a repeat (R186 to R193) -/

section Playback

variable {c : Config} {p : Params} {e : Effect} {dry : Frame} {span rp1 : Nat}

/-- The window which a frame of a repeat plays (R186). -/
def Effect.window (p : Params) (e : Effect) : Window :=
  loopWindow p e.rc.toNat (activeSliceLength p)

/-- The position it plays from: one outside the window restarts it (R187). -/
def Effect.position (p : Params) (e : Effect) : Nat :=
  if e.rp.toNat < (e.window p).len * 65536 then e.rp.toNat else 0

/-- The position after the advance (R193). -/
def Effect.nextPosition (p : Params) (e : Effect) : Nat :=
  ((e.position p : Int) + pitchStep p e.phase.toNat (e.position p) (e.window p).len).toNat

/-- The wet frame it plays (R190). -/
def Effect.wet (p : Params) (e : Effect) : Frame :=
  wetFrame e.cap (e.window p) (readIndices p (e.position p) (e.window p).len)

/-- The gain of the envelope over it (R191). -/
def Effect.gain (p : Params) (e : Effect) : Nat :=
  envGain (e.position p) (e.window p).len p.windowShape.toNat

/-- The state as the advance finds it: clock and phase have moved on. -/
def Effect.moved (c : Config) (p : Params) (dry : Frame) (e : Effect) : Effect :=
  { e.ticked (activeSliceLength p) dry with
    phase := BitVec.ofNat 32 ((e.phase.toNat + c.scratchInc) % 65536) }

theorem Effect.position_eq (p : Params) (e : Effect) :
    revalidated e.rp.toNat ((e.window p).len * 65536) = e.position p := by
  simp only [revalidated, Effect.position, ← not_lt, ite_not]

/-- A frame that begins not repeating is put out dry (R194). -/
theorem frameStep_of_not_rep (h : e.rep = false) :
    frameStep c p e dry = (e.clock c p (activeSliceLength p) dry, dry) :=
  if_neg (Bool.eq_false_iff.mp h)

/-- A frame of a repeat: the advance from its position, and the crossfade of dry and enveloped wet. -/
theorem frameStep_of_rep (h : e.rep = true) : frameStep c p e dry =
    ((e.moved c p dry).advance p ((e.window p).len * 65536) (e.nextPosition p),
      mixFrame dry (gainFrame (e.wet p) (e.gain p)) p.wetMix.toNat) := by
  have hcap : (e.ticked (activeSliceLength p) dry).cap = e.cap := Effect.ticked_cap_of_rep h
  calc frameStep c p e dry
    _ = (e.ticked (activeSliceLength p) dry).playback c p (activeSliceLength p) dry := by
      rw [← Effect.clock_of_no_gate (.inl h)]
      exact if_pos h
    _ = _ := by
      unfold Effect.nextPosition Effect.wet Effect.gain
      rw [← Effect.position_eq, ← hcap]
      rfl

/-- Settles O34: the output is chosen by `rep` as the frame begins. -/
theorem notRepeatingOutputsDry : Obligations.NotRepeatingOutputsDry :=
  fun _ _ _ _ h => congrArg Prod.snd (frameStep_of_not_rep h)

/-! ### The output (R190 to R192) -/

@[simp] theorem gain16_unity (w : Sample) : gain16 w 65536 = w := by
  simp [gain16]

theorem frameStep_output_of_rep (h : e.rep = true) : (frameStep c p e dry).2 =
    mixFrame dry (gainFrame (e.wet p) (e.gain p)) p.wetMix.toNat :=
  congrArg Prod.snd (frameStep_of_rep h)

@[simp] theorem mixFrame_dry (dry w : Frame) : mixFrame dry w 0 = dry :=
  congrArg₂ Frame.mk (mixpct_dry _ _) (mixpct_dry _ _)

@[simp] theorem mixFrame_wet (dry w : Frame) : mixFrame dry w 100 = w :=
  congrArg₂ Frame.mk (mixpct_wet _ _) (mixpct_wet _ _)

@[simp] theorem gainFrame_unity (w : Frame) : gainFrame w 65536 = w :=
  congrArg₂ Frame.mk (gain16_unity _) (gain16_unity _)

/-- All wet (R192, R198). -/
theorem frameStep_output_of_wet (h : e.rep = true) (hmix : p.wetMix = 100) :
    (frameStep c p e dry).2 = gainFrame (e.wet p) (e.gain p) := by
  rw [frameStep_output_of_rep h, hmix]
  exact mixFrame_wet _ _

/-- All wet, and no envelope (R191, R198). -/
theorem frameStep_output_of_wet_flat (h : e.rep = true) (hmix : p.wetMix = 100)
    (hshape : p.windowShape = 0) : (frameStep c p e dry).2 = e.wet p := by
  have hgain : e.gain p = 65536 := envGain_no_fade (by simp [hshape])
  rw [frameStep_output_of_wet h hmix, hgain, gainFrame_unity]

/-- Settles O35: the output of `frameStep_of_rep`, at the two ends of the crossfade and under a flat
envelope. -/
theorem repeatingOutputIsDryOrWet : Obligations.RepeatingOutputIsDryOrWet := by
  intro c p e dry _ hrep w rp g wet hw hrp hwet hg
  subst hw hrp hwet hg
  refine ⟨frameStep_output_of_rep hrep, fun hmix => ?_, frameStep_output_of_wet hrep,
    frameStep_output_of_wet_flat hrep⟩
  rw [frameStep_output_of_rep hrep, hmix]
  exact mixFrame_dry _ _

/-! ### The state a frame leaves (R183 to R185, R193) -/

theorem Effect.advance_inside (h : rp1 < span) :
    e.advance p span rp1 = { e with rp := BitVec.ofNat 32 rp1 } := if_pos h

theorem Effect.advance_frozen (h : span ≤ rp1) (hfreeze : p.freeze ≠ 0) :
    e.advance p span rp1 = { e with rp := 0 } :=
  (if_neg h.not_gt).trans (if_pos (isOn_eq_true_iff.mpr hfreeze))

theorem Effect.advance_last (h : span ≤ rp1) (hfreeze : p.freeze = 0)
    (hlast : p.repeatCount.toNat ≤ e.rc.toNat + 1) : e.advance p span rp1 =
      { e with rc := BitVec.ofNat 32 (e.rc.toNat + 1), rep := false, rp := BitVec.ofNat 32 rp1 } :=
  (if_neg h.not_gt).trans ((if_neg (Bool.eq_false_iff.mp (isOn_eq_false_iff.mpr hfreeze))).trans
    (if_pos hlast))

theorem Effect.advance_again (h : span ≤ rp1) (hfreeze : p.freeze = 0)
    (hmore : e.rc.toNat + 1 < p.repeatCount.toNat) : e.advance p span rp1 =
      { e with rc := BitVec.ofNat 32 (e.rc.toNat + 1), rp := 0 } :=
  (if_neg h.not_gt).trans ((if_neg (Bool.eq_false_iff.mp (isOn_eq_false_iff.mpr hfreeze))).trans
    (if_neg hmore.not_ge))

/-- The advance touches only position, count and `rep`. -/
theorem Effect.advance_frame : (e.advance p span rp1).cap = e.cap ∧ (e.advance p span rp1).wp = e.wp ∧
    (e.advance p span rp1).phase = e.phase ∧ (e.advance p span rp1).prng = e.prng := by
  unfold Effect.advance
  split_ifs <;> exact ⟨rfl, rfl, rfl, rfl⟩

/-- What a frame of a repeat leaves, but for position, count and `rep` (R183, R184, R193). -/
theorem frameStep_frame_of_rep (h : e.rep = true) :
    (frameStep c p e dry).1.cap = e.cap ∧
    (frameStep c p e dry).1.wp = (e.ticked (activeSliceLength p) dry).wp ∧
    (frameStep c p e dry).1.phase = BitVec.ofNat 32 ((e.phase.toNat + c.scratchInc) % 65536) ∧
    (frameStep c p e dry).1.prng = e.prng := by
  rw [frameStep_of_rep h, ← Effect.ticked_cap_of_rep (asl := activeSliceLength p) (dry := dry) h]
  exact Effect.advance_frame

/-- Capture and slice clock are those of `ticked` in every frame (R183). -/
theorem frameStep_capture_and_clock :
    (frameStep c p e dry).1.cap = (e.ticked (activeSliceLength p) dry).cap ∧
    (frameStep c p e dry).1.wp = (e.ticked (activeSliceLength p) dry).wp := by
  cases hrep : e.rep
  case false =>
    rw [frameStep_of_not_rep hrep]
    exact Effect.clock_frame
  case true =>
    obtain ⟨hcap, hwp, -⟩ := frameStep_frame_of_rep (c := c) (p := p) (dry := dry) hrep
    exact ⟨hcap.trans (Effect.ticked_cap_of_rep hrep).symm, hwp⟩

/-- Settles O36: the capture of a frame that begins not repeating is one store. -/
theorem captureAndSliceClock : Obligations.CaptureAndSliceClock := by
  intro c p e dry hc he
  have hmax := (configBounds hc).maxSlice_le
  have hwp := he.wp
  obtain ⟨hcap', hwp'⟩ := frameStep_capture_and_clock (c := c) (p := p) (e := e) (dry := dry)
  rw [hcap', hwp']
  constructor
  · unfold Effect.ticked
    simp only
    split
    · rfl
    · exact toNat_ofNat_word (by omega)
  · intro k
    cases hrep : e.rep
    case false =>
      rw [Effect.ticked_cap_of_not_rep hrep, Cells.read_write he.cap]
      simp
    case true =>
      rw [Effect.ticked_cap_of_rep hrep]
      simp

theorem lcgNext_toNat (c : Config) (w : Word) :
    (lcgNext c w).toNat = (w.toNat * c.lcgA + c.lcgC) % 2 ^ 32 :=
  toNat_ofNat_word (Nat.mod_lt _ (by decide))

/-- Settles O37: the two outcomes of the gate, and the frames that do not evaluate it. -/
theorem gateDrawsOncePerBoundary : Obligations.GateDrawsOncePerBoundary := by
  intro c p e dry
  constructor
  · intro hrep hfreeze hwrap
    rw [frameStep_of_not_rep hrep, Effect.clock_of_gate hrep hfreeze hwrap]
    rcases (e.ticked (activeSliceLength p) dry).gate_cases c p with ⟨hopen, h⟩ | ⟨hshut, h⟩
    · rw [h]
      exact ⟨lcgNext_toNat c e.prng, fun _ => ⟨rfl, rfl, rfl, rfl⟩,
        fun hshut => absurd hopen hshut.not_gt⟩
    · rw [h]
      exact ⟨lcgNext_toNat c e.prng, fun hopen => absurd hopen hshut.not_gt,
        fun _ => ⟨hrep, rfl, rfl, rfl⟩⟩
  · intro hno
    cases hrep : e.rep
    case true =>
      obtain ⟨-, -, -, hprng⟩ := frameStep_frame_of_rep (c := c) (p := p) (dry := dry) hrep
      exact ⟨hprng, nofun⟩
    case false =>
      rw [frameStep_of_not_rep hrep, Effect.clock_of_no_gate hno]
      exact ⟨rfl, fun _ => hrep⟩

end Playback

end Sys2Proof.Machine

namespace Sys2Proof.Machine

/-! ### Where the advance leads (R193) -/

section Advance

variable {c : Config} {p : Params} {e e' : Effect} {dry : Frame}

/-- The read position of a repeat lies in the loop window of the next frame (R50). -/
def InWindow (p : Params) (e : Effect) : Prop := e.rp.toNat < (e.window p).len * 65536

theorem inWindow_of_start (h : e.rp = 0) : InWindow p e := by
  have hlen : 1 ≤ (e.window p).len := loopWindow_len_pos _ _ _
  rw [InWindow, h]
  exact Nat.mul_pos hlen (by decide)

theorem Effect.position_of_inWindow (h : InWindow p e) : e.position p = e.rp.toNat := if_pos h

theorem Effect.position_lt (p : Params) (e : Effect) : e.position p < (e.window p).len * 65536 := by
  have hlen : 1 ≤ (e.window p).len := loopWindow_len_pos _ _ _
  unfold Effect.position
  split <;> omega

theorem Effect.window_len_le (hb : ConfigBounds c) (hp : ParamsOk c p) (e : Effect) :
    (e.window p).len ≤ 32768 := by
  have hfits : (e.window p).off + (e.window p).len ≤ activeSliceLength p :=
    loopWindow_fits p _ (activeSliceLength_pos p)
  have hasl := activeSliceLength_le hb hp
  have hmax := hb.maxSlice_le
  omega

/-- The sum of R193 is never negative: the step is positive. -/
theorem Effect.nextPosition_eq (hp : ParamsOk c p) (he : EffectOk c e) : (e.nextPosition p : Int) =
    e.position p + pitchStep p e.phase.toNat (e.position p) (e.window p).len := by
  have hstep := pitchStep_ge hp he.phase (e.position_lt p)
  unfold Effect.nextPosition
  omega

/-- Every frame of a repeat moves on by an eighth of a frame or more (R189). -/
theorem Effect.nextPosition_ge (hp : ParamsOk c p) (he : EffectOk c e) :
    e.position p + 8192 ≤ e.nextPosition p := by
  have hnext := Effect.nextPosition_eq hp he
  have hstep := pitchStep_ge hp he.phase (e.position_lt p)
  omega

theorem Effect.nextPosition_lt_word (hb : ConfigBounds c) (hp : ParamsOk c p) (he : EffectOk c e) :
    e.nextPosition p < 2 ^ 32 := by
  have hnext := Effect.nextPosition_eq hp he
  have hstep := pitchStep_le hp e.phase.toNat (e.position_lt p)
  have hpos := e.position_lt p
  have hlen := Effect.window_len_le hb hp e
  omega

/-- Position, count and `rep` after a frame of a repeat that began as `e` (R193). -/
inductive AdvancedTo (p : Params) (e : Effect) : Effect → Prop
  /-- inside the window -/
  | inside {e' : Effect} (hpos : e.nextPosition p < (e.window p).len * 65536)
      (hrp : e'.rp.toNat = e.nextPosition p) (hrep : e'.rep = true) (hrc : e'.rc = e.rc) : AdvancedTo p e e'
  /-- at the loop end, frozen -/
  | frozen {e' : Effect} (hpos : (e.window p).len * 65536 ≤ e.nextPosition p) (hfreeze : p.freeze ≠ 0)
      (hrp : e'.rp = 0) (hrep : e'.rep = true) (hrc : e'.rc = e.rc) : AdvancedTo p e e'
  /-- at the loop end of the last pass -/
  | last {e' : Effect} (hpos : (e.window p).len * 65536 ≤ e.nextPosition p) (hfreeze : p.freeze = 0)
      (hpasses : p.repeatCount.toNat ≤ e.rc.toNat + 1) (hrp : e'.rp.toNat = e.nextPosition p)
      (hrep : e'.rep = false) (hrc : e'.rc.toNat = e.rc.toNat + 1) : AdvancedTo p e e'
  /-- at the loop end, with passes left to make -/
  | again {e' : Effect} (hpos : (e.window p).len * 65536 ≤ e.nextPosition p) (hfreeze : p.freeze = 0)
      (hpasses : e.rc.toNat + 1 < p.repeatCount.toNat) (hrp : e'.rp = 0)
      (hrep : e'.rep = true) (hrc : e'.rc.toNat = e.rc.toNat + 1) : AdvancedTo p e e'

/-- Everything a frame of a repeat can do to position, count and `rep`. -/
theorem frameStep_advancedTo (hb : ConfigBounds c) (hp : ParamsOk c p) (he : EffectOk c e)
    (hrep : e.rep = true) : AdvancedTo p e (frameStep c p e dry).1 := by
  have hword : (BitVec.ofNat 32 (e.nextPosition p)).toNat = e.nextPosition p :=
    toNat_ofNat_word (Effect.nextPosition_lt_word hb hp he)
  have hcount : (BitVec.ofNat 32 (e.rc.toNat + 1)).toNat = e.rc.toNat + 1 :=
    toNat_ofNat_word (by have := he.rc; omega)
  rw [frameStep_of_rep hrep]
  rcases lt_or_ge (e.nextPosition p) ((e.window p).len * 65536) with hin | hend
  · rw [Effect.advance_inside hin]
    exact .inside hin hword hrep rfl
  by_cases hfreeze : p.freeze = 0
  case neg =>
    rw [Effect.advance_frozen hend hfreeze]
    exact .frozen hend hfreeze rfl hrep rfl
  case pos =>
    rcases le_or_gt p.repeatCount.toNat (e.rc.toNat + 1) with hlast | hmore
    · rw [Effect.advance_last (e := e.moved c p dry) hend hfreeze hlast]
      exact .last hend hfreeze hlast hword rfl hcount
    · rw [Effect.advance_again (e := e.moved c p dry) hend hfreeze hmore]
      exact .again hend hfreeze hmore rfl hrep hcount

theorem Effect.window_congr (h : e'.rc = e.rc) : e'.window p = e.window p := by
  rw [Effect.window, h, Effect.window]

/-- A frame that leaves the engine repeating began a repeat, or went on with one (R50, R187). -/
theorem frameStep_inWindow (hb : ConfigBounds c) (hp : ParamsOk c p) (he : EffectOk c e)
    (h : (frameStep c p e dry).1.rep = true) : InWindow p (frameStep c p e dry).1 := by
  cases hrep : e.rep
  case true =>
    cases frameStep_advancedTo (dry := dry) hb hp he hrep with
    | inside hpos hrp _ hrc => rwa [InWindow, hrp, Effect.window_congr hrc]
    | frozen _ _ hrp => exact inWindow_of_start hrp
    | last _ _ _ _ hover => exact absurd h (Bool.eq_false_iff.mp hover)
    | again _ _ _ hrp => exact inWindow_of_start hrp
  case false =>
    rw [frameStep_of_not_rep hrep] at h ⊢
    rcases e.clock_cases c p (activeSliceLength p) dry with ⟨-, hgate⟩ | ⟨-, hno⟩
    · rw [hgate] at h ⊢
      rcases (e.ticked (activeSliceLength p) dry).gate_cases c p with ⟨-, hopen⟩ | ⟨-, hshut⟩
      · rw [hopen]
        exact inWindow_of_start rfl
      · rw [hshut] at h
        exact absurd h (Bool.eq_false_iff.mp hrep)
    · rw [hno] at h
      exact absurd h (Bool.eq_false_iff.mp hrep)

/-- A frozen repeat never ends (R199). -/
theorem AdvancedTo.of_frozen (h : AdvancedTo p e e') (hfreeze : p.freeze ≠ 0) :
    e'.rep = true ∧ e'.rc = e.rc := by
  cases h with
  | inside _ _ hrep hrc => exact ⟨hrep, hrc⟩
  | frozen _ _ _ hrep hrc => exact ⟨hrep, hrc⟩
  | last _ hzero => exact absurd hzero hfreeze
  | again _ hzero => exact absurd hzero hfreeze

/-- Settles O42: the cases of `AdvancedTo`, each at the position the statement names. -/
theorem repeatingPositionStaysInTheWindow : Obligations.RepeatingPositionStaysInTheWindow := by
  intro c p e e' dry hc hp he he'
  subst he'
  have hb := configBounds hc
  refine ⟨frameStep_inWindow hb hp he, fun hrep hfreeze =>
    (frameStep_advancedTo hb hp he hrep).of_frozen (by rw [hfreeze]; decide), fun hrep => ⟨?_, ?_⟩⟩
  · obtain ⟨-, -, hphase, -⟩ := frameStep_frame_of_rep (c := c) (p := p) (dry := dry) hrep
    rw [hphase]
    exact toNat_ofNat_word (by omega)
  · rintro len rp rp1 rfl rfl hrp1
    obtain rfl : rp1 = e.nextPosition p := by
      exact_mod_cast hrp1.trans (Effect.nextPosition_eq hp he).symm
    cases frameStep_advancedTo (dry := dry) hb hp he hrep with
    | inside hpos hrp hrep' hrc =>
      exact ⟨fun _ => ⟨hrp, hrep', hrc⟩, fun hend => absurd hpos hend.not_gt,
        fun hend => absurd hpos hend.not_gt⟩
    | frozen hpos hfreeze hrp hrep' hrc =>
      exact ⟨fun hin => absurd hin hpos.not_gt, fun _ _ => ⟨hrp, hrep', hrc⟩,
        fun _ hzero => absurd hzero hfreeze⟩
    | last hpos hfreeze hpasses hrp hrep' hrc =>
      exact ⟨fun hin => absurd hin hpos.not_gt, fun _ hone => by simp [hfreeze] at hone,
        fun _ _ => ⟨hrc, fun _ => ⟨hrep', hrp⟩, fun hmore => absurd hmore hpasses.not_gt⟩⟩
    | again hpos hfreeze hpasses hrp hrep' hrc =>
      exact ⟨fun hin => absurd hin hpos.not_gt, fun _ hone => by simp [hfreeze] at hone,
        fun _ _ => ⟨hrc, fun hlast => absurd hpasses hlast.not_gt, fun _ => ⟨hrep', hrp⟩⟩⟩

/-! ### One pass of a repeat (R199) -/

/-- One pass more is counted than in `e`, and the repeat is over at `repeat_count` passes (R193). -/
def PassCounted (p : Params) (e e' : Effect) : Prop :=
  e'.rc.toNat = e.rc.toNat + 1 ∧ (e'.rep = false ↔ p.repeatCount.toNat ≤ e.rc.toNat + 1)

theorem PassCounted.congr {e₁ e₂ : Effect} (h : PassCounted p e₁ e') (hrc : e₁.rc = e₂.rc) :
    PassCounted p e₂ e' := by
  rwa [PassCounted, ← hrc]

/-- A frame of a repeat that is not frozen stays inside the window or ends the pass. -/
theorem AdvancedTo.inside_or_passCounted (h : AdvancedTo p e e') (hfreeze : p.freeze = 0) :
    (e.nextPosition p < (e.window p).len * 65536 ∧
      e'.rp.toNat = e.nextPosition p ∧ e'.rep = true ∧ e'.rc = e.rc) ∨
    ((e.window p).len * 65536 ≤ e.nextPosition p ∧ PassCounted p e e') := by
  cases h with
  | inside hpos hrp hrep hrc => exact .inl ⟨hpos, hrp, hrep, hrc⟩
  | frozen _ hfrozen => exact absurd hfreeze hfrozen
  | last hpos _ hpasses _ hrep hrc => exact .inr ⟨hpos, hrc, iff_of_true hrep hpasses⟩
  | again hpos _ hpasses _ hrep hrc =>
    exact .inr ⟨hpos, hrc, iff_of_false (ne_false_of_eq_true hrep) hpasses.not_ge⟩

/-- Inside the window the next frame of the pass plays on from where this one stopped. -/
theorem Effect.position_of_inside (hpos : e.nextPosition p < (e.window p).len * 65536)
    (hrp : e'.rp.toNat = e.nextPosition p) (hrc : e'.rc = e.rc) :
    e'.window p = e.window p ∧ e'.position p = e.nextPosition p := by
  have hwindow := Effect.window_congr (p := p) hrc
  exact ⟨hwindow, (Effect.position_of_inWindow (by rwa [InWindow, hwindow, hrp])).trans hrp⟩

/-- As many frames as there are eighths of a frame left in the window end the pass. -/
theorem exists_passCounted (hb : ConfigBounds c) (hp : ParamsOk c p) (hfreeze : p.freeze = 0)
    (dries : List Frame) (he : EffectOk c e) (hrep : e.rep = true)
    (henough : (e.window p).len * 65536 ≤ e.position p + 8192 * dries.length) :
    ∃ m, m ≤ dries.length ∧ PassCounted p e (runFrames c p e (dries.take m)).1 := by
  induction dries generalizing e with
  | nil => exact absurd (e.position_lt p) (by simpa using henough)
  | cons dry dries ih =>
    rw [List.length_cons] at henough ⊢
    rcases (frameStep_advancedTo (dry := dry) hb hp he hrep).inside_or_passCounted hfreeze with
      ⟨hpos, hrp, hrep', hrc⟩ | ⟨-, hcounted⟩
    · obtain ⟨hwindow, hposition⟩ := Effect.position_of_inside hpos hrp hrc
      have hstep := Effect.nextPosition_ge hp he
      obtain ⟨m, hm, hcounted⟩ := ih (he.frameStep hb hp dry) hrep' (by rw [hwindow, hposition]; omega)
      exact ⟨m + 1, Nat.succ_le_succ hm, hcounted.congr hrc⟩
    · exact ⟨1, Nat.succ_le_succ (Nat.zero_le _), hcounted⟩

/-- Settles O44: a window of `len` frames holds `8 · len` eighths of a frame. -/
theorem passEndsWithinEightWindows : Obligations.PassEndsWithinEightWindows := by
  intro c p e dries hc hp he hfreeze hrep hlength
  have henough : (e.window p).len * 65536 ≤ e.position p + 8192 * dries.length := by
    rw [hlength, Effect.window]
    omega
  exact exists_passCounted (configBounds hc) hp hfreeze dries he hrep henough

/-! ### A pass with plain parameters (R198) -/

@[simp] theorem lerp16_zero (a b : Sample) : lerp16 a b 0 = a := by
  simp [lerp16]

@[simp] theorem lerpFrame_zero (a b : Frame) : lerpFrame a b 0 = a :=
  congrArg₂ Frame.mk (lerp16_zero _ _) (lerp16_zero _ _)

/-- The parameters of R198(e), the repeat not frozen. -/
structure Plain (p : Params) : Prop where
  pitchMode : p.pitchMode = 0
  pitchShift : p.pitchShift = 0x10000
  reverse : p.reverse = 0
  windowShape : p.windowShape = 0
  loopStart : p.loopStart = 0
  loopSizeDecay : p.loopSizeDecay = 0
  wetMix : p.wetMix = 100
  freeze : p.freeze = 0

/-- The window is the whole slice in every pass. -/
theorem Plain.window (h : Plain p) (e : Effect) : e.window p = ⟨0, activeSliceLength p⟩ := by
  have hasl := activeSliceLength_pos p
  have htenth : max 1 (activeSliceLength p / 10) ≤ activeSliceLength p := by omega
  simp [Effect.window, loopWindow, h.loopStart, h.loopSizeDecay, htenth]

/-- Each frame advances by one frame. -/
theorem Plain.nextPosition (h : Plain p) (e : Effect) : e.nextPosition p = e.position p + 65536 := by
  have hstep : pitchStep p e.phase.toNat (e.position p) (e.window p).len = 65536 := by
    rw [pitchStep_fixed h.pitchMode, h.pitchShift]
    rfl
  rw [Effect.nextPosition, hstep]
  omega

/-- At a whole position the frame put out is the captured one (R190). -/
theorem Plain.output (h : Plain p) (hrep : e.rep = true) {k : Nat} (hpos : e.position p = k * 65536) :
    (frameStep c p e dry).2 = Cells.read Frame.silence e.cap k := by
  have hread : readPosition p (k * 65536) (activeSliceLength p) = k * 65536 := if_pos h.reverse
  rw [frameStep_output_of_wet_flat hrep h.wetMix h.windowShape, Effect.wet, h.window, hpos,
    readIndices_eq, hread, wetFrame, Nat.mul_mod_left, Nat.mul_div_cancel k (by decide), lerpFrame_zero,
    Nat.zero_add]

/-- From frame `k` of the slice to its end. -/
theorem Plain.replays (h : Plain p) (hb : ConfigBounds c) (hp : ParamsOk c p) (dries : List Frame) {k : Nat}
    (he : EffectOk c e) (hrep : e.rep = true) (hpos : e.position p = k * 65536)
    (hlength : k + dries.length = activeSliceLength p) :
    (runFrames c p e dries).2 = (List.range' k dries.length).map (Cells.read Frame.silence e.cap) ∧
    (runFrames c p e dries).1.cap = e.cap ∧ PassCounted p e (runFrames c p e dries).1 := by
  induction dries generalizing e k with
  | nil =>
    have hlt := e.position_lt p
    rw [h.window, hpos, ← hlength] at hlt
    exact absurd hlt (lt_irrefl _)
  | cons dry dries ih =>
    have hout : (frameStep c p e dry).2 = Cells.read Frame.silence e.cap k := h.output hrep hpos
    obtain ⟨hcap, -⟩ := frameStep_frame_of_rep (c := c) (p := p) (dry := dry) hrep
    have hnext : e.nextPosition p = (k + 1) * 65536 := by rw [h.nextPosition, hpos, Nat.succ_mul]
    rw [List.length_cons] at hlength ⊢
    rw [runFrames, List.range'_succ, List.map_cons, hout]
    rcases (frameStep_advancedTo (dry := dry) hb hp he hrep).inside_or_passCounted h.freeze with
      ⟨hin, hrp, hrep', hrc⟩ | ⟨hend, hcounted⟩
    · obtain ⟨-, hposition⟩ := Effect.position_of_inside hin hrp hrc
      obtain ⟨houts, hcaps, hcounted⟩ :=
        ih (he.frameStep hb hp dry) hrep' (hposition.trans hnext) (by omega)
      rw [hcap] at houts hcaps
      exact ⟨congrArg _ houts, hcaps, hcounted.congr hrc⟩
    · rw [h.window, hnext] at hend
      obtain rfl : dries = [] := List.eq_nil_of_length_eq_zero (by simp only at hend; omega)
      exact ⟨rfl, hcap, hcounted⟩

/-- Settles O43: the pass from frame 0 of the slice. -/
theorem plainRepeatReplaysTheSlice : Obligations.PlainRepeatReplaysTheSlice := by
  intro c p e dries hc hp he hmode hshift hreverse hshape hstart hdecay hmix hfreeze hrep hrp hlength
  have hplain : Plain p := ⟨hmode, hshift, hreverse, hshape, hstart, hdecay, hmix, hfreeze⟩
  have hpos : e.position p = 0 * 65536 := by
    rw [Effect.position_of_inWindow (inWindow_of_start hrp), hrp]
    rfl
  obtain ⟨houts, hcap, hrc, hover⟩ :=
    hplain.replays (configBounds hc) hp dries he hrep hpos ((Nat.zero_add _).trans hlength)
  rw [List.range_eq_range', ← hlength]
  exact ⟨houts, hcap, hrc, by rw [← Bool.not_eq_false, hover, not_le]⟩

end Advance

end Sys2Proof.Machine

namespace Sys2Proof.Machine

/-! ### The ring seen through its unread frames (R49) -/

section Unread

variable {c : Config} {r r' : Ring} {n : Nat}

@[simp] theorem Ring.unread_length (cap : Nat) (r : Ring) : (r.unread cap).length = r.fc.toNat := by
  simp [Ring.unread]

theorem Ring.unread_of_empty (h : r.fc.toNat = 0) (cap : Nat) : r.unread cap = [] :=
  List.eq_nil_of_length_eq_zero ((Ring.unread_length cap r).trans h)

/-- What the consumer is given, by the unread frames alone (R225). -/
theorem Ring.served_eq (cap n : Nat) (r : Ring) : r.served cap n =
    (r.unread cap).take n ++ List.replicate (n - (r.unread cap).length) Frame.silence := by
  rw [Ring.served, Ring.unread_length]

/-- Everything the dequeue-or-silence step does to the unread frames and to the underrun counter: the oldest
frame is given up, or silence is given and counted (R226, R227). -/
theorem RingOk.dequeue_unread_cases (h : RingOk c r) (hb : ConfigBounds c) :
    (∃ f fs, r.unread c.cap = f :: fs ∧ (r.dequeue c.cap).2 = f ∧
      (r.dequeue c.cap).1.unread c.cap = fs ∧ (r.dequeue c.cap).1.underrun = r.underrun) ∨
    (r.unread c.cap = [] ∧ (r.dequeue c.cap).2 = Frame.silence ∧
      (r.dequeue c.cap).1.unread c.cap = [] ∧
      (r.dequeue c.cap).1.underrun = satAdd r.underrun 1) := by
  rcases Ring.dequeue_cases c.cap r with ⟨hsome, e⟩ | ⟨hempty, e⟩ <;> rw [e]
  · have hfc : (BitVec.ofNat 32 (r.fc.toNat - 1)).toNat = r.fc.toNat - 1 := toNat_ofNat_word (by omega)
    have hrange : List.range r.fc.toNat = 0 :: (List.range (r.fc.toNat - 1)).map Nat.succ := by
      rw [← List.range_succ_eq_map, Nat.sub_add_cancel hsome]
    refine .inl ⟨_, _, ?_, rfl, rfl, rfl⟩
    simp only [Ring.unread, hrange, hfc, nextSlot_toNat hb, List.map_cons, List.map_map,
      Nat.add_zero, Nat.mod_eq_of_lt h.ri, Nat.mod_add_mod, Function.comp_def, Nat.succ_eq_add_one,
      Nat.add_right_comm _ 1, Nat.add_assoc]
  · exact .inr ⟨Ring.unread_of_empty hempty _, rfl, Ring.unread_of_empty hempty _, rfl⟩

/-! ### `consume_into` (R225 to R227) -/

theorem RingOk.consume_served (h : RingOk c r) (hb : ConfigBounds c) (n : Nat) :
    (r.consume c.cap n).2 = r.served c.cap n := by
  induction n generalizing r with
  | zero => simp [Ring.served]
  | succ n ih =>
    rw [Ring.consume_succ, ih (h.dequeue hb)]
    rcases h.dequeue_unread_cases hb with ⟨f, fs, hunread, hf, hfs, -⟩ | ⟨hunread, hf, hfs, -⟩ <;>
      simp [Ring.served_eq, hunread, hf, hfs, List.replicate_succ]

theorem RingOk.consume_unread (h : RingOk c r) (hb : ConfigBounds c) (n : Nat) :
    (r.consume c.cap n).1.unread c.cap = (r.unread c.cap).drop n := by
  induction n generalizing r with
  | zero => rfl
  | succ n ih =>
    rw [Ring.consume_succ, ih (h.dequeue hb)]
    rcases h.dequeue_unread_cases hb with ⟨f, fs, hunread, -, hfs, -⟩ | ⟨hunread, -, hfs, -⟩ <;>
      simp [hunread, hfs]

theorem RingOk.consume_underrun (h : RingOk c r) (hb : ConfigBounds c) (n : Nat) :
    (r.consume c.cap n).1.underrun.toNat =
      min (r.underrun.toNat + (n - (r.unread c.cap).length)) (2 ^ 32 - 1) := by
  induction n generalizing r with
  | zero =>
    have hlt := r.underrun.isLt
    simp
    omega
  | succ n ih =>
    rw [Ring.consume_succ, ih (h.dequeue hb)]
    rcases h.dequeue_unread_cases hb with ⟨f, fs, hunread, -, hfs, hcount⟩ | ⟨hunread, -, hfs, hcount⟩
    · simp [hunread, hfs, hcount]
    · rw [hunread, hfs, hcount, satAdd_toNat, List.length_nil]
      omega

theorem RingOk.consume_fc (h : RingOk c r) (hb : ConfigBounds c) (n : Nat) :
    (r.consume c.cap n).1.fc.toNat = r.fc.toNat - min n r.fc.toNat := by
  rw [← Ring.unread_length c.cap, h.consume_unread hb, List.length_drop, Ring.unread_length]
  omega

/-- Rings in order with the same `wi`: the read position has moved by the frames given up. -/
theorem RingOk.ri_of_fc {k : Nat} (h : RingOk c r) (h' : RingOk c r') (hwi : r'.wi = r.wi)
    (hfc : r'.fc.toNat + k = r.fc.toNat) : r'.ri.toNat = (r.ri.toNat + k) % c.cap := by
  have hslot : r'.ri.toNat + r'.fc.toNat ≡ r.ri.toNat + k + r'.fc.toNat [MOD c.cap] := by
    rw [Nat.add_assoc, Nat.add_comm k, hfc, Nat.ModEq, ← h.indices, ← h'.indices, hwi]
  calc r'.ri.toNat = r'.ri.toNat % c.cap := (Nat.mod_eq_of_lt h'.ri).symm
    _ = (r.ri.toNat + k) % c.cap := Nat.ModEq.add_right_cancel' _ hslot

theorem RingOk.consume_ri (h : RingOk c r) (hb : ConfigBounds c) (n : Nat) :
    (r.consume c.cap n).1.ri.toNat = (r.ri.toNat + min n r.fc.toNat) % c.cap := by
  obtain ⟨-, hwi, -⟩ := Ring.consume_frame (cap := c.cap) (n := n) (r := r)
  refine h.ri_of_fc (h.consume hb n) hwi ?_
  rw [h.consume_fc hb, Nat.sub_add_cancel (min_le_right _ _)]

end Unread

/-- Settles O45: the full ring and the ring with room are the two cases of `Ring.enqueue_cases`. -/
theorem enqueueAppendsTheNewestFrame : Obligations.EnqueueAppendsTheNewestFrame := by
  intro c r f hc h
  have hb := configBounds hc
  rcases Ring.enqueue_cases c.cap r f with ⟨hfull, e⟩ | ⟨hroom, e⟩
  · exact ⟨fun _ => e, fun hroom => absurd hfull hroom⟩
  · have hfc : (BitVec.ofNat 32 (r.fc.toNat + 1)).toNat = r.fc.toNat + 1 := by
      have hlt := lt_of_le_of_ne h.fc hroom
      have hcap := hb.cap_lt
      exact toNat_ofNat_word (by omega)
    exact ⟨fun hfull => absurd hfull hroom, fun _ => ⟨_, e, h.enqueue hb e, Ring.unread_enqueue h hb e,
      hfc, nextSlot_toNat hb _, fun _ => Cells.read_write h.slots, rfl, rfl, rfl⟩⟩

/-- Settles O46: one lemma per word of the ring, each by the dequeue-or-silence step. -/
theorem consumeServesOldestThenSilence : Obligations.ConsumeServesOldestThenSilence := by
  intro c r n hc h
  have hb := configBounds hc
  have hunderrun := h.consume_underrun hb n
  rw [Ring.unread_length] at hunderrun
  exact ⟨h.consume_served hb n, h.consume hb n, h.consume_unread hb n, h.consume_fc hb n,
    h.consume_ri hb n, hunderrun, Ring.consume_frame⟩

/-! ### `RB.CONS` (R224) -/

section Destination

variable {addr : Nat}

/-- The frames already behind the stores stay as they are. -/
theorem readFrame_writeFrames_behind (fs : List Frame) (m : Memory) {i k : Nat} (hk : k < i) :
    readFrame (writeFrames m addr i fs) addr k = readFrame m addr k := by
  induction fs generalizing m i with
  | nil => rfl
  | cons f fs ih => rw [writeFrames, ih _ (by omega), readFrame_writeFrame_other hk.ne]

/-- Frames stored from frame `i` on are read back from there. -/
theorem map_readFrame_writeFrames (fs : List Frame) {m : Memory} {i : Nat} (hm : m.wf = true)
    (hspan : addr + 2 * (i + fs.length) ≤ 2 ^ 32) :
    (List.range' i fs.length).map (readFrame (writeFrames m addr i fs) addr) = fs := by
  induction fs generalizing m i with
  | nil => rfl
  | cons f fs ih =>
    rw [List.length_cons] at hspan
    rw [List.length_cons, List.range'_succ, List.map_cons, writeFrames,
      readFrame_writeFrames_behind _ _ (Nat.lt_succ_self i), readFrame_writeFrame_same hm (by omega),
      ih (writeFrame_wf hm (by omega)) (by omega)]

theorem blockFrames_writeFrames {fs : List Frame} {m : Memory} (hm : m.wf = true)
    (hspan : addr + 2 * fs.length ≤ 2 ^ 32) :
    blockFrames (writeFrames m addr 0 fs) addr fs.length = fs := by
  rw [blockFrames_eq_range', map_readFrame_writeFrames fs hm (by rwa [Nat.zero_add])]

end Destination

theorem exec_rbCons {addr count : Word} {s : State} (h : spanFits addr count = true) :
    exec (.rbCons addr count) s = .next { s with
      ring := (s.ring.consume s.cfg.cap count.toNat).1
      pcm := writeFrames s.pcm addr.toNat 0 (s.ring.consume s.cfg.cap count.toNat).2 } := if_pos h

/-- Settles O49: the frames `consume_into` gives are stored in the block, and read back from it. -/
theorem rbConsFillsTheDestination : Obligations.RbConsFillsTheDestination := by
  intro addr count s hspan hc hring hpcm
  have hb := configBounds hc
  have hfits := spanFits_iff.1 hspan
  have hlength : (s.ring.served s.cfg.cap count.toNat).length = count.toNat := by
    rw [← hring.consume_served hb, Ring.consume_length]
  have hframes := blockFrames_writeFrames (fs := s.ring.served s.cfg.cap count.toNat) hpcm
    (hlength.symm ▸ hfits)
  obtain ⟨-, -, hunread, -, -, hunderrun, hslots, hwi, hoverrun⟩ :=
    consumeServesOldestThenSilence s.cfg s.ring count.toNat hc hring
  refine ⟨_, _, exec_rbCons hspan, ?_, ?_, fun b hb => ?_, hunread, hunderrun, hslots, hwi, hoverrun,
    hring.consume hb _⟩
  · rw [hring.consume_served hb]
    rwa [hlength] at hframes
  · exact writeFrames_wf hpcm (by simpa using hfits)
  · exact readByte_writeFrames_outside (by simpa using not_inBlock_iff.1 hb)

/-! ### `RB.CLEAR` (R230) -/

/-- Settles O50: `Ring.clear` keeps the counters and is its own result on a cleared ring. -/
theorem rbClearEmptiesTheRing : Obligations.RbClearEmptiesTheRing := fun s =>
  ⟨s.ring.clear, rfl, fun _ => rfl, rfl, rfl, rfl, rfl, rfl, rfl, fun _ _ hop => decode_rbClear hop⟩

/-! ### The error counters (R229) -/

section Counters

variable {s t : State} {r r' r'' : Ring}

/-- The ring `r'` has counted every error that `r` has. -/
structure CountersGrow (r r' : Ring) : Prop where
  underrun : r.underrun.toNat ≤ r'.underrun.toNat
  overrun : r.overrun.toNat ≤ r'.overrun.toNat

theorem CountersGrow.refl (r : Ring) : CountersGrow r r := ⟨le_rfl, le_rfl⟩

theorem CountersGrow.trans (h : CountersGrow r r') (h' : CountersGrow r' r'') : CountersGrow r r'' :=
  ⟨h.underrun.trans h'.underrun, h.overrun.trans h'.overrun⟩

theorem countersGrow_of_ring (h : t.ring = s.ring) : CountersGrow s.ring t.ring :=
  h ▸ CountersGrow.refl _

theorem le_satAdd (counter : Word) (n : Nat) : counter.toNat ≤ (satAdd counter n).toNat := by
  have hlt := counter.isLt
  rw [satAdd_toNat]
  omega

theorem Ring.raise_countersGrow (r : Ring) (e : ErrorEvent) : CountersGrow r (r.raise e) := by
  cases e with
  | overrun n => exact ⟨le_rfl, le_satAdd _ _⟩
  | underrun n => exact ⟨le_satAdd _ _, le_rfl⟩
  | invalidParameter => exact .refl r
  | channelMismatch => exact .refl r

theorem Ring.dequeue_countersGrow (cap : Nat) (r : Ring) : CountersGrow r (r.dequeue cap).1 := by
  rcases Ring.dequeue_cases cap r with ⟨-, e⟩ | ⟨-, e⟩ <;> rw [e]
  · exact ⟨le_rfl, le_rfl⟩
  · exact ⟨le_satAdd _ _, le_rfl⟩

theorem Ring.consume_countersGrow (cap n : Nat) (r : Ring) : CountersGrow r (r.consume cap n).1 :=
  Ring.consume_induction (fun q hq => hq.trans (q.dequeue_countersGrow cap)) (.refl r)

theorem State.startDriver_countersGrow (s : State) : CountersGrow s.ring s.startDriver.ring := by
  rcases s.startDriver_cases with ⟨-, e⟩ | ⟨-, e⟩ <;> rw [e]
  · exact .refl _
  · exact (Ring.consume_countersGrow _ _ _).trans (Ring.consume_countersGrow _ _ _)

theorem State.transferComplete_countersGrow (s : State) :
    CountersGrow s.ring s.transferComplete.ring := by
  rcases s.transferComplete_cases with ⟨-, e⟩ | ⟨-, e⟩ <;> rw [e]
  · exact .refl _
  · exact Ring.consume_countersGrow _ _ _

@[simp] theorem State.process_ring {ch : Byte} {addr count : Word} :
    (s.process ch addr count).ring = s.ring := by
  obtain ⟨e, m, h, -⟩ := s.process_frame ch addr count
  rw [h]

theorem State.fgStep_countersGrow (s : State) : CountersGrow s.ring s.fgStep.ring := by
  cases hf : s.fg with
  | idle =>
    rw [State.fgStep_idle hf]
    exact .refl _
  | writing owner addr count i n =>
    rw [State.fgStep_writing hf]
    rcases s.enqueueStep_enqueue owner addr count i n with ⟨-, e⟩ | ⟨r, hr, e⟩ <;> rw [e]
    · exact .refl _
    · obtain ⟨-, hunderrun, hoverrun⟩ := Ring.enqueue_frame hr
      exact ⟨hunderrun ▸ le_rfl, hoverrun ▸ le_rfl⟩
  | accounting owner count n =>
    rw [State.fgStep_accounting hf]
    exact s.ring.raise_countersGrow (.overrun (count.toNat - n))
  | autoStart =>
    rw [State.fgStep_autoStart hf]
    rcases s.autoStartStep_cases with ⟨-, -, e⟩ | ⟨-, e⟩ <;> rw [e]
    · exact s.startDriver_countersGrow
    · exact .refl _

theorem State.fgContinue_countersGrow (k : Nat) (s : State) :
    CountersGrow s.ring (State.fgContinue k s).ring :=
  State.fgContinue_induction (P := fun v => CountersGrow s.ring v.ring)
    (fun _ h => h) (fun v h => h.trans v.fgStep_countersGrow) (.refl _)

theorem State.fgRun_countersGrow (s : State) : CountersGrow s.ring s.fgRun.ring :=
  s.fgStep_countersGrow.trans (State.fgContinue_countersGrow _ _)

/-- No command takes back an error it or another has counted. -/
theorem exec_countersGrow {i : Instr} (h : exec i s = .next t) : CountersGrow s.ring t.ring := by
  by_cases hi : writesRing i = false
  · exact countersGrow_of_ring ((exec_keepsTheRest h).ring hi)
  · cases i with
    | rbWrite addr count =>
      obtain ⟨-, rfl⟩ := next_of_spanFits h
      exact (s.beginWrite .rbWrite addr count).fgRun_countersGrow
    | rbCons addr count =>
      obtain ⟨-, rfl⟩ := next_of_spanFits h
      exact Ring.consume_countersGrow _ _ _
    | rbClear => cases h; exact ⟨le_rfl, le_rfl⟩
    | outStart => cases h; exact s.startDriver_countersGrow
    | outXfer => cases h; exact s.transferComplete_countersGrow
    | pcmBlock ch addr count rate =>
      obtain ⟨-, rfl⟩ := next_of_spanFits h
      have hring : ((s.process ch addr count).beginWrite .pcmBlock addr count).ring = s.ring :=
        State.process_ring
      exact hring ▸ State.fgContinue_countersGrow _ _
    | _ => exact absurd rfl hi

/-- HOST writes the ring by a reset only. -/
theorem State.hostStep_ring (h : s.host.head? ≠ some .reset) : s.hostStep.ring = s.ring := by
  unfold State.hostStep
  split
  · rfl
  · rfl
  · rfl
  · rename_i hreset
    exact absurd (by rw [hreset]; rfl) h

/-- Settles O15: by the agent that has the turn, HOST's reset being excepted. -/
theorem countersNeverDecrease : Obligations.CountersNeverDecrease := by
  intro s t h hreset
  have hgrow : CountersGrow s.ring t.ring := by
    obtain ⟨-, ⟨-, rfl⟩ | ⟨hturn, rfl⟩ | ⟨-, rfl⟩ | ⟨-, rfl⟩ | ⟨-, -, rfl⟩ | ⟨-, -, -, rfl⟩ |
      ⟨-, -, i, rest, -, hexec⟩⟩ := step_cases h
    · exact .refl _
    · exact countersGrow_of_ring (State.hostStep_ring (s := s.spendTurn) (hreset hturn))
    · exact s.spendTurn.transferComplete_countersGrow
    · exact .refl _
    · exact s.spendTurn.fgRun_countersGrow
    · exact .refl _
    · exact exec_countersGrow (s := s.spendTurn.withPort rest) hexec
  exact ⟨hgrow.underrun, hgrow.overrun⟩

end Counters

end Sys2Proof.Machine

namespace Sys2Proof.Machine

variable {s t u : State}

/-! ### The start of a write phase (R221, R280) -/

section BeginWrite

variable {owner : WriteOwner} {addr count : Word} {i k : Nat}

theorem writeAt_ne_idle (owner : WriteOwner) (addr count : Word) (i n : Nat) :
    writeAt owner addr count i n ≠ .idle := by
  unfold writeAt
  split <;> nofun

theorem writeAt_ne_autoStart (owner : WriteOwner) (addr count : Word) (i n : Nat) :
    writeAt owner addr count i n ≠ .autoStart := by
  unfold writeAt
  split <;> nofun

/-- At its start a write phase has offered no frame. -/
theorem standsAt_beginWrite (h : RingOk s.cfg s.ring) :
    StandsAt s owner addr count 0 0 (s.beginWrite owner addr count) := by
  by_cases hcount : 0 < count.toNat
  · exact .writing 0 le_rfl rfl hcount (EnqueuedTo.start h addr 0) (if_pos hcount) rfl rfl
  · exact .ending 0 0 s.ring le_rfl (by simp [hcount]) (Nat.zero_le _) (EnqueuedTo.start h addr 0)
      (fun hlt => absurd hlt hcount) (.beforeAccounting rfl (if_neg hcount) rfl rfl rfl)

/-- `s` with other listed turns and another tick of the free schedule. -/
def State.withTurns (s : State) (sched : List Agent) (tick : Nat) : State :=
  { s with sched := sched, tick := tick }

/-- An atomic step of a write phase does not look at the turns. -/
theorem State.fgStep_withTurns (h : s.fg ≠ .autoStart) (sched : List Agent) (tick : Nat) :
    (s.withTurns sched tick).fgStep = s.fgStep.withTurns sched tick := by
  have hfg : (s.withTurns sched tick).fg = s.fg := rfl
  cases hf : s.fg with
  | idle => rw [State.fgStep_idle hf, State.fgStep_idle (hfg.trans hf)]
  | writing owner addr count i n =>
    rw [State.fgStep_writing hf, State.fgStep_writing (hfg.trans hf)]
    simp only [State.enqueueStep, State.withTurns]
    split <;> rfl
  | accounting owner count n =>
    rw [State.fgStep_accounting hf, State.fgStep_accounting (hfg.trans hf)]
    rfl
  | autoStart => exact absurd hf h

/-- Where a write phase of `RB.WRITE` stands does not depend on the turns: only `PCM.BLOCK`
can wait in a way that names one, before its auto-start test. -/
theorem StandsAt.withTurns (h : StandsAt s .rbWrite addr count i k u) (sched : List Agent) (tick : Nat) :
    StandsAt s .rbWrite addr count i k (u.withTurns sched tick) := by
  cases h with
  | writing n hin hk hn hring hfg hres hdriver => exact .writing n hin hk hn hring hfg hres hdriver
  | ending n j r hin hk hn hring hfull hend =>
    refine .ending n j r hin hk hn hring hfull ?_
    cases hend with
    | beforeAccounting hj hfg hring hres hdriver => exact .beforeAccounting hj hfg hring hres hdriver
    | beforeAutoStart _ howner => cases howner
    | completed hfg hdone => exact .completed hfg hdone

/-- An atomic step of `RB.WRITE` takes its write phase on, whether or not it takes a turn. -/
theorem StandsAt.fgStep (h : StandsAt s .rbWrite addr count i k u) (hb : ConfigBounds s.cfg)
    (hsame : SameOutsideWrite s u) (hfg : u.fg ≠ .idle) (hauto : u.fg ≠ .autoStart) :
    StandsAt s .rbWrite addr count i (k + 1) u.fgStep := by
  have hspent : u.spendTurn = u.withTurns u.spendTurn.sched u.spendTurn.tick := rfl
  have hstep := h.step hb hsame hfg
  rw [hspent, State.fgStep_withTurns hauto] at hstep
  exact hstep.withTurns u.fgStep.sched u.fgStep.tick

end BeginWrite

/-! ### `RB.WRITE` under any schedule (R221, R75) -/

section RbWrite

variable {addr count : Word}

theorem exec_rbWrite (h : spanFits addr count = true) :
    exec (.rbWrite addr count) s = .next (s.beginWrite .rbWrite addr count).fgRun := if_pos h

/-- The first atomic step of `RB.WRITE` takes no turn. -/
theorem ranTo_beginWrite_fgStep (hb : ConfigBounds s.cfg) (h : RingOk s.cfg s.ring) (addr count : Word) :
    RanTo s (fun k => StandsAt s .rbWrite addr count 0 (k + 1)) 0
      (s.beginWrite .rbWrite addr count).fgStep := by
  have hstands : StandsAt s .rbWrite addr count 0 1 (s.beginWrite .rbWrite addr count).fgStep :=
    (standsAt_beginWrite h).fgStep hb (SameOutsideWrite.refl s) (writeAt_ne_idle _ _ _ _ _)
      (writeAt_ne_autoStart _ _ _ _ _)
  obtain ⟨hsched, htick⟩ := (s.beginWrite .rbWrite addr count).fgStep_turns
  exact ⟨State.fgStep_sameOutsideWrite _, 0, le_rfl, hstands, 0, fun _ => rfl, fun _ => rfl, hsched, htick,
    fun _ hj => absurd hj (Nat.not_lt_zero _)⟩

/-- `RB.WRITE` goes through its write phase to its end or to another agent's turn. -/
theorem rbWrite_wroteOn (hc : configOk s.cfg = true) (h : RingOk s.cfg s.ring) (addr count : Word) :
    WroteOn s .rbWrite addr count 0 1 1 (s.beginWrite .rbWrite addr count).fgRun :=
  have hb := configBounds hc
  ((ranTo_beginWrite_fgStep hb h addr count).fgContinue (StandsAt.followsRun hb 1) _).wroteOn
    (State.fgRun_stops (writeAt_ne_idle _ _ _ _ _) (offersInBlock_writeAt _ _ _ _ _))

/-! ### `RB.WRITE` with every turn FG's -/

/-- FG has the turn again as long as it has spent fewer of the turns it was given. -/
theorem State.fgTurns.turn {n k : Nat} (h : s.fgTurns n) (hspent : TurnsSpent s t k) (hk : k < n)
    (hcfg : t.cfg = s.cfg) (hdriver : t.driver = s.driver) (hfg : t.fg ≠ .idle) : t.turn = some .fg := by
  have hready : t.ready .fg = true := State.fgReady_of_inCommand hfg
  have hquiet : t.quiet ↔ s.quiet := by rw [State.quiet, State.quiet, hcfg, hdriver]
  by_cases hq : s.quiet
  · refine State.turn_of_not_contested ?_ hready
    rw [← Bool.not_eq_true, State.contested_iff_of_inCommand hfg, hquiet]
    exact not_not_intro hq
  · obtain ⟨m, -, hbusy, hsched, -⟩ := hspent
    have hlisted : s.sched[k]? = some .fg := by
      rw [← List.getElem?_take_of_lt hk, h.resolve_left hq, List.getElem?_replicate_of_lt hk]
    obtain ⟨hlt, hget⟩ := List.getElem?_eq_some_iff.1 hlisted
    have hnext : t.sched = .fg :: s.sched.drop (k + 1) := by
      rw [hsched, hbusy hq, List.drop_eq_getElem_cons hlt, hget]
    exact State.turn_of_listed hnext hready

theorem EnqueuedTo.fc {i n : Nat} {r : Ring} (h : EnqueuedTo s addr i n r) :
    r.fc.toNat = s.ring.fc.toNat + (n - i) := by
  rw [← Ring.unread_length s.cfg.cap, h.unread, List.length_append, List.length_drop,
    Ring.unread_length, blockFrames_length]

/-- A write that left a frame out filled the ring: it kept what there was room for (R221). -/
theorem EnqueuedTo.kept {n : Nat} {r : Ring} (h : EnqueuedTo s addr 0 n r) (hn : n ≤ count.toNat)
    (hfull : n < count.toNat → r.fc.toNat = s.cfg.cap) :
    n = min count.toNat (s.cfg.cap - s.ring.fc.toNat) := by
  have hfc := h.fc
  have hcap := h.ok.fc
  rcases hn.lt_or_eq with hlt | rfl
  · have hlevel := hfull hlt
    omega
  · omega

/-- `RB.WRITE` has completed as `t`, with `n` frames kept; a frame that a full ring refused took one more
atomic step. -/
structure RbWritten (s : State) (addr count : Word) (n : Nat) (t : State) : Prop where
  same : SameOutsideWrite s t
  kept : n = min count.toNat (s.cfg.cap - s.ring.fc.toNat)
  ok : RingOk s.cfg t.ring
  unread : t.ring.unread s.cfg.cap = s.ring.unread s.cfg.cap ++ blockFrames s.pcm addr.toNat n
  ri : t.ring.ri = s.ring.ri
  underrun : t.ring.underrun = s.ring.underrun
  overrun : t.ring.overrun.toNat = min (s.ring.overrun.toNat + (count.toNat - n)) (2 ^ 32 - 1)
  driver : t.driver = s.driver
  res : t.res = BitVec.ofNat 32 n
  fg : t.fg = .idle
  turns : TurnsSpent s t (min count.toNat (n + 1))

/-- Given every turn, `RB.WRITE` waits nowhere. -/
theorem WroteOn.rbWritten (h : WroteOn s .rbWrite addr count 0 1 1 t) (hturns : s.fgTurns count.toNat) :
    ∃ n, RbWritten s addr count n t := by
  obtain ⟨hsame, n, r, k, -, hn, hok, hunread, hri, hunderrun, hoverrun, hspent, hstands⟩ := h
  obtain ⟨hcfg, -⟩ := id hsame
  rcases hstands with ⟨hfg, -, hlt, hturn, hk, -, -, hdriver⟩ | ⟨hfull, tried, htried, hend⟩
  · exact absurd (hturns.turn hspent (by omega) hcfg hdriver (by simp [hfg])) hturn
  · have htried' : tried = min count.toNat (n + 1) := by
      split_ifs at htried <;> omega
    rcases hend with ⟨hfg, hturn, hk, -, -, hdriver⟩ | ⟨more, hk, hres, w, hw, hmore, hfg, hring, hdriver⟩
    · exact absurd (hturns.turn hspent (by omega) hcfg hdriver (by simp [hfg])) hturn
    · obtain rfl : k = min count.toNat (n + 1) := by omega
      rw [hoverrun] at hw
      refine ⟨n, hsame, ?kept, ?ok, ?unread, ?ri, ?underrun, ?overrun, hdriver, hres, hfg, hspent⟩
      case kept => exact EnqueuedTo.kept ⟨hok, hunread, hri, hunderrun, hoverrun⟩ hn hfull
      all_goals rw [hring]
      case ok => exact { hok with }
      case unread => exact hunread
      case ri => exact hri
      case underrun => exact hunderrun
      case overrun => exact hw

end RbWrite

/-- Settles O47: under any schedule by `rbWrite_wroteOn`; with every turn FG's, none of the waits of `WroteOn`
is left. -/
theorem rbWriteKeepsWhatFits : Obligations.RbWriteKeepsWhatFits := by
  refine ⟨fun addr count s hspan hc hring hturns => ?completes,
    fun addr count s hspan hc hring => ⟨_, exec_rbWrite hspan, rbWrite_wroteOn hc hring addr count⟩⟩
  case completes =>
    obtain ⟨n, h⟩ := (rbWrite_wroteOn hc hring addr count).rbWritten hturns
    have hexec : exec (.rbWrite addr count) s = .next (s.beginWrite .rbWrite addr count).fgRun :=
      exec_rbWrite hspan
    generalize (s.beginWrite .rbWrite addr count).fgRun = t at h hexec
    obtain ⟨m, hquiet, hbusy, hsched, htick, -⟩ := h.turns
    obtain ⟨hcfg, hparams, heffect, hpcm, hout, hport, hhost⟩ := h.same
    refine ⟨t.ring, n, m, ?_, h.kept, h.unread, h.ok, h.ri, h.underrun, h.overrun, hquiet, hbusy⟩
    rw [hexec, ← hcfg, ← hparams, ← heffect, ← hpcm, ← hout, ← hport, ← hhost, ← hsched, ← htick,
      ← h.driver, ← h.res, ← h.fg]

end Sys2Proof.Machine

namespace Sys2Proof.Machine

/-! ### The consumer in two parts (R225, R252) -/

/-- A second `consume_into` goes on where the first one stopped. -/
theorem Ring.consume_add (cap m n : Nat) (r : Ring) : r.consume cap (m + n) =
    (((r.consume cap m).1.consume cap n).1,
      (r.consume cap m).2 ++ ((r.consume cap m).1.consume cap n).2) := by
  induction m generalizing r with
  | zero => rw [Nat.zero_add, Ring.consume_zero, List.nil_append]
  | succ m ih => rw [Nat.succ_add, Ring.consume_succ, Ring.consume_succ, ih, List.cons_append]

/-! ### Starting, stopping and handing over (R252 to R259) -/

section DriverCommands

variable {s : State}

theorem State.startDriver_of_stopped (h : s.driver.running = false) : s.startDriver =
    { (s.fill 0).fill 1 with driver := ((s.fill 0).fill 1).driver.begin } :=
  if_neg (Bool.eq_false_iff.1 h)

theorem State.stopDriver_of_running (h : s.driver.running = true) :
    s.stopDriver = { s with driver := s.driver.halt } := if_pos h

theorem State.stopDriver_of_stopped (h : s.driver.running = false) : s.stopDriver = s :=
  if_neg (Bool.eq_false_iff.1 h)

theorem State.transferComplete_of_running (h : s.driver.running = true) :
    s.transferComplete = ({ s with driver := s.driver.swap }).fill s.driver.active := if_pos h

theorem State.transferComplete_of_stopped (h : s.driver.running = false) : s.transferComplete = s :=
  if_neg (Bool.eq_false_iff.1 h)

/-- Settles O51: each of the three operations returns its state outside its own case. -/
theorem driverNoOps : Obligations.DriverNoOps := fun _ =>
  ⟨fun h => congrArg Host.Outcome.next (State.startDriver_of_running h),
    fun h => ⟨congrArg Host.Outcome.next (State.stopDriver_of_stopped h),
      congrArg Host.Outcome.next (State.transferComplete_of_stopped h)⟩⟩

/-- Settles O53: a halted driver has no word to emit and no completion pending. -/
theorem outStopHaltsAtOnce : Obligations.OutStopHaltsAtOnce := fun _ h =>
  ⟨_, congrArg Host.Outcome.next (State.stopDriver_of_running h), rfl, rfl, rfl⟩

/-- The two pre-fills of a start are one `consume_into` of both buffers' frames (R252, R254). -/
theorem State.startDriver_consume (h : s.driver.running = false) : s.startDriver =
    { s with
      ring := (s.ring.consume s.cfg.cap (2 * s.cfg.nbuf)).1
      driver :=
        { dbuf0 := ((s.ring.consume s.cfg.cap (2 * s.cfg.nbuf)).2.take s.cfg.nbuf).map pack
          dbuf1 := ((s.ring.consume s.cfg.cap (2 * s.cfg.nbuf)).2.drop s.cfg.nbuf).map pack
          active := 0, running := true, dmaPos := 0, irqPending := false } } := by
  rw [State.startDriver_of_stopped h, Nat.two_mul, Ring.consume_add,
    List.take_left' Ring.consume_length, List.drop_left' Ring.consume_length]
  rfl

/-- Settles O52: one `consume_into` of `2 · NBUF` slots, by what it gives up and what it counts. -/
theorem outStartFillsBothBuffers : Obligations.OutStartFillsBothBuffers := by
  intro s hc hring hstopped
  obtain ⟨hserved, hok, hunread, -, -, hunderrun, hslots, hwi, hoverrun⟩ :=
    consumeServesOldestThenSilence s.cfg s.ring (2 * s.cfg.nbuf) hc hring
  refine ⟨_, ?_, hunread, hunderrun, hslots, hwi, hoverrun, hok⟩
  rw [← hserved]
  exact congrArg Host.Outcome.next (State.startDriver_consume hstopped)

@[simp] theorem Driver.buf_setBuf_same {d : Driver} {b : Fin 2} {ws : List Word} :
    (d.setBuf b ws).buf b = ws := by
  match b with
  | 0 => rfl
  | 1 => rfl

/-- Writing a buffer leaves the driver's other words as they are. -/
theorem Driver.setBuf_frame (d : Driver) (b : Fin 2) (ws : List Word) :
    (d.setBuf b ws).running = d.running ∧ (d.setBuf b ws).dmaPos = d.dmaPos ∧
    (d.setBuf b ws).irqPending = d.irqPending := by
  match b with
  | 0 => exact ⟨rfl, rfl, rfl⟩
  | 1 => exact ⟨rfl, rfl, rfl⟩

/-- The handler hands over the other buffer and keeps the driver Running (R257). -/
theorem State.transferComplete_swaps (h : s.driver.running = true) :
    s.transferComplete.driver.active = 1 - s.driver.active ∧
    s.transferComplete.driver.running = true := by
  rw [State.transferComplete_of_running h, State.fill_driver]
  exact ⟨Driver.setBuf_active, (Driver.setBuf_frame _ _ _).1.trans h⟩

/-- Settles O54: `swap` hands over the other buffer, and `fill` replaces the one that finished. -/
theorem outXferSwapsAndRefills : Obligations.OutXferSwapsAndRefills := by
  intro s hc hring hrunning
  obtain ⟨hserved, hok, hunread, -, -, hunderrun, hslots, hwi, hoverrun⟩ :=
    consumeServesOldestThenSilence s.cfg s.ring s.cfg.nbuf hc hring
  have hxfer := State.transferComplete_of_running hrunning
  have hkept := s.transferComplete_keepsActiveBuffer
  obtain ⟨hactive, hrunning'⟩ := State.transferComplete_swaps hrunning
  rw [hxfer] at hkept hactive hrunning'
  obtain ⟨-, hpos, hirq⟩ := Driver.setBuf_frame s.driver.swap s.driver.active
    ((s.ring.consume s.cfg.cap s.cfg.nbuf).2.map pack)
  refine ⟨_, _, congrArg Host.Outcome.next hxfer, hactive, hrunning', hpos, hirq, ?_, hkept,
    hunread, hunderrun, hslots, hwi, hoverrun, hok⟩
  rw [← hserved]
  exact Driver.buf_setBuf_same

end DriverCommands

/-! ### The DMA step (R262, R263) -/

section Dma

variable {s t : State} {k : Nat}

theorem DriverOk.buf_length {c : Config} {d : Driver} (h : DriverOk c d) (b : Fin 2) :
    (d.buf b).length = c.nbuf := by
  match b with
  | 0 => exact h.dbuf0
  | 1 => exact h.dbuf1

/-- Everything a DMA step that is enabled does: the word at `dma_pos` goes out, and the completion is pending
exactly if it was the last one. -/
theorem State.dmaStep_of_canEmit (hb : ConfigBounds s.cfg) (h : DriverOk s.cfg s.driver)
    (hemit : s.driver.canEmit s.cfg.nbuf = true) :
    ∃ w : Word, (s.driver.buf s.driver.active)[s.driver.dmaPos.toNat]? = some w ∧
      s.dmaStep = { s with
        out := s.out ++ [w]
        driver := { s.driver with
          dmaPos := s.driver.dmaPos + 1
          irqPending := decide (s.driver.dmaPos.toNat + 1 = s.cfg.nbuf) } } := by
  obtain ⟨hrun, hpos⟩ := Driver.canEmit_iff.1 hemit
  have hword := List.getElem?_eq_getElem (hpos.trans_eq (h.buf_length s.driver.active).symm)
  have hnext : BitVec.ofNat 32 (s.driver.dmaPos.toNat + 1) = s.driver.dmaPos + 1 := by
    rw [BitVec.ofNat_add, BitVec.ofNat_toNat, BitVec.setWidth_eq]
    rfl
  have hirq : (s.driver.advance s.cfg.nbuf).irqPending =
      decide (s.driver.dmaPos.toNat + 1 = s.cfg.nbuf) := by
    rw [Bool.eq_iff_iff, (h.advance hb hemit).irqPending, decide_eq_true_iff, Driver.advance_dmaPos,
      toNat_ofNat_word (hb.nbuf_lt.trans_le' hpos), Driver.advance_running]
    exact and_iff_right hrun
  refine ⟨_, hword, ?_⟩
  rw [State.dmaStep, List.getD_eq_getElem?_getD, hword, Option.getD_some, ← hnext, ← hirq]
  rfl

theorem step_of_dmaTurn (hc : configOk s.cfg = true) (hturn : s.turn = some .dma) :
    step s = .next s.spendTurn.dmaStep := by
  simp only [Machine.step, hc, if_true, State.anyStep, hturn, State.agentStep]

/-- Settles O56: DMA has the turn only with a word left, and then the step is `State.dmaStep_of_canEmit`. -/
theorem dmaStepEmitsOneWord : Obligations.DmaStepEmitsOneWord := by
  refine fun s => ⟨Driver.canEmit_iff, fun hc hdriver hturn => ?_⟩
  obtain ⟨w, hword, hstep⟩ := State.dmaStep_of_canEmit (s := s.spendTurn) (configBounds hc) hdriver
    (State.ready_of_turn hturn)
  exact ⟨w, hword, (step_of_dmaTurn hc hturn).trans (congrArg Host.Outcome.next hstep)⟩

/-- `t` is `s` after the first `k` words of the active buffer went out. -/
structure Emitted (s : State) (k : Nat) (t : State) : Prop where
  cfg : t.cfg = s.cfg
  ok : DriverOk t.cfg t.driver
  running : t.driver.running = true
  buf : t.driver.buf t.driver.active = s.driver.buf s.driver.active
  pos : t.driver.dmaPos.toNat = k
  out : t.out = s.out ++ (s.driver.buf s.driver.active).take k

theorem Emitted.dmaStep (h : Emitted s k t) (hb : ConfigBounds s.cfg) (hk : k < s.cfg.nbuf) :
    Emitted s (k + 1) t.dmaStep := by
  have hb' : ConfigBounds t.cfg := h.cfg ▸ hb
  have hemit : t.driver.canEmit t.cfg.nbuf = true :=
    Driver.canEmit_iff.2 ⟨h.running, by rwa [h.pos, h.cfg]⟩
  obtain ⟨w, hword, hstep⟩ := State.dmaStep_of_canEmit hb' h.ok hemit
  rw [h.buf, h.pos] at hword
  exact {
    cfg := h.cfg
    ok := h.ok.advance hb' hemit
    running := h.running
    buf := h.buf
    pos := by
      rw [State.dmaStep_driver, Driver.advance_dmaPos, h.pos]
      exact toNat_ofNat_word (by have := hb.nbuf_lt; omega)
    out := by rw [hstep, List.take_add_one, hword, h.out, List.append_assoc, Option.toList_some] }

theorem emitted_iterate (hb : ConfigBounds s.cfg) (h : DriverOk s.cfg s.driver)
    (hrunning : s.driver.running = true) (hpos : s.driver.dmaPos = 0) (hk : k ≤ s.cfg.nbuf) :
    Emitted s k (State.dmaStep^[k] s) := by
  induction k with
  | zero => exact ⟨rfl, h, hrunning, rfl, congrArg BitVec.toNat hpos, (List.append_nil _).symm⟩
  | succ k ih =>
    rw [Function.iterate_succ_apply']
    exact (ih (Nat.le_of_succ_le hk)).dmaStep hb hk

/-- Settles O57: the words by induction on the DMA steps, the completion by the driver's invariant. -/
theorem bufferIsEmittedInOrder : Obligations.BufferIsEmittedInOrder := by
  intro s k hc hdriver hrunning hpos hk
  have h := emitted_iterate (configBounds hc) hdriver hrunning hpos hk
  refine ⟨h.out, h.pos, ?_⟩
  rw [h.ok.irqPending, h.pos, h.cfg]
  exact and_iff_right h.running

end Dma

/-! ### Who changes the active index (R260) -/

section ActiveIndex

variable {s t : State}

/-- The handler has the turn, or FG has it and an `OUT.XFER` is next on the port. -/
def State.HandsOver (s : State) : Prop :=
  s.turn = some .isr ∨ (s.turn = some .fg ∧ s.fg = .idle ∧ ∃ rest, decode s.port = .command .outXfer rest)

/-- Of the commands that leave a running driver Running, only `OUT.XFER` writes it. -/
theorem exec_driver_of_running {i : Instr} (h : exec i s = .next t) (hs : s.driver.running = true)
    (ht : t.driver.running = true) (hi : i ≠ .outXfer) : t.driver = s.driver := by
  by_cases hwrites : writesDriver i = false
  · exact (exec_keepsTheRest h).driver hwrites
  · cases i with
    | outStart =>
      cases h
      rw [State.startDriver_of_running hs]
    | outStop =>
      cases h
      rw [State.stopDriver_running] at ht
      cases ht
    | outXfer => exact absurd rfl hi
    | pcmBlock ch addr count rate =>
      obtain ⟨-, rfl⟩ := next_of_spanFits h
      have hdriver : ((s.process ch addr count).beginWrite .pcmBlock addr count).driver = s.driver :=
        State.process_driver
      exact (State.fgContinue_driver_of_running (by rwa [hdriver]) _).trans hdriver
    | _ => exact absurd rfl hwrites

/-- What a step of a driver that stays Running does to the active index. -/
theorem step_active_cases (h : step s = .next t) (hs : s.driver.running = true)
    (ht : t.driver.running = true) :
    (s.HandsOver ∧ t.driver.active = 1 - s.driver.active) ∨
    (¬ s.HandsOver ∧ t.driver.active = s.driver.active) := by
  obtain ⟨-, ⟨hturn, rfl⟩ | ⟨hturn, rfl⟩ | ⟨hturn, rfl⟩ | ⟨hturn, rfl⟩ | ⟨hturn, hfg, rfl⟩ |
    ⟨hturn, hfg, ⟨why, hport⟩, rfl⟩ | ⟨hturn, hfg, i, rest, hport, hexec⟩⟩ := step_cases h
  · exact .inr ⟨by simp [State.HandsOver, hturn], rfl⟩
  · exact .inr ⟨by simp [State.HandsOver, hturn], congrArg Driver.active (State.hostStep_driver ht)⟩
  · exact .inl ⟨.inl hturn, (State.transferComplete_swaps (s := s.spendTurn) hs).1⟩
  · exact .inr ⟨by simp [State.HandsOver, hturn], rfl⟩
  · exact .inr ⟨by simp [State.HandsOver, hturn, hfg],
      congrArg Driver.active (State.fgRun_driver_of_running (s := s.spendTurn) hs)⟩
  · exact .inr ⟨by simp [State.HandsOver, hturn, hport], rfl⟩
  · by_cases hi : i = .outXfer
    · subst hi
      cases hexec
      exact .inl ⟨.inr ⟨hturn, hfg, rest, hport⟩,
        (State.transferComplete_swaps (s := s.spendTurn.withPort rest) hs).1⟩
    · exact .inr ⟨by simp [State.HandsOver, hturn, hport, hi],
        congrArg Driver.active (exec_driver_of_running (s := s.spendTurn.withPort rest) hexec hs ht hi)⟩

/-- From either active index, each of `k + 1` `OUT.XFER`s makes the other buffer active. -/
theorem runCommands_outXfer_active (k : Nat) (hs : s.driver.running = true) : ∃ t,
    (runCommands (List.replicate (k + 1) .outXfer) s)[k]? = some t ∧
    t.driver.running = true ∧ t.driver.active.val = (s.driver.active.val + (k + 1)) % 2 := by
  have hother : ∀ b : Fin 2, (1 - b).val = (b.val + 1) % 2 := by decide
  obtain ⟨hactive, hrunning⟩ := State.transferComplete_swaps hs
  induction k generalizing s with
  | zero => exact ⟨_, rfl, hrunning, by rw [hactive, hother]⟩
  | succ k ih =>
    obtain ⟨hactive', hrunning'⟩ := State.transferComplete_swaps hrunning
    obtain ⟨t, hrun, ht, hval⟩ := ih hrunning hactive' hrunning'
    refine ⟨t, hrun, ht, ?_⟩
    rw [hval, hactive, hother]
    omega

/-- Settles O58: the steps by the agent that has the turn, the alternation by induction on the `OUT.XFER`s. -/
theorem activeIndexAlternates : Obligations.ActiveIndexAlternates := by
  refine ⟨fun s t h hs ht => ?steps, fun s k hs hactive => ?alternation⟩
  case steps =>
    change (s.HandsOver → _) ∧ (¬ s.HandsOver → _)
    rcases step_active_cases h hs ht with ⟨hover, hactive⟩ | ⟨hnot, hactive⟩
    · exact ⟨fun _ => hactive, fun hnot => absurd hover hnot⟩
    · exact ⟨fun hover => absurd hover hnot, fun _ => hactive⟩
  case alternation =>
    obtain ⟨t, hrun, ht, hval⟩ := runCommands_outXfer_active k hs
    refine ⟨t, hrun, ht, ?_⟩
    rw [hval, hactive]
    omega

end ActiveIndex

end Sys2Proof.Machine

namespace Sys2Proof.Machine

/-! ### `NOP` and the reserved opcodes (R285, R95) -/

/-- Settles O17: the all-zero header and the reserved opcodes are outside the opcode map's other rows. -/
theorem nopChangesNothing : Obligations.NopChangesNothing :=
  ⟨fun _ => rfl, fun _ => decode_nop (by decide), fun _ _ hop => decode_nop hop⟩

variable {s t u v : State}

section FirstPhase

variable {ch : Byte} {addr count rate : Word}

/-! ### The first phase of `PCM.BLOCK` leaves the turns and who has a step (R280) -/

@[simp] theorem State.process_sched : (s.process ch addr count).sched = s.sched := by
  obtain ⟨e, m, h, -⟩ := s.process_frame ch addr count
  rw [h]

@[simp] theorem State.process_tick : (s.process ch addr count).tick = s.tick := by
  obtain ⟨e, m, h, -⟩ := s.process_frame ch addr count
  rw [h]

@[simp] theorem State.process_quiet : (s.process ch addr count).quiet ↔ s.quiet := by
  rw [State.quiet, State.quiet, State.process_driver, State.process_cfg]

/-! ### `PCM.BLOCK` under any schedule (R280, R75) -/

/-- The part of `PCM.BLOCK` after its first phase: the write phase and the auto-start test. -/
def State.pcmWrite (s : State) (addr count : Word) : State :=
  State.fgContinue (s.beginWrite .pcmBlock addr count).fg.stepsLeft (s.beginWrite .pcmBlock addr count)

theorem exec_pcmBlock (h : spanFits addr count = true) :
    exec (.pcmBlock ch addr count rate) s = .next ((s.process ch addr count).pcmWrite addr count) :=
  if_pos h

/-- `PCM.BLOCK` begins its write phase without a turn, and goes on to its end or to another agent's turn. -/
theorem pcmWrite_wroteOn (hc : configOk s.cfg = true) (h : RingOk s.cfg s.ring) (addr count : Word) :
    WroteOn s .pcmBlock addr count 0 0 0 (s.pcmWrite addr count) :=
  have hstart : RanTo s (fun k => StandsAt s .pcmBlock addr count 0 (k + 0)) 0
      (s.beginWrite .pcmBlock addr count) :=
    ⟨SameOutsideWrite.refl s, 0, le_rfl, standsAt_beginWrite h, TurnsSpent.refl s⟩
  (hstart.fgContinue (StandsAt.followsRun (configBounds hc) 0) _).wroteOn
    (State.fgContinue_stops _ (offersInBlock_writeAt _ _ _ _ _) le_rfl)

end FirstPhase

/-! ### What the atomic steps compute does not depend on the turns (R75) -/

theorem State.startDriver_withTurns (s : State) (sched : List Agent) (tick : Nat) :
    (s.withTurns sched tick).startDriver = s.startDriver.withTurns sched tick := by
  cases hrunning : s.driver.running with
  | true =>
    rw [State.startDriver_of_running hrunning]
    exact State.startDriver_of_running hrunning
  | false =>
    rw [State.startDriver_of_stopped hrunning]
    exact State.startDriver_of_stopped hrunning

/-- The auto-start test by its condition: Stopped, and the ring at the threshold (R282). -/
theorem State.autoStartStep_eq (s : State) : s.autoStartStep =
    if s.driver.running = false ∧ s.cfg.startThreshold ≤ s.ring.fc.toNat
    then { s.startDriver with fg := .idle } else { s with fg := .idle } := by
  rcases s.autoStartStep_cases with ⟨hstopped, hlevel, e⟩ | ⟨hno, e⟩
  · rw [e, if_pos ⟨hstopped, hlevel⟩]
  · rw [e, if_neg fun ⟨hstopped, hlevel⟩ => hno.elim (by simp [hstopped]) (by omega)]

/-- Made where no command is in progress, the test is a conditional `OUT.START` and nothing more. -/
theorem State.autoStartStep_of_idle (h : s.fg = .idle) : s.autoStartStep =
    if s.driver.running = false ∧ s.cfg.startThreshold ≤ s.ring.fc.toNat then s.startDriver else s := by
  rw [State.autoStartStep_eq, ← State.startDriver_withFg, ← h]

theorem State.autoStartStep_withFg (s : State) (f : FgState) :
    ({ s with fg := f } : State).autoStartStep = s.autoStartStep := by
  rw [State.autoStartStep_eq, State.autoStartStep_eq, State.startDriver_withFg]

theorem State.autoStartStep_withTurns (s : State) (sched : List Agent) (tick : Nat) :
    (s.withTurns sched tick).autoStartStep = s.autoStartStep.withTurns sched tick := by
  rw [State.autoStartStep_eq, State.autoStartStep_eq, State.startDriver_withTurns,
    apply_ite (fun u : State => u.withTurns sched tick)]
  rfl

/-- No atomic step of FG looks at the turns, the auto-start test included. -/
theorem State.fgStep_withTurns_of_any (s : State) (sched : List Agent) (tick : Nat) :
    (s.withTurns sched tick).fgStep = s.fgStep.withTurns sched tick := by
  by_cases hauto : s.fg = .autoStart
  · rw [State.fgStep_autoStart hauto, State.fgStep_autoStart (s := s.withTurns sched tick) hauto,
      State.autoStartStep_withTurns]
  · exact State.fgStep_withTurns hauto sched tick

/-! ### A command that completes in a known number of atomic steps -/

/-- The command in progress in `v` completes as `t` with its `k`-th atomic step, the turns left out. -/
structure CompletesIn (v : State) (k : Nat) (t : State) : Prop where
  steps : State.fgStep^[k] v = t
  idle : t.fg = .idle
  busy : ∀ j, j < k → (State.fgStep^[j] v).fg ≠ .idle

/-- `u` is `v` after `k` atomic steps of the command in progress, up to the turns they spent. -/
structure SteppedTo (v : State) (k : Nat) (u : State) : Prop where
  state : u = (State.fgStep^[k] v).withTurns u.sched u.tick
  busy : ∀ j, j < k → (State.fgStep^[j] v).fg ≠ .idle
  driver : u.fg ≠ .idle → u.driver = v.driver

section AtomicSteps

variable {k : Nat}

/-- An atomic step of FG does not raise the bound on the steps left. -/
theorem State.fgStep_stepsLeft_le (s : State) (hoffers : s.fg.OffersInBlock) :
    s.fgStep.fg.stepsLeft ≤ s.fg.stepsLeft := by
  by_cases hidle : s.fg = .idle
  · rw [State.fgStep_idle hidle]
  · exact (s.fgStep_stepsLeft hidle fun _ _ _ _ _ hf => by rwa [hf] at hoffers).le

/-- FG has nothing left to do after a completed command. -/
theorem State.iterate_fgStep_of_idle (h : s.fg = .idle) (k : Nat) : State.fgStep^[k] s = s :=
  Function.iterate_fixed (State.fgStep_idle h) k

/-- A command that is in progress after `k` atomic steps was in progress before each of them. -/
theorem State.busy_of_iterate_fgStep (h : (State.fgStep^[k] v).fg ≠ .idle) {j : Nat} (hj : j ≤ k) :
    (State.fgStep^[j] v).fg ≠ .idle := by
  intro hidle
  obtain ⟨d, rfl⟩ := Nat.exists_eq_add_of_le' hj
  rw [Function.iterate_add_apply, State.iterate_fgStep_of_idle hidle] at h
  exact h hidle

theorem CompletesIn.of_last (hlast : (State.fgStep^[k] v).fg ≠ .idle)
    (hsteps : (State.fgStep^[k] v).fgStep = t) (hidle : t.fg = .idle) : CompletesIn v (k + 1) t :=
  ⟨(Function.iterate_succ_apply' _ _ _).trans hsteps, hidle,
    fun _ hj => State.busy_of_iterate_fgStep hlast (Nat.le_of_lt_succ hj)⟩

theorem CompletesIn.fgStep (h : CompletesIn v (k + 1) t) : CompletesIn v.fgStep k t :=
  ⟨h.steps, h.idle, fun j hj => h.busy (j + 1) (Nat.succ_lt_succ hj)⟩

theorem SteppedTo.refl (v : State) : SteppedTo v 0 v :=
  ⟨rfl, fun _ hj => absurd hj (Nat.not_lt_zero _), fun _ => rfl⟩

theorem SteppedTo.fg (h : SteppedTo v k u) : u.fg = (State.fgStep^[k] v).fg := by
  rw [h.state]
  rfl

/-- FG's run makes the atomic steps one by one. -/
theorem SteppedTo.followsRun (v : State) : FollowsRun v (SteppedTo v) where
  driver h := h.driver
  step := by
    intro k u h _ hfg
    have hstate : u.spendTurn =
        (State.fgStep^[k] v).withTurns u.spendTurn.sched u.spendTurn.tick :=
      congrArg (fun x => x.withTurns u.spendTurn.sched u.spendTurn.tick) h.state
    obtain ⟨hsched, htick⟩ := u.spendTurn.fgStep_turns
    refine ⟨?state, fun j hj => ?busy, fun hnext => ?driver⟩
    case state =>
      rw [hsched, htick, Function.iterate_succ_apply', ← State.fgStep_withTurns_of_any, ← hstate]
    case busy =>
      exact State.busy_of_iterate_fgStep (h.fg ▸ hfg) (Nat.le_of_lt_succ hj)
    case driver =>
      have hauto : u.spendTurn.fg ≠ .autoStart := by
        intro hf
        rw [State.fgStep_autoStart hf] at hnext
        exact hnext (State.autoStartStep_fg _)
      exact (State.fgStep_driver hauto).trans (h.driver hfg)

/-- With every turn FG's, the run makes all the steps of its command, and each spends a turn exactly where
another agent has a step. -/
theorem CompletesIn.fgContinue (h : CompletesIn v k t) (hturns : v.fgTurns k)
    (hoffers : v.fg.OffersInBlock) {fuel : Nat} (hfuel : v.fg.stepsLeft ≤ fuel) :
    ∃ m, State.fgContinue fuel v = t.withTurns (v.sched.drop m) (v.tick + m) ∧
      (v.quiet → m = 0) ∧ (¬ v.quiet → m = k) := by
  obtain ⟨hsame, j, -, hstepped, hspent⟩ :=
    (RanTo.start (SteppedTo.refl v)).fgContinue (SteppedTo.followsRun v) fuel
  have hstop := State.fgContinue_stops v hoffers hfuel
  generalize State.fgContinue fuel v = u at hsame hstepped hspent hstop ⊢
  obtain ⟨hcfg, -⟩ := hsame
  have hjk : j = k := by
    rcases lt_trichotomy j k with hlt | heq | hgt
    · have hbusy : u.fg ≠ .idle := hstepped.fg ▸ h.busy j hlt
      exact absurd (hturns.turn hspent hlt hcfg (hstepped.driver hbusy) hbusy) (hstop.resolve_left hbusy)
    · exact heq
    · exact absurd (h.steps ▸ h.idle) (hstepped.busy k hgt)
  subst hjk
  obtain ⟨m, hquiet, hbusy, hsched, htick, -⟩ := hspent
  refine ⟨m, ?_, hquiet, hbusy⟩
  rw [← hsched, ← htick, ← h.steps]
  exact hstepped.state

end AtomicSteps

/-! ### The atomic steps of `RB.WRITE` and of `PCM.BLOCK` (R221, R280)

`StandsAt` follows a write phase from a ring that meets its invariant; that the two commands write alike holds
of every ring. -/

section WriteSteps

variable {addr count : Word}

/-- From frame `i` on, either command offers the same frames to the same ring: up to the first one that a full
ring refuses, or all of the block. -/
theorem exists_offered (s : State) (addr count : Word) {d i : Nat} (hd : i + d = count.toNat) :
    ∃ (n : Nat) (r : Ring), i ≤ n ∧ n ≤ count.toNat ∧ ∀ owner,
      State.fgStep^[min count.toNat (n + 1) - i] { s with fg := writeAt owner addr count i i } =
        { s with ring := r, fg := .accounting owner count n } := by
  induction d generalizing s i with
  | zero =>
    refine ⟨i, s.ring, le_rfl, by omega, fun owner => ?_⟩
    have hsteps : min count.toNat (i + 1) - i = 0 := by omega
    have hall : ¬ i < count.toNat := by omega
    rw [hsteps, writeAt, if_neg hall, Function.iterate_zero_apply]
  | succ d ih =>
    have hi : i < count.toNat := by omega
    have hfirst (owner : WriteOwner) : ({ s with fg := writeAt owner addr count i i } : State).fgStep =
        ({ s with fg := .writing owner addr count i i } : State).enqueueStep owner addr count i i := by
      rw [writeAt, if_pos hi]
      rfl
    cases hr : s.ring.enqueue s.cfg.cap (readFrame s.pcm addr.toNat i) with
    | none =>
      refine ⟨i, s.ring, le_rfl, hi.le, fun owner => ?_⟩
      have hsteps : min count.toNat (i + 1) - i = 1 := by omega
      rw [hsteps, Function.iterate_one, hfirst]
      simp only [State.enqueueStep, hr]
    | some r =>
      obtain ⟨n, r', hin, hn, hrest⟩ := ih { s with ring := r } (i := i + 1) (by omega)
      refine ⟨n, r', by omega, hn, fun owner => ?_⟩
      have hsteps : min count.toNat (n + 1) - i = (min count.toNat (n + 1) - (i + 1)) + 1 := by omega
      rw [hsteps, Function.iterate_succ_apply, hfirst, ← hrest owner]
      simp only [State.enqueueStep, hr]

/-- `s` after a write that kept `n` of `count` frames and left the ring `r`, its accounting step made (R221). -/
def State.written (s : State) (count : Word) (n : Nat) (r : Ring) : State :=
  { s with ring := r.raise (.overrun (count.toNat - n)), res := BitVec.ofNat 32 n, fg := .idle }

theorem State.fgStep_accounting_rbWrite (s : State) (count : Word) (n : Nat) (r : Ring) :
    ({ s with ring := r, fg := .accounting .rbWrite count n } : State).fgStep = s.written count n r := rfl

theorem State.fgStep_accounting_pcmBlock (s : State) (count : Word) (n : Nat) (r : Ring) :
    ({ s with ring := r, fg := .accounting .pcmBlock count n } : State).fgStep =
      { s.written count n r with fg := .autoStart } := rfl

/-- `RB.WRITE` and `PCM.BLOCK` write alike: where the one has completed as `w`, the other makes its auto-start
test in `w`. One step for each frame offered, and the accounting step (R221). -/
theorem exists_written (s : State) (addr count : Word) :
    ∃ w, CompletesIn (s.beginWrite .rbWrite addr count) (min count.toNat (w.res.toNat + 1) + 1) w ∧
      CompletesIn (s.beginWrite .pcmBlock addr count) (min count.toNat (w.res.toNat + 1) + 2)
        w.autoStartStep := by
  obtain ⟨n, r, -, hn, hoffered⟩ := exists_offered s addr count (Nat.zero_add count.toNat)
  have hres : (s.written count n r).res.toNat = n := toNat_ofNat_word (by omega)
  have hrbWrite : State.fgStep^[min count.toNat (n + 1)] (s.beginWrite .rbWrite addr count) =
      { s with ring := r, fg := .accounting .rbWrite count n } := hoffered .rbWrite
  have hpcmBlock : State.fgStep^[min count.toNat (n + 1) + 1] (s.beginWrite .pcmBlock addr count) =
      { s.written count n r with fg := .autoStart } := by
    rw [Function.iterate_succ_apply', ← State.fgStep_accounting_pcmBlock]
    exact congrArg State.fgStep (hoffered .pcmBlock)
  refine ⟨s.written count n r, ?rbWrite, ?pcmBlock⟩ <;> rw [hres]
  case rbWrite =>
    refine .of_last ?_ ?_ rfl <;> rw [hrbWrite]
    · nofun
    · exact s.fgStep_accounting_rbWrite count n r
  case pcmBlock =>
    refine .of_last ?_ ?_ rfl <;> rw [hpcmBlock]
    · nofun
    · rw [State.fgStep_autoStart rfl, State.autoStartStep_withFg]

end WriteSteps

/-! ### `PCM.BLOCK` with every turn FG's -/

theorem State.fgTurns.mono {k n : Nat} (h : s.fgTurns n) (hk : k ≤ n) : s.fgTurns k := by
  refine h.imp_right fun hlisted => ?_
  rw [← Nat.min_eq_left hk, ← List.take_take, hlisted, List.take_replicate]

/-- An atomic step before the auto-start test neither takes a turn nor gives another agent a step. -/
theorem State.fgTurns.fgStep {k : Nat} (h : v.fgTurns k) (hauto : v.fg ≠ .autoStart) :
    v.fgStep.fgTurns k := by
  rw [State.fgTurns, State.quiet, State.fgStep_driver hauto, State.fgStep_cfg, v.fgStep_turns.1]
  exact h

/-- With every turn FG's, a write phase of `RB.WRITE` from `s` completes, and one of `PCM.BLOCK` completes as
that with the auto-start test made, whatever turns the two spend (R280, R284). -/
theorem exists_rbWrite_pcmWrite (addr count : Word) (hturns : s.fgTurns (count.toNat + 2)) :
    ∃ (s2 : State) (m : Nat), (s.beginWrite .rbWrite addr count).fgRun = s2 ∧ s2.fg = .idle ∧
      s.pcmWrite addr count = s2.autoStartStep.withTurns (s.sched.drop m) (s.tick + m) ∧
      (s.quiet → m = 0) ∧ (¬ s.quiet → m = min count.toNat (s2.res.toNat + 1) + 2) := by
  obtain ⟨w, hrb, hpcm⟩ := exists_written s addr count
  have hoffers (owner : WriteOwner) : (s.beginWrite owner addr count).fg.OffersInBlock :=
    offersInBlock_writeAt _ _ _ _ _
  obtain ⟨m, hpcmRun, hquiet, hbusy⟩ := hpcm.fgContinue (hturns.mono (by omega)) (hoffers _) le_rfl
  have hrbTurns : (s.beginWrite .rbWrite addr count).fgStep.fgTurns (min count.toNat (w.res.toNat + 1)) :=
    State.fgTurns.fgStep (v := s.beginWrite .rbWrite addr count) (hturns.mono (by omega))
      (writeAt_ne_autoStart _ _ _ _ _)
  obtain ⟨m', hrbRun, -, -⟩ := hrb.fgStep.fgContinue hrbTurns (State.fgStep_offersInBlock _ (hoffers _))
    (State.fgStep_stepsLeft_le _ (hoffers .rbWrite))
  refine ⟨_, m, hrbRun, hrb.idle, ?_, hquiet, hbusy⟩
  rw [State.autoStartStep_withTurns]
  exact hpcmRun

/-- Settles O60: under any schedule by `pcmWrite_wroteOn`; with every turn FG's, by the steps that `RB.WRITE`
and `PCM.BLOCK` have in common. `process` leaves the turns and who has a step as they are. -/
theorem pcmBlockIsProcessWriteAutoStart : Obligations.PcmBlockIsProcessWriteAutoStart := by
  refine ⟨fun ch addr count s hspan hturns => ?completes, fun ch addr count s hspan hc hring => ?goesOn⟩
  case completes =>
    have hturns1 : (s.process ch addr count).fgTurns (count.toNat + 2) := by
      rwa [State.fgTurns, State.process_quiet, State.process_sched]
    obtain ⟨s2, m, hwrite, hidle, hrun, hquiet, hbusy⟩ := exists_rbWrite_pcmWrite addr count hturns1
    rw [State.process_quiet] at hquiet hbusy
    refine ⟨s.process ch addr count, s2, s2.startDriver, _, m, exec_brProc hspan,
      (exec_rbWrite hspan).trans (congrArg _ hwrite), rfl, fun rate => exec_pcmBlock hspan, ?_, hquiet, hbusy⟩
    rw [hrun, State.autoStartStep_of_idle hidle, State.process_sched, State.process_tick]
    rfl
  case goesOn =>
    have hok : RingOk (s.process ch addr count).cfg (s.process ch addr count).ring := by
      rw [State.process_cfg, State.process_ring]
      exact hring
    exact ⟨_, _, exec_brProc hspan, fun rate => exec_pcmBlock hspan,
      pcmWrite_wroteOn (by rwa [State.process_cfg]) hok addr count⟩

end Sys2Proof.Machine

namespace Sys2Proof.Machine

variable {s : State}

/-! ### What a step answers (R305, R66) -/

/-- With no enabled step, nothing happens (R327). -/
theorem step_of_noTurn (hc : configOk s.cfg = true) (hturn : s.turn = none) : step s = .next s := by
  simp only [Machine.step, hc, if_true, State.anyStep, hturn]

theorem step_of_isrTurn (hc : configOk s.cfg = true) (hturn : s.turn = some .isr) :
    step s = .next s.spendTurn.takeInterrupt := by
  simp only [Machine.step, hc, if_true, State.anyStep, hturn, State.agentStep]

/-- A configuration outside the constraints of R8 has no step (U6). -/
theorem step_of_badConfiguration (hc : configOk s.cfg = false) :
    step s = .refused .badConfiguration :=
  if_neg (Bool.eq_false_iff.1 hc)

/-- FG's turn inside a command always completes; a command that it takes off the port does so exactly if its
span fits. FG has no turn at a port that holds no whole command (R90). -/
theorem step_of_fgTurn (hc : configOk s.cfg = true) (hturn : s.turn = some .fg) :
    (∃ t, step s = .next t) ∨
    (s.fg = .idle ∧ ∃ i rest, decode s.port = .command i rest ∧
      i.wellFormed = false ∧ step s = .refused .spanPastTop) := by
  by_cases hfg : s.fg = .idle
  · obtain hbusy | ⟨i, rest, hport⟩ := State.fgReady_iff.1 (State.ready_of_turn hturn)
    · exact absurd hfg hbusy
    · have hstep := stepRunsTheDecodedCommand s i rest hc hfg hport hturn
      obtain ⟨hnext, hrefused⟩ := execCompletesExactlyOnWellFormed i (s.spendTurn.withPort rest)
      cases hwf : i.wellFormed with
      | true =>
        obtain ⟨t, hexec⟩ := hnext hwf
        exact .inl ⟨t, hstep.trans hexec⟩
      | false => exact .inr ⟨hfg, i, rest, hport, hwf, hstep.trans (hrefused hwf)⟩
  · exact .inl ⟨_, step_of_inCommand hc hfg hturn⟩

/-- Settles O7: by the agent that has the turn. Only FG's can be refused, by `step_of_fgTurn`. -/
theorem stepRefusesOnlyBadSpans : Obligations.StepRefusesOnlyBadSpans := by
  refine ⟨fun s hc => ?answers, fun _ => step_of_badConfiguration⟩
  case answers =>
    cases hturn : s.turn with
    | none => exact .inl ⟨_, step_of_noTurn hc hturn⟩
    | some a =>
      cases a with
      | host => exact .inl ⟨_, step_of_hostTurn hc hturn⟩
      | isr => exact .inl ⟨_, step_of_isrTurn hc hturn⟩
      | dma => exact .inl ⟨_, step_of_dmaTurn hc hturn⟩
      | fg => exact (step_of_fgTurn hc hturn).imp_right fun hrefused => ⟨rfl, hrefused⟩

/-! ### Error events (R300) -/

/-- Settles O16: the two counters are written by `satAdd`, whose value is `satAdd_toNat`. -/
theorem raiseRecordsOnlyItsCounter : Obligations.RaiseRecordsOnlyItsCounter := fun s n =>
  ⟨⟨satAdd s.ring.overrun n, rfl, satAdd_toNat _ _⟩, ⟨satAdd s.ring.underrun n, rfl, satAdd_toNat _ _⟩,
    State.raise_invalidParameter, State.raise_channelMismatch⟩

/-! ### The interrupt (R312, R315, R316) -/

/-- The handler clears the completion that it handles (R257). -/
theorem State.transferComplete_irqPending (h : s.driver.running = true) :
    s.transferComplete.driver.irqPending = false := by
  rw [State.transferComplete_of_running h, State.fill_driver]
  obtain ⟨-, -, hirq⟩ := Driver.setBuf_frame s.driver.swap s.driver.active
    ((s.ring.consume s.cfg.cap s.cfg.nbuf).2.map pack)
  exact hirq

/-- Settles O55: the handler writes the ring and the driver only, by `State.transferComplete_frame`, and ISR
is enabled by the completion that it clears. -/
theorem interruptRunsTheOneHandler : Obligations.InterruptRunsTheOneHandler := by
  refine fun s => ⟨Iff.rfl, fun hc hturn hrunning => ?_⟩
  have hirq := State.transferComplete_irqPending (s := s.spendTurn) hrunning
  obtain ⟨r, d, hframe⟩ := s.spendTurn.transferComplete_frame
  refine ⟨s.spendTurn.transferComplete, step_of_isrTurn hc hturn, rfl, ?_⟩
  rw [hframe] at hirq ⊢
  exact ⟨rfl, rfl, rfl, rfl, rfl, rfl, rfl, hirq, hirq⟩

end Sys2Proof.Machine
